-- ==== Sys2Proof/Word.lean ====
section
/-!
DEFINITION. The word types of the core and nothing else: the widths of 00_scope.md rule R4 (XLEN, ALEN) and of a
4-bit register field (30_encoding.md rule R86).
-/

namespace Sys2Proof

/-- A 32-bit word: a register, a status value, an instruction word, an address (00_scope.md rule R4). -/
abbrev Word := BitVec 32

/-- One byte of memory (20_memory.md rule R50). -/
abbrev Byte := BitVec 8

/-- A logical register index R0 to R15, as every register field of an instruction holds it (30_encoding.md rule R86). -/
abbrev Reg := BitVec 4

end Sys2Proof
end

