-- ==== Sys2Proof/Syntax.lean ====
section
/-!
DEFINITION. The instructions of the core as data: `Instr` has one constructor for each of the 59 rows of
spec/opcode_table.json, in the table's order.  Every bit of an instruction word that its row does not fix is held by
some argument, the ignored and should-be-zero bits too, so that encoding and decoding lose nothing
(DESIGN CHOICE, log entry 18).
-/

namespace Sys2Proof

/-- The condition field (41_condition_shifter_alu.md rules R140, R141); `nv` is the sixteenth pattern, 0b1111. -/
inductive Cond where
  | eq | ne | cs | cc | mi | pl | vs | vc | hi | ls | ge | lt | gt | le | al | nv
deriving DecidableEq, Repr

/-- Shift types (30_encoding.md rule R89). -/
inductive ShiftType where
  | lsl | lsr | asr | ror
deriving DecidableEq, Repr

/-- Operand2 of a data-processing instruction (30_encoding.md rules R88, R89).  `bit7` of the register-specified form is
the bit the architecture requires to be 0 (class U2 when it is 1). -/
inductive Operand2 where
  | imm      (rot : BitVec 4) (imm8 : BitVec 8)
  | shiftImm (amount : BitVec 5) (ty : ShiftType) (rm : Reg)
  | shiftReg (rs : Reg) (bit7 : Bool) (ty : ShiftType) (rm : Reg)
deriving DecidableEq, Repr

/-- The P and W bits of a single or halfword transfer (30_encoding.md rules R95, R96): `offset` P = 1 W = 0,
`preIndexed` P = 1 W = 1, `postIndexed` P = 0 W = 0, `postIndexedW` P = 0 W = 1. -/
inductive Indexing where
  | offset | preIndexed | postIndexed | postIndexedW
deriving DecidableEq, Repr

/-- The offset of a single data transfer (30_encoding.md rule R96): I = 0 a 12-bit immediate, I = 1 a register shifted by
an immediate amount. -/
inductive SdtOffset where
  | imm (imm12 : BitVec 12)
  | reg (amount : BitVec 5) (ty : ShiftType) (rm : Reg)
deriving DecidableEq, Repr

/-- The addressing modes of a block transfer (47_block_data_transfer.md rule R265), by U and P. -/
inductive BlockMode where
  | ia | ib | da | db
deriving DecidableEq, Repr

/-- The instructions: one constructor per row of spec/opcode_table.json.  `c` is the condition field, `s` the
flag-setting bit, `up` the U bit, `ix` the P and W bits. -/
inductive Instr where
  | bx (c : Cond) (rn : Reg)
  | ldm (c : Cond) (m : BlockMode) (forceUser wb : Bool) (rn : Reg) (list : BitVec 16)
  | stm (c : Cond) (m : BlockMode) (forceUser wb : Bool) (rn : Reg) (list : BitVec 16)
  | b (c : Cond) (offset24 : BitVec 24)
  | bl (c : Cond) (offset24 : BitVec 24)
  | swi (c : Cond) (comment24 : BitVec 24)
  | und (c : Cond) (ignoredHi : BitVec 20) (ignoredLo : BitVec 4)
  | ldrt (c : Cond) (up : Bool) (rn rd : Reg) (off : SdtOffset)
  | ldrbt (c : Cond) (up : Bool) (rn rd : Reg) (off : SdtOffset)
  | strt (c : Cond) (up : Bool) (rn rd : Reg) (off : SdtOffset)
  | strbt (c : Cond) (up : Bool) (rn rd : Reg) (off : SdtOffset)
  | ldr (c : Cond) (ix : Indexing) (up : Bool) (rn rd : Reg) (off : SdtOffset)
  | ldrb (c : Cond) (ix : Indexing) (up : Bool) (rn rd : Reg) (off : SdtOffset)
  | str (c : Cond) (ix : Indexing) (up : Bool) (rn rd : Reg) (off : SdtOffset)
  | strb (c : Cond) (ix : Indexing) (up : Bool) (rn rd : Reg) (off : SdtOffset)
  | swp (c : Cond) (rn rd rm : Reg)
  | swpb (c : Cond) (rn rd rm : Reg)
  | mul (c : Cond) (bit22 s : Bool) (rd rn rs rm : Reg)
  | mla (c : Cond) (bit22 s : Bool) (rd rn rs rm : Reg)
  | umull (c : Cond) (s : Bool) (rdHi rdLo rs rm : Reg)
  | umlal (c : Cond) (s : Bool) (rdHi rdLo rs rm : Reg)
  | smull (c : Cond) (s : Bool) (rdHi rdLo rs rm : Reg)
  | smlal (c : Cond) (s : Bool) (rdHi rdLo rs rm : Reg)
  | strhReg (c : Cond) (ix : Indexing) (up : Bool) (rn rd rm : Reg)
  | ldrhReg (c : Cond) (ix : Indexing) (up : Bool) (rn rd rm : Reg)
  | ldrsbReg (c : Cond) (ix : Indexing) (up : Bool) (rn rd rm : Reg)
  | ldrshReg (c : Cond) (ix : Indexing) (up : Bool) (rn rd rm : Reg)
  | reservedStoreSh10Reg (c : Cond) (ix : Indexing) (up : Bool) (rn rd rm : Reg)
  | reservedStoreSh11Reg (c : Cond) (ix : Indexing) (up : Bool) (rn rd rm : Reg)
  | reservedSh00Reg (c : Cond) (ix : Indexing) (up load : Bool) (rn rd rm : Reg)
  | strhImm (c : Cond) (ix : Indexing) (up : Bool) (rn rd : Reg) (off : BitVec 8)
  | ldrhImm (c : Cond) (ix : Indexing) (up : Bool) (rn rd : Reg) (off : BitVec 8)
  | ldrsbImm (c : Cond) (ix : Indexing) (up : Bool) (rn rd : Reg) (off : BitVec 8)
  | ldrshImm (c : Cond) (ix : Indexing) (up : Bool) (rn rd : Reg) (off : BitVec 8)
  | reservedStoreSh10Imm (c : Cond) (ix : Indexing) (up : Bool) (rn rd : Reg) (off : BitVec 8)
  | reservedStoreSh11Imm (c : Cond) (ix : Indexing) (up : Bool) (rn rd : Reg) (off : BitVec 8)
  | reservedSh00Imm (c : Cond) (ix : Indexing) (up load : Bool) (rn rd : Reg) (off : BitVec 8)
  | mrs (c : Cond) (spsr : Bool) (rd : Reg) (sbz : BitVec 12)
  | msrReg (c : Cond) (spsr : Bool) (fmask : BitVec 4) (sbz : BitVec 8) (rm : Reg)
  | msrImm (c : Cond) (spsr : Bool) (fmask rot : BitVec 4) (imm8 : BitVec 8)
  | and (c : Cond) (s : Bool) (rn rd : Reg) (o : Operand2)
  | eor (c : Cond) (s : Bool) (rn rd : Reg) (o : Operand2)
  | sub (c : Cond) (s : Bool) (rn rd : Reg) (o : Operand2)
  | rsb (c : Cond) (s : Bool) (rn rd : Reg) (o : Operand2)
  | add (c : Cond) (s : Bool) (rn rd : Reg) (o : Operand2)
  | adc (c : Cond) (s : Bool) (rn rd : Reg) (o : Operand2)
  | sbc (c : Cond) (s : Bool) (rn rd : Reg) (o : Operand2)
  | rsc (c : Cond) (s : Bool) (rn rd : Reg) (o : Operand2)
  | tst (c : Cond) (rn rd : Reg) (o : Operand2)
  | teq (c : Cond) (rn rd : Reg) (o : Operand2)
  | cmp (c : Cond) (rn rd : Reg) (o : Operand2)
  | cmn (c : Cond) (rn rd : Reg) (o : Operand2)
  | orr (c : Cond) (s : Bool) (rn rd : Reg) (o : Operand2)
  | mov (c : Cond) (s : Bool) (rn rd : Reg) (o : Operand2)
  | bic (c : Cond) (s : Bool) (rn rd : Reg) (o : Operand2)
  | mvn (c : Cond) (s : Bool) (rn rd : Reg) (o : Operand2)
  | reservedDp (c : Cond) (op : BitVec 2) (rn rd : Reg) (o : Operand2)
  | cdpMcrMrc (c : Cond) (ignored : BitVec 24)
  | ldcStc (c : Cond) (ignored : BitVec 25)
deriving DecidableEq, Repr

end Sys2Proof
end

