-- ==== Sys2Proof/WellFormed.lean ====
section
/-!
DEFINITION. Which instruction terms have a word of their own.  The decoder takes the first row that matches
(30_encoding.md rules R82, R83), so a term whose word an earlier row takes is ill formed: it is not the instruction that
word stands for.  Each check below names the row that takes the words it excludes.
-/

namespace Sys2Proof

/-- Bits 7 and 4 are both 1 in a word with bits 27:25 = 000: rows 10 and 11 of the decoder take it when bit 22 is 1 or
bits 11:8 are 0 (HalfwordTransfer); `bit22` and `hi` are those bits. -/
def takenByHalfword (bit22 : Bool) (hi : BitVec 4) : Bool := bit22 || hi == 0

/-- A data-processing operand2 under the opcode `op`: the register-specified form with bit 7 = 1 is a word of this kind
only where rows 8 to 11 (Multiply, MultiplyLong, HalfwordTransfer) leave it (42_data_processing.md rule R185, U2). -/
def Operand2.wellFormed (op : BitVec 4) : Operand2 → Bool
  | .imm _ _ => true
  | .shiftImm _ _ _ => true
  | .shiftReg rs bit7 ty _ =>
    !bit7 || (!takenByHalfword (op.getLsbD 1) rs && (op.getLsbD 3 || ty != .lsl))

/-- A register-form operand2 has I = 0. -/
def Operand2.isRegister : Operand2 → Bool
  | .imm _ _ => false
  | .shiftImm _ _ _ => true
  | .shiftReg _ _ _ _ => true

/-- The reserved opcodes 10xx with S = 0: `op` is the `xx`.  Rows 12 and 13 take the MRS and MSR words (BX words are
among the latter), rows 7, 10 and 11 the swap and halfword words. -/
def reservedDpWellFormed (op : BitVec 2) (rn rd : Reg) (o : Operand2) : Bool :=
  o.wellFormed (0b10#2 ++ op) && (op.getLsbD 0 || !o.isRegister || rn != 15) && (!op.getLsbD 0 || rd != 15)

/-- The transfer of an SH = 00 word is a halfword row's only when rows 7 to 9 leave the word: P = 1, and not
U = W = L = 0 with bits 11:8 = 0 (a swap); `hi` is bits 11:8. -/
def sh00WellFormed (ix : Indexing) (up load : Bool) (hi : BitVec 4) : Bool :=
  match ix with
  | .offset => up || load || hi != 0
  | .preIndexed => true
  | .postIndexed => false
  | .postIndexedW => false

/-- A plain word or byte transfer is not the T variant (P = 0, W = 1), which has rows of its own. -/
def plainSdtWellFormed (ix : Indexing) : Bool := ix != .postIndexedW

/-- Whether the term has a word of its own. -/
def Instr.wellFormed : Instr → Bool
  | .bx _ _ => true
  | .ldm _ _ _ _ _ _ => true
  | .stm _ _ _ _ _ _ => true
  | .b _ _ => true
  | .bl _ _ => true
  | .swi _ _ => true
  | .und _ _ _ => true
  | .ldrt _ _ _ _ _ => true
  | .ldrbt _ _ _ _ _ => true
  | .strt _ _ _ _ _ => true
  | .strbt _ _ _ _ _ => true
  | .ldr _ ix _ _ _ _ => plainSdtWellFormed ix
  | .ldrb _ ix _ _ _ _ => plainSdtWellFormed ix
  | .str _ ix _ _ _ _ => plainSdtWellFormed ix
  | .strb _ ix _ _ _ _ => plainSdtWellFormed ix
  | .swp _ _ _ _ => true
  | .swpb _ _ _ _ => true
  | .mul _ _ _ _ _ _ _ => true
  | .mla _ _ _ _ _ _ _ => true
  | .umull _ _ _ _ _ _ => true
  | .umlal _ _ _ _ _ _ => true
  | .smull _ _ _ _ _ _ => true
  | .smlal _ _ _ _ _ _ => true
  | .strhReg _ _ _ _ _ _ => true
  | .ldrhReg _ _ _ _ _ _ => true
  | .ldrsbReg _ _ _ _ _ _ => true
  | .ldrshReg _ _ _ _ _ _ => true
  | .reservedStoreSh10Reg _ _ _ _ _ _ => true
  | .reservedStoreSh11Reg _ _ _ _ _ _ => true
  | .reservedSh00Reg _ ix up load _ _ _ => sh00WellFormed ix up load 0
  | .strhImm _ _ _ _ _ _ => true
  | .ldrhImm _ _ _ _ _ _ => true
  | .ldrsbImm _ _ _ _ _ _ => true
  | .ldrshImm _ _ _ _ _ _ => true
  | .reservedStoreSh10Imm _ _ _ _ _ _ => true
  | .reservedStoreSh11Imm _ _ _ _ _ _ => true
  | .reservedSh00Imm _ ix up load _ _ off => sh00WellFormed ix up load (off.extractLsb' 4 4)
  -- MRS: rows 7, 10 and 11 take the words with bits 7 and 4 both 1 and (Ps = 1 or bits 11:8 = 0)
  | .mrs _ spsr _ sbz => !(sbz.getLsbD 7 && sbz.getLsbD 4 && takenByHalfword spsr (sbz.extractLsb' 8 4))
  -- MSR register form: rows 10 and 11 likewise, and row 1 takes `BX` (Pd = 0, field mask 1111, bits 11:4 = F1)
  | .msrReg _ spsr fmask sbz _ =>
    !(sbz.getLsbD 3 && sbz.getLsbD 0 && takenByHalfword spsr (sbz.extractLsb' 4 4))
      && !(!spsr && fmask == 15 && sbz == 0xF1)
  | .msrImm _ _ _ _ _ => true
  | .and _ _ _ _ o => o.wellFormed 0b0000
  | .eor _ _ _ _ o => o.wellFormed 0b0001
  | .sub _ _ _ _ o => o.wellFormed 0b0010
  | .rsb _ _ _ _ o => o.wellFormed 0b0011
  | .add _ _ _ _ o => o.wellFormed 0b0100
  | .adc _ _ _ _ o => o.wellFormed 0b0101
  | .sbc _ _ _ _ o => o.wellFormed 0b0110
  | .rsc _ _ _ _ o => o.wellFormed 0b0111
  | .tst _ _ _ o => o.wellFormed 0b1000
  | .teq _ _ _ o => o.wellFormed 0b1001
  | .cmp _ _ _ o => o.wellFormed 0b1010
  | .cmn _ _ _ o => o.wellFormed 0b1011
  | .orr _ _ _ _ o => o.wellFormed 0b1100
  | .mov _ _ _ _ o => o.wellFormed 0b1101
  | .bic _ _ _ _ o => o.wellFormed 0b1110
  | .mvn _ _ _ _ o => o.wellFormed 0b1111
  | .reservedDp _ op rn rd o => reservedDpWellFormed op rn rd o
  | .cdpMcrMrc _ _ => true
  | .ldcStc _ _ => true

end Sys2Proof
end

