-- ==== Sys2Proof/Decode.lean ====
section
/-!
DEFINITION. The decoder and the encoder.  `classify` is the priority table of 30_encoding.md rule R82 with row 15 of
rule R84; `decode` reads the fields of the kind's format (rules R86 to R98).  Every 32-bit word decodes (rule R84);
`decodeBytes` rejects, by name, only a list too short to hold a word.  `encode` writes the word of an instruction from
the same formats.
-/

namespace Sys2Proof

/-! ### Reading fields (00_scope.md rule R5) -/

/-- `w[lo+len-1 : lo]`. -/
def field (w : Word) (lo len : Nat) : BitVec len := w.extractLsb' lo len

/-- `w[i]`. -/
def bitAt (w : Word) (i : Nat) : Bool := w.getLsbD i

/-! ### Classification (30_encoding.md rules R82, R84) -/

/-- The 14 kinds of 30_encoding.md rule R82. -/
inductive Kind where
  | branchAndExchange
  | blockDataTransfer
  | branchAndBranchWithLink
  | softwareInterrupt
  | undefined
  | singleDataTransfer
  | singleDataSwap
  | multiply
  | multiplyLong
  | halfwordTransferRegister
  | halfwordTransferImmediate
  | psrToRegister
  | registerToPsr
  | dataProcessing
deriving DecidableEq, Repr

/-- One row of the priority table. -/
structure DecoderRow where
  mask  : Word
  value : Word
  kind  : Kind
deriving DecidableEq, Repr

/-- The priority table of 30_encoding.md rule R82; its row 3 has two values and stands as two rows here. -/
def decoderTable : List DecoderRow :=
  [ ⟨0x0FFFFFF0, 0x012FFF10, .branchAndExchange⟩,
    ⟨0x0E000000, 0x08000000, .blockDataTransfer⟩,
    ⟨0x0F000000, 0x0A000000, .branchAndBranchWithLink⟩,
    ⟨0x0F000000, 0x0B000000, .branchAndBranchWithLink⟩,
    ⟨0x0F000000, 0x0F000000, .softwareInterrupt⟩,
    ⟨0x0E000010, 0x06000010, .undefined⟩,
    ⟨0x0C000000, 0x04000000, .singleDataTransfer⟩,
    ⟨0x0FB00FF0, 0x01000090, .singleDataSwap⟩,
    ⟨0x0F8000F0, 0x00000090, .multiply⟩,
    ⟨0x0F8000F0, 0x00800090, .multiplyLong⟩,
    ⟨0x0E400F90, 0x00000090, .halfwordTransferRegister⟩,
    ⟨0x0E400090, 0x00400090, .halfwordTransferImmediate⟩,
    ⟨0x0FBF0000, 0x010F0000, .psrToRegister⟩,
    ⟨0x0DB0F000, 0x0120F000, .registerToPsr⟩,
    ⟨0x0C000000, 0x00000000, .dataProcessing⟩,
    ⟨0x0C000000, 0x0C000000, .undefined⟩ ]

/-- The first row of the table that matches the word. -/
def matchingRow (w : Word) : Option DecoderRow := decoderTable.find? fun r => w &&& r.mask == r.value

/-- The kind of a word: that of the first matching row.  Some row always matches (rule R84), so the `none` case is
never reached. -/
def classify (w : Word) : Kind :=
  match matchingRow w with
  | some r => r.kind
  | none => .undefined

/-! ### Field values -/

/-- The condition field (41_condition_shifter_alu.md rules R140, R141). -/
def Cond.ofBits (b : BitVec 4) : Cond :=
  match b.toNat with
  | 0 => .eq | 1 => .ne | 2 => .cs | 3 => .cc | 4 => .mi | 5 => .pl | 6 => .vs | 7 => .vc
  | 8 => .hi | 9 => .ls | 10 => .ge | 11 => .lt | 12 => .gt | 13 => .le | 14 => .al | _ => .nv

/-- The bits of a condition. -/
def Cond.bits : Cond → BitVec 4
  | .eq => 0 | .ne => 1 | .cs => 2 | .cc => 3 | .mi => 4 | .pl => 5 | .vs => 6 | .vc => 7
  | .hi => 8 | .ls => 9 | .ge => 10 | .lt => 11 | .gt => 12 | .le => 13 | .al => 14 | .nv => 15

/-- The shift type field (30_encoding.md rule R89). -/
def ShiftType.ofBits (b : BitVec 2) : ShiftType :=
  match b.toNat with
  | 0 => .lsl | 1 => .lsr | 2 => .asr | _ => .ror

/-- The bits of a shift type. -/
def ShiftType.bits : ShiftType → BitVec 2
  | .lsl => 0 | .lsr => 1 | .asr => 2 | .ror => 3

/-- The P and W bits (30_encoding.md rules R95, R96). -/
def Indexing.ofBits (p w : Bool) : Indexing :=
  match p, w with
  | true, false => .offset
  | true, true => .preIndexed
  | false, false => .postIndexed
  | false, true => .postIndexedW

/-- The P bit. -/
def Indexing.p : Indexing → Bool
  | .offset => true | .preIndexed => true | .postIndexed => false | .postIndexedW => false

/-- The W bit. -/
def Indexing.w : Indexing → Bool
  | .offset => false | .preIndexed => true | .postIndexed => false | .postIndexedW => true

/-- The P and U bits of a block transfer (47_block_data_transfer.md rule R265). -/
def BlockMode.ofBits (p u : Bool) : BlockMode :=
  match p, u with
  | false, true => .ia
  | true, true => .ib
  | false, false => .da
  | true, false => .db

/-- The P bit of a block transfer. -/
def BlockMode.p : BlockMode → Bool
  | .ia => false | .ib => true | .da => false | .db => true

/-- The U bit of a block transfer. -/
def BlockMode.u : BlockMode → Bool
  | .ia => true | .ib => true | .da => false | .db => false

/-! ### Decoding, one function per format -/

/-- The condition field of a word. -/
def condOf (w : Word) : Cond := Cond.ofBits (field w 28 4)

/-- Operand2 (30_encoding.md rules R87 to R89). -/
def operand2Of (w : Word) : Operand2 :=
  if bitAt w 25 then .imm (field w 8 4) (field w 0 8)
  else if bitAt w 4 then .shiftReg (field w 8 4) (bitAt w 7) (.ofBits (field w 5 2)) (field w 0 4)
  else .shiftImm (field w 7 5) (.ofBits (field w 5 2)) (field w 0 4)

/-- The offset of format SDT (30_encoding.md rule R96). -/
def sdtOffsetOf (w : Word) : SdtOffset :=
  if bitAt w 25 then .reg (field w 7 5) (.ofBits (field w 5 2)) (field w 0 4) else .imm (field w 0 12)

/-- Kind BlockDataTransfer, format BDT (30_encoding.md rule R98). -/
def decodeBlock (w : Word) : Instr :=
  let m := BlockMode.ofBits (bitAt w 24) (bitAt w 23)
  if bitAt w 20 then .ldm (condOf w) m (bitAt w 22) (bitAt w 21) (field w 16 4) (field w 0 16)
  else .stm (condOf w) m (bitAt w 22) (bitAt w 21) (field w 16 4) (field w 0 16)

/-- Kind BranchAndBranchWithLink, format B (30_encoding.md rule R98). -/
def decodeBranch (w : Word) : Instr :=
  if bitAt w 24 then .bl (condOf w) (field w 0 24) else .b (condOf w) (field w 0 24)

/-- Kind Undefined: row 5 (format UND) and the coprocessor space of row 15 (format CP; 30_encoding.md rules R84, R97). -/
def decodeUndefined (w : Word) : Instr :=
  if field w 25 3 = 0b011#3 then .und (condOf w) (field w 5 20) (field w 0 4)
  else if field w 24 4 = 0b1110#4 then .cdpMcrMrc (condOf w) (field w 0 24)
  else .ldcStc (condOf w) (field w 0 25)

/-- Kind SingleDataTransfer, format SDT (30_encoding.md rule R96; 45_single_data_transfer.md rule R230). -/
def decodeSingle (w : Word) : Instr :=
  let c := condOf w
  let up := bitAt w 23
  let rn := field w 16 4
  let rd := field w 12 4
  let off := sdtOffsetOf w
  match Indexing.ofBits (bitAt w 24) (bitAt w 21), bitAt w 20, bitAt w 22 with
  | .postIndexedW, true, false => .ldrt c up rn rd off
  | .postIndexedW, true, true => .ldrbt c up rn rd off
  | .postIndexedW, false, false => .strt c up rn rd off
  | .postIndexedW, false, true => .strbt c up rn rd off
  | ix, true, false => .ldr c ix up rn rd off
  | ix, true, true => .ldrb c ix up rn rd off
  | ix, false, false => .str c ix up rn rd off
  | ix, false, true => .strb c ix up rn rd off

/-- Kind SingleDataSwap, format SWP (30_encoding.md rule R93). -/
def decodeSwap (w : Word) : Instr :=
  if bitAt w 22 then .swpb (condOf w) (field w 16 4) (field w 12 4) (field w 0 4)
  else .swp (condOf w) (field w 16 4) (field w 12 4) (field w 0 4)

/-- Kind Multiply, format MUL (30_encoding.md rule R91). -/
def decodeMultiply (w : Word) : Instr :=
  if bitAt w 21 then
    .mla (condOf w) (bitAt w 22) (bitAt w 20) (field w 16 4) (field w 12 4) (field w 8 4) (field w 0 4)
  else .mul (condOf w) (bitAt w 22) (bitAt w 20) (field w 16 4) (field w 12 4) (field w 8 4) (field w 0 4)

/-- Kind MultiplyLong, format MULL (30_encoding.md rule R92). -/
def decodeMultiplyLong (w : Word) : Instr :=
  let c := condOf w
  let s := bitAt w 20
  match bitAt w 22, bitAt w 21 with
  | false, false => .umull c s (field w 16 4) (field w 12 4) (field w 8 4) (field w 0 4)
  | false, true => .umlal c s (field w 16 4) (field w 12 4) (field w 8 4) (field w 0 4)
  | true, false => .smull c s (field w 16 4) (field w 12 4) (field w 8 4) (field w 0 4)
  | true, true => .smlal c s (field w 16 4) (field w 12 4) (field w 8 4) (field w 0 4)

/-- Kind HalfwordTransfer, register offset: format H (30_encoding.md rule R95; 46_halfword_transfer.md rule R250). -/
def decodeHalfReg (w : Word) : Instr :=
  let c := condOf w
  let ix := Indexing.ofBits (bitAt w 24) (bitAt w 21)
  let up := bitAt w 23
  let rn := field w 16 4
  let rd := field w 12 4
  let rm := field w 0 4
  match bitAt w 20, bitAt w 6, bitAt w 5 with
  | l, false, false => .reservedSh00Reg c ix up l rn rd rm
  | true, false, true => .ldrhReg c ix up rn rd rm
  | true, true, false => .ldrsbReg c ix up rn rd rm
  | true, true, true => .ldrshReg c ix up rn rd rm
  | false, false, true => .strhReg c ix up rn rd rm
  | false, true, false => .reservedStoreSh10Reg c ix up rn rd rm
  | false, true, true => .reservedStoreSh11Reg c ix up rn rd rm

/-- Kind HalfwordTransfer, immediate offset (30_encoding.md rule R95): the offset is bits 11:8 above bits 3:0. -/
def decodeHalfImm (w : Word) : Instr :=
  let c := condOf w
  let ix := Indexing.ofBits (bitAt w 24) (bitAt w 21)
  let up := bitAt w 23
  let rn := field w 16 4
  let rd := field w 12 4
  let off := field w 8 4 ++ field w 0 4
  match bitAt w 20, bitAt w 6, bitAt w 5 with
  | l, false, false => .reservedSh00Imm c ix up l rn rd off
  | true, false, true => .ldrhImm c ix up rn rd off
  | true, true, false => .ldrsbImm c ix up rn rd off
  | true, true, true => .ldrshImm c ix up rn rd off
  | false, false, true => .strhImm c ix up rn rd off
  | false, true, false => .reservedStoreSh10Imm c ix up rn rd off
  | false, true, true => .reservedStoreSh11Imm c ix up rn rd off

/-- Kind PsrToRegister, format PSR (30_encoding.md rule R90). -/
def decodeMrs (w : Word) : Instr := .mrs (condOf w) (bitAt w 22) (field w 12 4) (field w 0 12)

/-- Kind RegisterToPsr, format PSR (30_encoding.md rule R90). -/
def decodeMsr (w : Word) : Instr :=
  if bitAt w 25 then .msrImm (condOf w) (bitAt w 22) (field w 16 4) (field w 8 4) (field w 0 8)
  else .msrReg (condOf w) (bitAt w 22) (field w 16 4) (field w 4 8) (field w 0 4)

/-- Kind DataProcessing, format DP (30_encoding.md rules R87, R99); opcode 10xx with S = 0 is the reserved form of
42_data_processing.md rule R185. -/
def decodeDataProcessing (w : Word) : Instr :=
  let c := condOf w
  let s := bitAt w 20
  let rn := field w 16 4
  let rd := field w 12 4
  let o := operand2Of w
  match (field w 21 4).toNat, s with
  | 0, s => .and c s rn rd o
  | 1, s => .eor c s rn rd o
  | 2, s => .sub c s rn rd o
  | 3, s => .rsb c s rn rd o
  | 4, s => .add c s rn rd o
  | 5, s => .adc c s rn rd o
  | 6, s => .sbc c s rn rd o
  | 7, s => .rsc c s rn rd o
  | 8, true => .tst c rn rd o
  | 9, true => .teq c rn rd o
  | 10, true => .cmp c rn rd o
  | 11, true => .cmn c rn rd o
  | 8, false => .reservedDp c 0 rn rd o
  | 9, false => .reservedDp c 1 rn rd o
  | 10, false => .reservedDp c 2 rn rd o
  | 11, false => .reservedDp c 3 rn rd o
  | 12, s => .orr c s rn rd o
  | 13, s => .mov c s rn rd o
  | 14, s => .bic c s rn rd o
  | _, s => .mvn c s rn rd o

/-- The instruction a word stands for: total (30_encoding.md rule R84), and reading nothing but the word
(40_step_and_pipeline.md rule R123). -/
def decode (w : Word) : Instr :=
  match classify w with
  | .branchAndExchange => .bx (condOf w) (field w 0 4)
  | .blockDataTransfer => decodeBlock w
  | .branchAndBranchWithLink => decodeBranch w
  | .softwareInterrupt => .swi (condOf w) (field w 0 24)
  | .undefined => decodeUndefined w
  | .singleDataTransfer => decodeSingle w
  | .singleDataSwap => decodeSwap w
  | .multiply => decodeMultiply w
  | .multiplyLong => decodeMultiplyLong w
  | .halfwordTransferRegister => decodeHalfReg w
  | .halfwordTransferImmediate => decodeHalfImm w
  | .psrToRegister => decodeMrs w
  | .registerToPsr => decodeMsr w
  | .dataProcessing => decodeDataProcessing w

/-- Why a byte list is no instruction. -/
inductive DecodeError where
  /-- Fewer than the four bytes every ARM-state instruction has (30_encoding.md rule R80). -/
  | fewerThanFourBytes
deriving DecidableEq, Repr

/-- The word at the head of a byte list, least significant byte first (30_encoding.md rule R80), and the rest. -/
def wordOfBytes : List Byte → Except DecodeError (Word × List Byte)
  | b0 :: b1 :: b2 :: b3 :: rest => .ok (b3 ++ b2 ++ b1 ++ b0, rest)
  | _ => .error .fewerThanFourBytes

/-- Decoding of any byte list: the instruction at its head and the rest, or the named rejection. -/
def decodeBytes (bs : List Byte) : Except DecodeError (Instr × List Byte) :=
  match wordOfBytes bs with
  | .ok (w, rest) => .ok (decode w, rest)
  | .error e => .error e

/-- The four bytes of a word as memory holds them, the lowest address first (30_encoding.md rule R80). -/
def bytesOfWord (w : Word) : List Byte := [field w 0 8, field w 8 8, field w 16 8, field w 24 8]

/-! ### Encoding, one function per format -/

/-- One bit of a word. -/
abbrev bit (b : Bool) : BitVec 1 := BitVec.ofBool b

/-- Bits 11:0 of format DP (30_encoding.md rules R88, R89). -/
def Operand2.bits : Operand2 → BitVec 12
  | .imm rot imm8 => rot ++ imm8
  | .shiftImm amount ty rm => amount ++ ty.bits ++ 0#1 ++ rm
  | .shiftReg rs bit7 ty rm => rs ++ bit bit7 ++ ty.bits ++ 1#1 ++ rm

/-- The I bit of format DP. -/
def Operand2.iBit : Operand2 → Bool
  | .imm _ _ => true
  | .shiftImm _ _ _ => false
  | .shiftReg _ _ _ _ => false

/-- Bits 11:0 of format SDT (30_encoding.md rule R96). -/
def SdtOffset.bits : SdtOffset → BitVec 12
  | .imm imm12 => imm12
  | .reg amount ty rm => amount ++ ty.bits ++ 0#1 ++ rm

/-- The I bit of format SDT: 1 = register offset. -/
def SdtOffset.iBit : SdtOffset → Bool
  | .imm _ => false
  | .reg _ _ _ => true

/-- Format DP (30_encoding.md rule R87). -/
def encodeDp (c : Cond) (op : BitVec 4) (s : Bool) (rn rd : Reg) (o : Operand2) : Word :=
  c.bits ++ 0b00#2 ++ bit o.iBit ++ op ++ bit s ++ rn ++ rd ++ o.bits

/-- Format SDT (30_encoding.md rule R96); `b` the byte bit, `l` the load bit. -/
def encodeSdt (c : Cond) (ix : Indexing) (up b l : Bool) (rn rd : Reg) (off : SdtOffset) : Word :=
  c.bits ++ 0b01#2 ++ bit off.iBit ++ bit ix.p ++ bit up ++ bit b ++ bit ix.w ++ bit l ++ rn ++ rd ++ off.bits

/-- Format BDT (30_encoding.md rule R98). -/
def encodeBdt (c : Cond) (m : BlockMode) (s wb l : Bool) (rn : Reg) (list : BitVec 16) : Word :=
  c.bits ++ 0b100#3 ++ bit m.p ++ bit m.u ++ bit s ++ bit wb ++ bit l ++ rn ++ list

/-- Format B (30_encoding.md rule R98). -/
def encodeB (c : Cond) (l : Bool) (offset24 : BitVec 24) : Word := c.bits ++ 0b101#3 ++ bit l ++ offset24

/-- Format SWP (30_encoding.md rule R93). -/
def encodeSwp (c : Cond) (b : Bool) (rn rd rm : Reg) : Word :=
  c.bits ++ 0b00010#5 ++ bit b ++ 0b00#2 ++ rn ++ rd ++ 0b00001001#8 ++ rm

/-- Format MUL (30_encoding.md rule R91). -/
def encodeMul (c : Cond) (bit22 a s : Bool) (rd rn rs rm : Reg) : Word :=
  c.bits ++ 0b00000#5 ++ bit bit22 ++ bit a ++ bit s ++ rd ++ rn ++ rs ++ 0b1001#4 ++ rm

/-- Format MULL (30_encoding.md rule R92). -/
def encodeMull (c : Cond) (u a s : Bool) (rdHi rdLo rs rm : Reg) : Word :=
  c.bits ++ 0b00001#5 ++ bit u ++ bit a ++ bit s ++ rdHi ++ rdLo ++ rs ++ 0b1001#4 ++ rm

/-- Format H, register form (30_encoding.md rule R95). -/
def encodeHReg (c : Cond) (ix : Indexing) (up l : Bool) (sh : BitVec 2) (rn rd rm : Reg) : Word :=
  c.bits ++ 0b000#3 ++ bit ix.p ++ bit up ++ 0#1 ++ bit ix.w ++ bit l ++ rn ++ rd ++ 0b0000#4 ++ 1#1 ++ sh ++ 1#1 ++ rm

/-- Format H, immediate form (30_encoding.md rule R95). -/
def encodeHImm (c : Cond) (ix : Indexing) (up l : Bool) (sh : BitVec 2) (rn rd : Reg) (off : BitVec 8) : Word :=
  c.bits ++ 0b000#3 ++ bit ix.p ++ bit up ++ 1#1 ++ bit ix.w ++ bit l ++ rn ++ rd
    ++ (off.extractLsb' 4 4 : BitVec 4) ++ 1#1 ++ sh ++ 1#1 ++ (off.extractLsb' 0 4 : BitVec 4)

/-- The word of an instruction. -/
def encode : Instr → Word
  | .bx c rn => c.bits ++ 0b000100101111111111110001#24 ++ rn
  | .ldm c m s wb rn list => encodeBdt c m s wb true rn list
  | .stm c m s wb rn list => encodeBdt c m s wb false rn list
  | .b c off => encodeB c false off
  | .bl c off => encodeB c true off
  | .swi c comment => c.bits ++ 0b1111#4 ++ comment
  | .und c hi lo => c.bits ++ 0b011#3 ++ hi ++ 1#1 ++ lo
  | .ldrt c up rn rd off => encodeSdt c .postIndexedW up false true rn rd off
  | .ldrbt c up rn rd off => encodeSdt c .postIndexedW up true true rn rd off
  | .strt c up rn rd off => encodeSdt c .postIndexedW up false false rn rd off
  | .strbt c up rn rd off => encodeSdt c .postIndexedW up true false rn rd off
  | .ldr c ix up rn rd off => encodeSdt c ix up false true rn rd off
  | .ldrb c ix up rn rd off => encodeSdt c ix up true true rn rd off
  | .str c ix up rn rd off => encodeSdt c ix up false false rn rd off
  | .strb c ix up rn rd off => encodeSdt c ix up true false rn rd off
  | .swp c rn rd rm => encodeSwp c false rn rd rm
  | .swpb c rn rd rm => encodeSwp c true rn rd rm
  | .mul c x s rd rn rs rm => encodeMul c x false s rd rn rs rm
  | .mla c x s rd rn rs rm => encodeMul c x true s rd rn rs rm
  | .umull c s hi lo rs rm => encodeMull c false false s hi lo rs rm
  | .umlal c s hi lo rs rm => encodeMull c false true s hi lo rs rm
  | .smull c s hi lo rs rm => encodeMull c true false s hi lo rs rm
  | .smlal c s hi lo rs rm => encodeMull c true true s hi lo rs rm
  | .strhReg c ix up rn rd rm => encodeHReg c ix up false 0b01 rn rd rm
  | .ldrhReg c ix up rn rd rm => encodeHReg c ix up true 0b01 rn rd rm
  | .ldrsbReg c ix up rn rd rm => encodeHReg c ix up true 0b10 rn rd rm
  | .ldrshReg c ix up rn rd rm => encodeHReg c ix up true 0b11 rn rd rm
  | .reservedStoreSh10Reg c ix up rn rd rm => encodeHReg c ix up false 0b10 rn rd rm
  | .reservedStoreSh11Reg c ix up rn rd rm => encodeHReg c ix up false 0b11 rn rd rm
  | .reservedSh00Reg c ix up l rn rd rm => encodeHReg c ix up l 0b00 rn rd rm
  | .strhImm c ix up rn rd off => encodeHImm c ix up false 0b01 rn rd off
  | .ldrhImm c ix up rn rd off => encodeHImm c ix up true 0b01 rn rd off
  | .ldrsbImm c ix up rn rd off => encodeHImm c ix up true 0b10 rn rd off
  | .ldrshImm c ix up rn rd off => encodeHImm c ix up true 0b11 rn rd off
  | .reservedStoreSh10Imm c ix up rn rd off => encodeHImm c ix up false 0b10 rn rd off
  | .reservedStoreSh11Imm c ix up rn rd off => encodeHImm c ix up false 0b11 rn rd off
  | .reservedSh00Imm c ix up l rn rd off => encodeHImm c ix up l 0b00 rn rd off
  | .mrs c spsr rd sbz => c.bits ++ 0b00010#5 ++ bit spsr ++ 0b001111#6 ++ rd ++ sbz
  | .msrReg c spsr fmask sbz rm => c.bits ++ 0b00010#5 ++ bit spsr ++ 0b10#2 ++ fmask ++ 0b1111#4 ++ sbz ++ rm
  | .msrImm c spsr fmask rot imm8 =>
    c.bits ++ 0b00110#5 ++ bit spsr ++ 0b10#2 ++ fmask ++ 0b1111#4 ++ rot ++ imm8
  | .and c s rn rd o => encodeDp c 0b0000 s rn rd o
  | .eor c s rn rd o => encodeDp c 0b0001 s rn rd o
  | .sub c s rn rd o => encodeDp c 0b0010 s rn rd o
  | .rsb c s rn rd o => encodeDp c 0b0011 s rn rd o
  | .add c s rn rd o => encodeDp c 0b0100 s rn rd o
  | .adc c s rn rd o => encodeDp c 0b0101 s rn rd o
  | .sbc c s rn rd o => encodeDp c 0b0110 s rn rd o
  | .rsc c s rn rd o => encodeDp c 0b0111 s rn rd o
  | .tst c rn rd o => encodeDp c 0b1000 true rn rd o
  | .teq c rn rd o => encodeDp c 0b1001 true rn rd o
  | .cmp c rn rd o => encodeDp c 0b1010 true rn rd o
  | .cmn c rn rd o => encodeDp c 0b1011 true rn rd o
  | .orr c s rn rd o => encodeDp c 0b1100 s rn rd o
  | .mov c s rn rd o => encodeDp c 0b1101 s rn rd o
  | .bic c s rn rd o => encodeDp c 0b1110 s rn rd o
  | .mvn c s rn rd o => encodeDp c 0b1111 s rn rd o
  | .reservedDp c op rn rd o => encodeDp c (0b10#2 ++ op) false rn rd o
  | .cdpMcrMrc c ignored => c.bits ++ 0b1110#4 ++ ignored
  | .ldcStc c ignored => c.bits ++ 0b110#3 ++ ignored

/-! ### What every instruction has -/

/-- The condition field of an instruction (30_encoding.md rule R81). -/
def Instr.cond : Instr → Cond
  | .bx c _ => c
  | .ldm c _ _ _ _ _ => c
  | .stm c _ _ _ _ _ => c
  | .b c _ => c
  | .bl c _ => c
  | .swi c _ => c
  | .und c _ _ => c
  | .ldrt c _ _ _ _ => c
  | .ldrbt c _ _ _ _ => c
  | .strt c _ _ _ _ => c
  | .strbt c _ _ _ _ => c
  | .ldr c _ _ _ _ _ => c
  | .ldrb c _ _ _ _ _ => c
  | .str c _ _ _ _ _ => c
  | .strb c _ _ _ _ _ => c
  | .swp c _ _ _ => c
  | .swpb c _ _ _ => c
  | .mul c _ _ _ _ _ _ => c
  | .mla c _ _ _ _ _ _ => c
  | .umull c _ _ _ _ _ => c
  | .umlal c _ _ _ _ _ => c
  | .smull c _ _ _ _ _ => c
  | .smlal c _ _ _ _ _ => c
  | .strhReg c _ _ _ _ _ => c
  | .ldrhReg c _ _ _ _ _ => c
  | .ldrsbReg c _ _ _ _ _ => c
  | .ldrshReg c _ _ _ _ _ => c
  | .reservedStoreSh10Reg c _ _ _ _ _ => c
  | .reservedStoreSh11Reg c _ _ _ _ _ => c
  | .reservedSh00Reg c _ _ _ _ _ _ => c
  | .strhImm c _ _ _ _ _ => c
  | .ldrhImm c _ _ _ _ _ => c
  | .ldrsbImm c _ _ _ _ _ => c
  | .ldrshImm c _ _ _ _ _ => c
  | .reservedStoreSh10Imm c _ _ _ _ _ => c
  | .reservedStoreSh11Imm c _ _ _ _ _ => c
  | .reservedSh00Imm c _ _ _ _ _ _ => c
  | .mrs c _ _ _ => c
  | .msrReg c _ _ _ _ => c
  | .msrImm c _ _ _ _ => c
  | .and c _ _ _ _ => c
  | .eor c _ _ _ _ => c
  | .sub c _ _ _ _ => c
  | .rsb c _ _ _ _ => c
  | .add c _ _ _ _ => c
  | .adc c _ _ _ _ => c
  | .sbc c _ _ _ _ => c
  | .rsc c _ _ _ _ => c
  | .tst c _ _ _ => c
  | .teq c _ _ _ => c
  | .cmp c _ _ _ => c
  | .cmn c _ _ _ => c
  | .orr c _ _ _ _ => c
  | .mov c _ _ _ _ => c
  | .bic c _ _ _ _ => c
  | .mvn c _ _ _ _ => c
  | .reservedDp c _ _ _ _ => c
  | .cdpMcrMrc c _ => c
  | .ldcStc c _ => c

/-! ### The host's view of the decoder -/

/-- The instruction the decoder reads from a table word: `w` numbered as the table numbers it, laid out as four bytes,
the bits above `nbits` zero.  An instruction has 32 bits (30_encoding.md rule R80), so a longer one is none. -/
def decodeTableWord (nbits w : Nat) : Option Instr :=
  if nbits ≤ 32 then
    match decodeBytes (bytesOfWord (BitVec.ofNat 32 (w % 2 ^ nbits))) with
    | .ok (i, _) => some i
    | .error _ => none
  else none

end Sys2Proof
end

