-- ==== Sys2Proof/Config.lean ====
section
/-!
DEFINITION. What is fixed for one machine: the model arguments of 00_scope.md rule R4 as one plain record `Params`
(State carries it, so that every statement holds for every choice of the arguments), and the free values, which are
constants with no body.
-/

namespace Sys2Proof

/-- Access kind of one collaborator call (20_memory.md rule R71): `N` NonSequential, `S` Sequential. -/
inductive AccessKind where
  | nonSequential
  | sequential
deriving DecidableEq, Repr

/-- Treatment of the condition field 0b1111 (41_condition_shifter_alu.md rule R142, `COND_NV_POLICY`). -/
inductive CondNvPolicy where
  | refuse
  | never
deriving DecidableEq, Repr

/-- The C flag after a flag-setting multiply (44_multiply.md rule R221, `MUL_C_POLICY`). -/
inductive MulCPolicy where
  | untouched
  | draw
deriving DecidableEq, Repr

/-- The table `NEXT_FETCH_KIND` of 70_reset_and_hazards.md rule R362: the kind `k` of `Advance(k)` for each instruction
kind that can advance.  The two rows the source fixes (a failed condition: N; a flush: S) are no part of the argument. -/
structure NextFetchTable where
  dataProcessing     : AccessKind
  psrToRegister      : AccessKind
  registerToPsr      : AccessKind
  multiply           : AccessKind
  multiplyLong       : AccessKind
  singleDataTransfer : AccessKind
  halfwordTransfer   : AccessKind
  blockDataTransfer  : AccessKind
  singleDataSwap     : AccessKind
deriving DecidableEq, Repr

/-- The model arguments of 00_scope.md rule R4 that a rule reads. -/
structure Params where
  /-- `PC_STORE_OFFSET` (45_single_data_transfer.md rule R235). -/
  pcStoreOffset       : Word
  /-- `STRICT_UNPREDICTABLE` (00_scope.md rule R8). -/
  strictUnpredictable : Bool
  /-- `COND_NV_POLICY`. -/
  condNvPolicy        : CondNvPolicy
  /-- `MUL_C_POLICY`. -/
  mulCPolicy          : MulCPolicy
  /-- `NEXT_FETCH_KIND`. -/
  nextFetchKind       : NextFetchTable
deriving DecidableEq, Repr

/-- The default table of 70_reset_and_hazards.md rule R362. -/
def NextFetchTable.spec : NextFetchTable where
  dataProcessing     := .sequential
  psrToRegister      := .sequential
  registerToPsr      := .sequential
  multiply           := .sequential
  multiplyLong       := .sequential
  singleDataTransfer := .nonSequential
  halfwordTransfer   := .nonSequential
  blockDataTransfer  := .nonSequential
  singleDataSwap     := .nonSequential

/-- Every argument at the default of 00_scope.md rule R4. -/
def Params.specDefault : Params where
  pcStoreOffset       := 12
  strictUnpredictable := true
  condNvPolicy        := .refuse
  mulCPolicy          := .untouched
  nextFetchKind       := .spec

/-- The arguments `State.reset` carries: those of rule R4, but where an argument chooses between a refusal and an
effect the effect is taken (DESIGN CHOICE, log entry 1). -/
def Params.executing : Params :=
  { Params.specDefault with strictUnpredictable := false, condNvPolicy := .never }

/-- `CPU_CLOCK_HZ`: named by the source without a value and read by no rule (70_reset_and_hazards.md rule R364); DESIGN
CHOICE, log entry 17. -/
opaque Config.cpuClockHz : Nat

/-- The free values: the `n`-th value the spec leaves open in a run (93_implementation_defined.md section 3, entries
V2, V3, V4; DESIGN CHOICE, log entry 4).  It has no body: nothing can be proved of what it is. -/
opaque Config.freeWord : Nat → Word

end Sys2Proof
end

