-- ==== Sys2Proof/Machine/Memory.lean ====
section
/-!
DEFINITION. The plain memory behind the memory collaborator (20_memory.md rule R54; DESIGN CHOICE, log entry 11): a list of (address, byte) cells in
one canonical form over the whole 32-bit address space, and the byte, halfword and word reads and writes in little-endian
order (rule R55).
-/

namespace Sys2Proof.Machine

/-- Memory as plain data: the cells that differ from an unlisted one, addresses rising. -/
abbrev Memory := List Host.Cell

/-- What an address that no cell lists reads as: memory never written belongs to the collaborator, and the spec gives it
no contents (93_implementation_defined.md entry V7); DESIGN CHOICE, log entry 3. -/
def unlistedByte : Byte := 0

/-- The byte at an address. -/
def Memory.get : Memory → Nat → Byte
  | [], _ => unlistedByte
  | (k, x) :: rest, a => if k = a then x else Memory.get rest a

/-- A cell put at its place in a list whose addresses rise. -/
def Memory.insertCell : Memory → Nat → Byte → Memory
  | [], a, v => [(a, v)]
  | (k, x) :: rest, a, v => if a < k then (a, v) :: (k, x) :: rest else (k, x) :: Memory.insertCell rest a v

/-- The memory without an address's cell. -/
def Memory.erase : Memory → Nat → Memory
  | [], _ => []
  | (k, x) :: rest, a => if k = a then Memory.erase rest a else (k, x) :: Memory.erase rest a

/-- The memory after one byte is written: an address that reads as an unlisted one is not listed. -/
def Memory.put (m : Memory) (a : Nat) (v : Byte) : Memory :=
  if v = unlistedByte then Memory.erase m a else Memory.insertCell (Memory.erase m a) a v

/-- The canonical form: addresses strictly rising from `lo` on and below 2^32, no cell equal to an unlisted one. -/
def Memory.wfFrom : Nat → Memory → Bool
  | _, [] => true
  | lo, (k, x) :: rest => decide (lo ≤ k) && decide (k < 2 ^ 32) && x != unlistedByte && Memory.wfFrom (k + 1) rest

/-- The memory is in canonical form. -/
def Memory.wf (m : Memory) : Bool := Memory.wfFrom 0 m

/-! ### Reads and writes of the collaborator (20_memory.md rule R54); `a + i` is modulo 2^32 -/

/-- `load_8`. -/
def Memory.read8 (m : Memory) (a : Word) : Byte := m.get a.toNat

/-- `load_16`. -/
def Memory.read16 (m : Memory) (a : Word) : BitVec 16 := m.read8 (a + 1) ++ m.read8 a

/-- `load_32`. -/
def Memory.read32 (m : Memory) (a : Word) : Word :=
  m.read8 (a + 3) ++ m.read8 (a + 2) ++ m.read8 (a + 1) ++ m.read8 a

/-- `store_8`. -/
def Memory.write8 (m : Memory) (a : Word) (v : Byte) : Memory := m.put a.toNat v

/-- `store_16`. -/
def Memory.write16 (m : Memory) (a : Word) (v : BitVec 16) : Memory :=
  (m.write8 a (v.extractLsb' 0 8)).write8 (a + 1) (v.extractLsb' 8 8)

/-- `store_32`. -/
def Memory.write32 (m : Memory) (a : Word) (v : Word) : Memory :=
  (((m.write8 a (v.extractLsb' 0 8)).write8 (a + 1) (v.extractLsb' 8 8)).write8 (a + 2) (v.extractLsb' 16 8)).write8
    (a + 3) (v.extractLsb' 24 8)

end Sys2Proof.Machine
end

