-- ==== Sys2Proof/Machine/State.lean ====
section
/-!
DEFINITION. The state of the machine as plain data (10_state.md), the reasons a step can stop, and the state after
reset.  Reads and writes go through the named operations of Machine/Ops.lean.
-/

namespace Sys2Proof.Machine

/-- The seven processor modes (10_state.md rule R24). -/
inductive Mode where
  | user | fiq | irq | supervisor | abort | undefined | system
deriving DecidableEq, Repr

/-- The five exception modes, each with its own R13, R14 and SPSR (60_exceptions.md rule R330). -/
inductive ExcMode where
  | fiq | irq | svc | abt | und
deriving DecidableEq, Repr

/-- The 31 physical general registers (10_state.md rule R10). -/
inductive PhysReg where
  | r0 | r1 | r2 | r3 | r4 | r5 | r6 | r7
  | r8Usr | r9Usr | r10Usr | r11Usr | r12Usr
  | r8Fiq | r9Fiq | r10Fiq | r11Fiq | r12Fiq
  | r13Usr | r14Usr | r13Fiq | r14Fiq | r13Irq | r14Irq | r13Svc | r14Svc | r13Abt | r14Abt | r13Und | r14Und
  | r15
deriving DecidableEq, Repr

/-- The storage of the 31 registers, one field each. -/
structure RegFile where
  r0     : Word
  r1     : Word
  r2     : Word
  r3     : Word
  r4     : Word
  r5     : Word
  r6     : Word
  r7     : Word
  r8Usr  : Word
  r9Usr  : Word
  r10Usr : Word
  r11Usr : Word
  r12Usr : Word
  r8Fiq  : Word
  r9Fiq  : Word
  r10Fiq : Word
  r11Fiq : Word
  r12Fiq : Word
  r13Usr : Word
  r14Usr : Word
  r13Fiq : Word
  r14Fiq : Word
  r13Irq : Word
  r14Irq : Word
  r13Svc : Word
  r14Svc : Word
  r13Abt : Word
  r14Abt : Word
  r13Und : Word
  r14Und : Word
  /-- The address of the next opcode fetch (10_state.md rule R17). -/
  r15    : Word
deriving DecidableEq, Repr

/-- A status register, field by field (10_state.md rule R20); bits 27:8 hold no state (rule R25) and have no field
(DEDUCED, log entry 14).  `m` is five bits and not a mode: an SPSR, and a CPSR the host constructs, can hold a pattern
that is no mode (rule R28, 40_step_and_pipeline.md rule R121). -/
structure Psr where
  n : Bool
  z : Bool
  c : Bool
  v : Bool
  i : Bool
  f : Bool
  t : Bool
  m : BitVec 5
deriving DecidableEq, Repr

/-- The five saved status registers (10_state.md rule R27). -/
structure SpsrFile where
  fiq : Psr
  irq : Psr
  svc : Psr
  abt : Psr
  und : Psr
deriving DecidableEq, Repr

/-- Width of one collaborator call (20_memory.md rule R51). -/
inductive Width where
  | byte | half | word
deriving DecidableEq, Repr

/-- One call of the collaborator, with the value it returned or was given, zero-extended (20_memory.md rules R52, R53). -/
inductive BusCall where
  | load  (n : Width) (addr : Word) (k : AccessKind) (value : Word)
  | store (n : Width) (addr : Word) (k : AccessKind) (value : Word)
deriving DecidableEq, Repr

/-- What the host gives one step: the reset input (60_exceptions.md rule R315) and the two interrupt request inputs
(rule R321). -/
structure StepInput where
  reset : Bool
  fiq   : Bool
  irq   : Bool
deriving DecidableEq, Repr

/-- The class U entries of 93_implementation_defined.md section 2. -/
inductive ClassU where
  | u1 | u2 | u3 | u4 | u5 | u6 | u7 | u8 | u9 | u10 | u11 | u12 | u13 | u14 | u15
deriving DecidableEq, Repr

/-- The state of the core (10_state.md) and of its collaborator's plain memory (20_memory.md rule R54), and the model's
own bookkeeping. -/
structure State where
  /-- The 31 general registers, R15 among them. -/
  regs          : RegFile
  /-- CPSR. -/
  cpsr          : Psr
  /-- The five SPSRs. -/
  spsr          : SpsrFile
  /-- `pipe[0]`: the word the next step executes (rule R30). -/
  pipe0         : Word
  /-- `pipe[1]`. -/
  pipe1         : Word
  /-- `next_fetch_kind` (rule R30). -/
  nextFetchKind : AccessKind
  /-- The collaborator's memory. -/
  mem           : Memory
  /-- The model's own: the arguments of the coming calls of `step`, the next one first; no entry is both lines false
  (DESIGN CHOICE, log entry 5). -/
  inputs        : List StepInput
  /-- The model's own: the collaborator calls of the step under way or just done, oldest first (20_memory.md rule R67;
  DESIGN CHOICE, log entry 6). -/
  calls         : List BusCall
  /-- The model's own: the model arguments of 00_scope.md rule R4, which no step changes (DESIGN CHOICE, log
  entry 1). -/
  params        : Params
  /-- The model's own: how many free values have been drawn (DESIGN CHOICE, log entry 4). -/
  freeCount     : Nat
deriving DecidableEq, Repr

/-- Faults.  The core has none: no memory access can fail (20_memory.md rule R51), exceptions are transitions, and a step
has no third outcome (00_scope.md rule R7); DEDUCED, log entry 7. -/
inductive Fault where
deriving DecidableEq, Repr

/-- Why a step has no successor (00_scope.md rule R7).  Each is safe: no claim can be proved of a run that reaches one. -/
inductive Refusal where
  /-- Raised by `exec` for an instruction that has no meaning yet.  Safe. -/
  | notModelled (mnemonic : String)
  /-- Raised by a step begun with T = 1 (40_step_and_pipeline.md rule R121, X2).  Safe. -/
  | thumbNotSpecified
  /-- Raised by the condition gate for cond = 0b1111 under the policy `refuse` (41_condition_shifter_alu.md rule R142,
  X1).  Safe. -/
  | reservedCondition
  /-- Raised by LDM and STM with S = 1 (47_block_data_transfer.md rule R270, X3).  Safe. -/
  | unsupportedForceUser
  /-- Raised by data processing with a register-specified shift and R15 as an operand (42_data_processing.md rule R181,
  X4).  Safe. -/
  | pcInRegisterShift
  /-- Raised by the reserved halfword forms (46_halfword_transfer.md rule R253, X5).  Safe. -/
  | reservedHalfwordForm
  /-- Raised by LDRH, LDRSH and STRH at an odd address (46_halfword_transfer.md rule R258, X6).  Safe. -/
  | misalignedHalfword
  /-- Raised by an access to the SPSR of User or System mode, the restore of data processing among them
  (42_data_processing.md rule R183, X7; 49_psr_transfer.md rule R295, X9).  Safe. -/
  | noSavedStatusRegister
  /-- Raised by a step begun in an invalid mode (40_step_and_pipeline.md rule R121, X12) and by a CPSR write that would
  leave one (49_psr_transfer.md rule R299, 42_data_processing.md rule R183, X10).  Safe. -/
  | invalidMode
  /-- Raised by MSR to CPSR with the control byte selected in User mode (49_psr_transfer.md rule R301, X8).  Safe. -/
  | userModePrivilegedWrite
  /-- Raised by MSR that would change T (49_psr_transfer.md rule R300, X11).  Safe. -/
  | stateBitChangeByMsr
  /-- Raised by a class U form when `STRICT_UNPREDICTABLE` is true (00_scope.md rule R8).  Safe. -/
  | unpredictable (u : ClassU)
deriving DecidableEq, Repr

/-- The outcome of an instruction. -/
abbrev Result := Host.Outcome State Fault Refusal

/-- All registers at one value. -/
def RegFile.const (w : Word) : RegFile :=
  ⟨w, w, w, w, w, w, w, w, w, w, w, w, w, w, w, w, w, w, w, w, w, w, w, w, w, w, w, w, w, w, w⟩

/-- CPSR after reset: Supervisor, I = F = 1, T = 0 (10_state.md rule R40); the flags, which the rule leaves unspecified,
are 0 (DESIGN CHOICE, log entry 2). -/
def Psr.reset : Psr := ⟨false, false, false, false, true, true, false, 0b10011⟩

/-- A status register whose bits are all 0: the SPSRs at reset, which rule R40 leaves unspecified (DESIGN CHOICE, log
entry 2). -/
def Psr.zero : Psr := ⟨false, false, false, false, false, false, false, 0⟩

/-- The machine right after reset (10_state.md rule R40, 70_reset_and_hazards.md rule R350): Supervisor mode, ARM state,
both interrupt classes masked, R15 = 8 after the refill from the reset vector 0, the slots holding the words read there,
memory with nothing listed (the bytes it reads there: log entry 3).  The registers rule R40 leaves unspecified are 0 (DESIGN CHOICE, log entry 2);
the list of calls holds the two refill reads (log entry 6). -/
def State.reset : State where
  regs          := { RegFile.const 0 with r15 := 8 }
  cpsr          := Psr.reset
  spsr          := ⟨.zero, .zero, .zero, .zero, .zero⟩
  pipe0         := Memory.read32 [] 0
  pipe1         := Memory.read32 [] 4
  nextFetchKind := .sequential
  mem           := []
  inputs        := []
  calls         := [.load .word 0 .nonSequential (Memory.read32 [] 0), .load .word 4 .sequential (Memory.read32 [] 4)]
  params        := .executing
  freeCount     := 0

end Sys2Proof.Machine
end

