-- ==== Sys2Proof/Machine/Flags.lean ====
section
/-!
DEFINITION. The status register's layout, the condition evaluator and the ALU with its flags: pure functions
(10_state.md section 3; 41_condition_shifter_alu.md sections 1 and 3).
-/

namespace Sys2Proof.Machine

/-! ### Layout of a status register (10_state.md rules R20, R25) -/

/-- `PSR_MASK` (10_state.md rule R25). -/
def psrMask : Word := 0xF00000FF

/-- `value()`: the register as a word, reserved bits 0. -/
def Psr.toWord (p : Psr) : Word :=
  BitVec.ofBool p.n ++ BitVec.ofBool p.z ++ BitVec.ofBool p.c ++ BitVec.ofBool p.v ++ 0#20
    ++ BitVec.ofBool p.i ++ BitVec.ofBool p.f ++ BitVec.ofBool p.t ++ p.m

/-- `set(v)`: the register a word is stored as, reserved bits discarded. -/
def Psr.ofWord (w : Word) : Psr where
  n := w.getLsbD 31
  z := w.getLsbD 30
  c := w.getLsbD 29
  v := w.getLsbD 28
  i := w.getLsbD 7
  f := w.getLsbD 6
  t := w.getLsbD 5
  m := w.extractLsb' 0 5

/-- `flags()`: the nibble N ++ Z ++ C ++ V. -/
def Psr.flags (p : Psr) : BitVec 4 :=
  BitVec.ofBool p.n ++ BitVec.ofBool p.z ++ BitVec.ofBool p.c ++ BitVec.ofBool p.v

/-- `set_flags(f)`: the four flags from bits 3:0 of a word, the rest kept (10_state.md rule R25). -/
def Psr.setFlags (p : Psr) (f : Word) : Psr :=
  { p with n := f.getLsbD 3, z := f.getLsbD 2, c := f.getLsbD 1, v := f.getLsbD 0 }

/-! ### Modes (10_state.md rule R24) -/

/-- The bit pattern of a mode. -/
def Mode.bits : Mode → BitVec 5
  | .user => 0b10000
  | .fiq => 0b10001
  | .irq => 0b10010
  | .supervisor => 0b10011
  | .abort => 0b10111
  | .undefined => 0b11011
  | .system => 0b11111

/-- The seven modes. -/
def Mode.all : List Mode := [.user, .fiq, .irq, .supervisor, .abort, .undefined, .system]

/-- `mode()`: the mode of a pattern; none for the 25 invalid ones. -/
def Mode.ofBits (b : BitVec 5) : Option Mode := Mode.all.find? fun md => md.bits == b

/-- The bank of R13, R14 and SPSR of a mode; none is the User bank, which has no SPSR (10_state.md rule R12). -/
def Mode.excMode : Mode → Option ExcMode
  | .user => none
  | .fiq => some .fiq
  | .irq => some .irq
  | .supervisor => some .svc
  | .abort => some .abt
  | .undefined => some .und
  | .system => none

/-- The mode whose bank it is. -/
def ExcMode.mode : ExcMode → Mode
  | .fiq => .fiq
  | .irq => .irq
  | .svc => .supervisor
  | .abt => .abort
  | .und => .undefined

/-! ### Condition evaluator (41_condition_shifter_alu.md rule R140) -/

/-- `CondPassed(cond, NZCV)`.  The pattern 0b1111 is not evaluated (rule R142): the gate decides what becomes of it, and
here it never passes. -/
def condPassed (c : Cond) (p : Psr) : Bool :=
  match c with
  | .eq => p.z
  | .ne => !p.z
  | .cs => p.c
  | .cc => !p.c
  | .mi => p.n
  | .pl => !p.n
  | .vs => p.v
  | .vc => !p.v
  | .hi => p.c && !p.z
  | .ls => !p.c || p.z
  | .ge => p.n == p.v
  | .lt => p.n != p.v
  | .gt => !p.z && p.n == p.v
  | .le => p.z || p.n != p.v
  | .al => true
  | .nv => false

/-! ### ALU (41_condition_shifter_alu.md rules R160 to R164) -/

/-- The sixteen operations, by their opcode (30_encoding.md rule R99). -/
inductive AluOp where
  | and | eor | sub | rsb | add | adc | sbc | rsc | tst | teq | cmp | cmn | orr | mov | bic | mvn
deriving DecidableEq, Repr

/-- TST, TEQ, CMP, CMN: the flag-only comparison forms. -/
def AluOp.isCompare : AluOp → Bool
  | .tst => true | .teq => true | .cmp => true | .cmn => true
  | .and => false | .eor => false | .sub => false | .rsb => false | .add => false | .adc => false
  | .sbc => false | .rsc => false | .orr => false | .mov => false | .bic => false | .mvn => false

/-- MOV and MVN do not read Rn. -/
def AluOp.readsRn : AluOp → Bool
  | .mov => false | .mvn => false
  | .and => true | .eor => true | .sub => true | .rsb => true | .add => true | .adc => true | .sbc => true
  | .rsc => true | .tst => true | .teq => true | .cmp => true | .cmn => true | .orr => true | .bic => true

/-- A result and the flags it would set. -/
structure AluOut where
  value : Word
  n : Bool
  z : Bool
  c : Bool
  v : Bool
deriving DecidableEq, Repr

/-- `AddWithCarry(a, b, cin)` (41_condition_shifter_alu.md rule R161): the sum as a natural number, narrowed; the carry
out of bit 31; signed overflow as the difference between the exact and the narrowed sum. -/
def addWithCarry (a b : Word) (cin : Bool) : AluOut :=
  let usum := a.toNat + b.toNat + cin.toNat
  let r := BitVec.ofNat 32 usum
  { value := r
    n := r.getLsbD 31
    z := r == 0
    c := decide (2 ^ 32 ≤ usum)
    v := decide (a.toInt + b.toInt + (cin.toNat : Int) ≠ r.toInt) }

/-- A logical operation's flags (rule R160): C is the shifter's carry-out `sc`, V the old V. -/
def logicalOut (r : Word) (sc vOld : Bool) : AluOut :=
  { value := r, n := r.getLsbD 31, z := r == 0, c := sc, v := vOld }

/-- The operation table of rule R164: `a` the first operand, `b` operand2, `sc` the shifter carry-out, `cin` and `vOld`
the flags C and V at the start of the instruction. -/
def alu (op : AluOp) (a b : Word) (sc cin vOld : Bool) : AluOut :=
  match op with
  | .and => logicalOut (a &&& b) sc vOld
  | .eor => logicalOut (a ^^^ b) sc vOld
  | .sub => addWithCarry a (~~~b) true
  | .rsb => addWithCarry b (~~~a) true
  | .add => addWithCarry a b false
  | .adc => addWithCarry a b cin
  | .sbc => addWithCarry a (~~~b) cin
  | .rsc => addWithCarry b (~~~a) cin
  | .tst => logicalOut (a &&& b) sc vOld
  | .teq => logicalOut (a ^^^ b) sc vOld
  | .cmp => addWithCarry a (~~~b) true
  | .cmn => addWithCarry a b false
  | .orr => logicalOut (a ||| b) sc vOld
  | .mov => logicalOut b sc vOld
  | .bic => logicalOut (a &&& ~~~b) sc vOld
  | .mvn => logicalOut (~~~b) sc vOld

/-- The flag write of rule R182: N, Z, C, V from the result. -/
def Psr.withAlu (p : Psr) (r : AluOut) : Psr := { p with n := r.n, z := r.z, c := r.c, v := r.v }

/-- The flag write of a multiply (44_multiply.md rule R221): N the top bit, Z whether the whole result is 0, C and V
kept. -/
def Psr.withMul (p : Psr) (top isZero : Bool) : Psr := { p with n := top, z := isZero }

end Sys2Proof.Machine
end

