-- ==== Sys2Proof/Machine/Ops.lean ====
section
/-!
DEFINITION. The named operations every meaning is built from: registers through the current mode, status registers,
collaborator calls, the advance and the flush, the condition gate, the class U test, taking an exception and returning
from one, reset, interrupt sampling and the fetch.
-/

namespace Sys2Proof.Machine

/-! ### Registers (10_state.md rules R10 to R17) -/

/-- The value of a physical register. -/
def RegFile.get (f : RegFile) : PhysReg → Word
  | .r0 => f.r0 | .r1 => f.r1 | .r2 => f.r2 | .r3 => f.r3 | .r4 => f.r4 | .r5 => f.r5 | .r6 => f.r6 | .r7 => f.r7
  | .r8Usr => f.r8Usr | .r9Usr => f.r9Usr | .r10Usr => f.r10Usr | .r11Usr => f.r11Usr | .r12Usr => f.r12Usr
  | .r8Fiq => f.r8Fiq | .r9Fiq => f.r9Fiq | .r10Fiq => f.r10Fiq | .r11Fiq => f.r11Fiq | .r12Fiq => f.r12Fiq
  | .r13Usr => f.r13Usr | .r14Usr => f.r14Usr | .r13Fiq => f.r13Fiq | .r14Fiq => f.r14Fiq
  | .r13Irq => f.r13Irq | .r14Irq => f.r14Irq | .r13Svc => f.r13Svc | .r14Svc => f.r14Svc
  | .r13Abt => f.r13Abt | .r14Abt => f.r14Abt | .r13Und => f.r13Und | .r14Und => f.r14Und
  | .r15 => f.r15

/-- The registers after a physical register is written. -/
def RegFile.set (f : RegFile) (p : PhysReg) (v : Word) : RegFile :=
  match p with
  | .r0 => { f with r0 := v } | .r1 => { f with r1 := v } | .r2 => { f with r2 := v } | .r3 => { f with r3 := v }
  | .r4 => { f with r4 := v } | .r5 => { f with r5 := v } | .r6 => { f with r6 := v } | .r7 => { f with r7 := v }
  | .r8Usr => { f with r8Usr := v } | .r9Usr => { f with r9Usr := v } | .r10Usr => { f with r10Usr := v }
  | .r11Usr => { f with r11Usr := v } | .r12Usr => { f with r12Usr := v }
  | .r8Fiq => { f with r8Fiq := v } | .r9Fiq => { f with r9Fiq := v } | .r10Fiq => { f with r10Fiq := v }
  | .r11Fiq => { f with r11Fiq := v } | .r12Fiq => { f with r12Fiq := v }
  | .r13Usr => { f with r13Usr := v } | .r14Usr => { f with r14Usr := v }
  | .r13Fiq => { f with r13Fiq := v } | .r14Fiq => { f with r14Fiq := v }
  | .r13Irq => { f with r13Irq := v } | .r14Irq => { f with r14Irq := v }
  | .r13Svc => { f with r13Svc := v } | .r14Svc => { f with r14Svc := v }
  | .r13Abt => { f with r13Abt := v } | .r14Abt => { f with r14Abt := v }
  | .r13Und => { f with r13Und := v } | .r14Und => { f with r14Und := v }
  | .r15 => { f with r15 := v }

/-- R13 of a bank; none is the User bank (10_state.md rule R12). -/
def spReg : Option ExcMode → PhysReg
  | none => .r13Usr
  | some .fiq => .r13Fiq | some .irq => .r13Irq | some .svc => .r13Svc | some .abt => .r13Abt | some .und => .r13Und

/-- R14 of a bank. -/
def lrReg : Option ExcMode → PhysReg
  | none => .r14Usr
  | some .fiq => .r14Fiq | some .irq => .r14Irq | some .svc => .r14Svc | some .abt => .r14Abt | some .und => .r14Und

/-- `phys(i, mode)` (10_state.md rule R13). -/
def phys (i : Reg) (md : Mode) : PhysReg :=
  match i.toNat with
  | 0 => .r0 | 1 => .r1 | 2 => .r2 | 3 => .r3 | 4 => .r4 | 5 => .r5 | 6 => .r6 | 7 => .r7
  | 8 => if md = .fiq then .r8Fiq else .r8Usr
  | 9 => if md = .fiq then .r9Fiq else .r9Usr
  | 10 => if md = .fiq then .r10Fiq else .r10Usr
  | 11 => if md = .fiq then .r11Fiq else .r11Usr
  | 12 => if md = .fiq then .r12Fiq else .r12Usr
  | 13 => spReg md.excMode
  | 14 => lrReg md.excMode
  | _ => .r15

/-- `x[i]` in mode `md` (00_scope.md rule R6). -/
def readReg (md : Mode) (i : Reg) (s : State) : Word := s.regs.get (phys i md)

/-- `x[i] <- v` in mode `md`. -/
def writeReg (md : Mode) (i : Reg) (v : Word) (s : State) : State := { s with regs := s.regs.set (phys i md) v }

/-- R15: during an instruction its address + 8 (10_state.md rule R17). -/
def State.pc (s : State) : Word := s.regs.r15

/-- R15 given a value, with no flush: the advance, the flush and the host use it. -/
def State.withPc (s : State) (v : Word) : State := { s with regs := s.regs.set .r15 v }

/-- What R15 stores to memory as: the instruction's address + `PC_STORE_OFFSET` (10_state.md rule R17). -/
def pcStoreValue (s : State) : Word := s.pc - 8 + s.params.pcStoreOffset

/-- The source value of a store (45_single_data_transfer.md rule R235, 47_block_data_transfer.md rule R272).  R15 is stored
as the instruction's address + `PC_STORE_OFFSET` also where R15 is the written-back base, for which the spec's corner
cases say the old base (DESIGN CHOICE, log entry 20). -/
def storeSource (md : Mode) (rd : Reg) (s : State) : Word := if rd = 15 then pcStoreValue s else readReg md rd s

/-! ### Saved status registers (10_state.md rule R27) -/

/-- The SPSR of an exception mode. -/
def SpsrFile.get (f : SpsrFile) : ExcMode → Psr
  | .fiq => f.fiq | .irq => f.irq | .svc => f.svc | .abt => f.abt | .und => f.und

/-- The SPSRs after one is written. -/
def SpsrFile.set (f : SpsrFile) (e : ExcMode) (p : Psr) : SpsrFile :=
  match e with
  | .fiq => { f with fiq := p } | .irq => { f with irq := p } | .svc => { f with svc := p }
  | .abt => { f with abt := p } | .und => { f with und := p }

/-- CPSR written whole. -/
def State.withCpsr (s : State) (p : Psr) : State := { s with cpsr := p }

/-- The SPSR of an exception mode written. -/
def State.withSpsr (s : State) (e : ExcMode) (p : Psr) : State := { s with spsr := s.spsr.set e p }

/-! ### Collaborator calls (20_memory.md rules R51 to R54) -/

/-- One call recorded. -/
def State.record (s : State) (c : BusCall) : State := { s with calls := s.calls ++ [c] }

/-- `MemRead(a, 4, k)`. -/
def load32 (a : Word) (k : AccessKind) (s : State) : Word × State :=
  let v := s.mem.read32 a
  (v, s.record (.load .word a k v))

/-- `MemRead(a, 2, k)`. -/
def load16 (a : Word) (k : AccessKind) (s : State) : BitVec 16 × State :=
  let v := s.mem.read16 a
  (v, s.record (.load .half a k (v.setWidth 32)))

/-- `MemRead(a, 1, k)`. -/
def load8 (a : Word) (k : AccessKind) (s : State) : Byte × State :=
  let v := s.mem.read8 a
  (v, s.record (.load .byte a k (v.setWidth 32)))

/-- `MemWrite(a, 4, v, k)`. -/
def store32 (a v : Word) (k : AccessKind) (s : State) : State :=
  { s with mem := s.mem.write32 a v, calls := s.calls ++ [.store .word a k v] }

/-- `MemWrite(a, 2, v, k)`. -/
def store16 (a : Word) (v : BitVec 16) (k : AccessKind) (s : State) : State :=
  { s with mem := s.mem.write16 a v, calls := s.calls ++ [.store .half a k (v.setWidth 32)] }

/-- `MemWrite(a, 1, v, k)`. -/
def store8 (a : Word) (v : Byte) (k : AccessKind) (s : State) : State :=
  { s with mem := s.mem.write8 a v, calls := s.calls ++ [.store .byte a k (v.setWidth 32)] }

/-- A word address: bits 1:0 cleared (20_memory.md rule R56). -/
def wordAddr (a : Word) : Word := a &&& 0xFFFFFFFC

/-- `8 * addr[1:0]`, the rotation of a misaligned word load (20_memory.md rule R57). -/
def misalignRotation (a : Word) : Nat := 8 * (a.extractLsb' 0 2).toNat

/-- The word load of LDR and SWP (20_memory.md rule R57): the aligned word, rotated so that the byte at `a` is lowest. -/
def loadRotated (a : Word) (k : AccessKind) (s : State) : Word × State :=
  let (m, s) := load32 (wordAddr a) k s
  (m.rotateRight (misalignRotation a), s)

/-! ### Free values (log entry 4) -/

/-- The next free value; the counter advances. -/
def drawFree (s : State) : Word × State := (Config.freeWord s.freeCount, { s with freeCount := s.freeCount + 1 })

/-! ### Advance and flush (40_step_and_pipeline.md rules R125, R126) -/

/-- `Advance(k)`. -/
def advance (k : AccessKind) (s : State) : State := { s.withPc (s.pc + 4) with nextFetchKind := k }

/-- The refill of an ARM-state flush: two fetches, at `a` (N) and `a + 4` (S). -/
def refill (a : Word) (s : State) : State :=
  let (w0, s) := load32 a .nonSequential s
  let (w1, s) := load32 (a + 4) .sequential s
  { s.withPc (a + 8) with pipe0 := w0, pipe1 := w1, nextFetchKind := .sequential }

/-- A flush that enters Thumb state: no fetch, the slots unspecified. -/
def thumbFlush (t : Word) (s : State) : State :=
  let (w0, s) := drawFree s
  let (w1, s) := drawFree s
  { s.withPc (t &&& 0xFFFFFFFE) with pipe0 := w0, pipe1 := w1, nextFetchKind := .nonSequential }

/-- `Flush(t)`. -/
def flush (t : Word) (s : State) : State := if s.cpsr.t then thumbFlush t s else refill (wordAddr t) s

/-- A register write where R15 may be named: `pc <- v` for R15, else `x[i] <- v`.  The flush is made at once,
also where a later write of the same instruction flushes again (DEDUCED, log entry 12). -/
def setReg (md : Mode) (i : Reg) (v : Word) (s : State) : State :=
  if i = 15 then flush v s else writeReg md i v s

/-- The outcome of an instruction: nothing more after a flush, else `Advance(k)` (40_step_and_pipeline.md rule R120). -/
def finish (flushed : Bool) (k : AccessKind) (s : State) : Result := .next (if flushed then s else advance k s)

/-! ### The condition gate and the class U test -/

/-- The gate every instruction passes (40_step_and_pipeline.md rules R120 step 5, R121, R124; 41_condition_shifter_alu.md
rule R142): an invalid mode is refused, cond = 0b1111 is refused under the policy `refuse`, a failed condition (0b1111
under the policy `never` among them) only advances, with kind N.  T is checked by `step` alone (DESIGN CHOICE, log entry
10). -/
def gate (c : Cond) (s : State) (body : Mode → Result) : Result :=
  match Mode.ofBits s.cpsr.m with
  | none => .refused .invalidMode
  | some md =>
    if c = .nv ∧ s.params.condNvPolicy = .refuse then .refused .reservedCondition
    else if condPassed c s.cpsr then body md
    else .next (advance .nonSequential s)

/-- A class U form (00_scope.md rule R8): refused when `STRICT_UNPREDICTABLE`, else the uniform rule `k`.  Where
several apply, the outermost is the refusal reported (DESIGN CHOICE, log entry 9). -/
def unlessStrict (u : ClassU) (isForm : Bool) (s : State) (k : Result) : Result :=
  if s.params.strictUnpredictable && isForm then .refused (.unpredictable u) else k

/-! ### Exceptions (60_exceptions.md) -/

/-- The seven architected exceptions (60_exceptions.md rule R310); the two aborts are never raised (rule R325). -/
inductive Exc where
  | reset | undefined | swi | prefetchAbort | dataAbort | irq | fiq
deriving DecidableEq, Repr

/-- The vector address of an exception. -/
def Exc.vector : Exc → Word
  | .reset => 0x00 | .undefined => 0x04 | .swi => 0x08 | .prefetchAbort => 0x0C | .dataAbort => 0x10
  | .irq => 0x18 | .fiq => 0x1C

/-- The mode an exception enters. -/
def Exc.mode : Exc → ExcMode
  | .reset => .svc | .undefined => .und | .swi => .svc | .prefetchAbort => .abt | .dataAbort => .abt
  | .irq => .irq | .fiq => .fiq

/-- Whether entry sets F: Reset and FIQ only. -/
def Exc.setsF : Exc → Bool
  | .reset => true | .undefined => false | .swi => false | .prefetchAbort => false | .dataAbort => false
  | .irq => false | .fiq => true

/-- CPSR after entry: the mode entered, T cleared, I set, F set where the exception sets it, the rest kept. -/
def Psr.entered (p : Psr) (x : Exc) : Psr := { p with m := x.mode.mode.bits, t := false, i := true, f := p.f || x.setsF }

/-- `ExceptionEntry` (60_exceptions.md rule R316), with the link value `lr`: the old CPSR into the SPSR of the mode
entered, the new CPSR, the link value into its R14, and the flush to the vector. -/
def takeException (x : Exc) (lr : Word) (s : State) : State :=
  let s1 := (s.withSpsr x.mode s.cpsr).withCpsr (s.cpsr.entered x)
  let s2 := { s1 with regs := s1.regs.set (lrReg (some x.mode)) lr }
  flush x.vector s2

/-- The return of 60_exceptions.md rule R319 and 42_data_processing.md rule R183: the SPSR of the current mode restored
into CPSR and `target` written to the program counter, in one step. -/
def returnFromException (md : Mode) (target : Word) (s : State) : Result :=
  match md.excMode with
  | none => .refused .noSavedStatusRegister
  | some e =>
    let new := s.spsr.get e
    match Mode.ofBits new.m with
    | none => .refused .invalidMode
    | some _ => .next (flush target (s.withCpsr new))

/-- The reset operation (70_reset_and_hazards.md rule R350): R14_svc, SPSR_svc and the flags take free values, every other
register keeps what it held, and the flush to vector 0 refills the pipeline. -/
def resetCore (s : State) : State :=
  let (lr, s) := drawFree s
  let (saved, s) := drawFree s
  let (flags, s) := drawFree s
  let s := { s with regs := s.regs.set .r14Svc lr }
  let s := s.withSpsr .svc (Psr.ofWord saved)
  let s := s.withCpsr { Psr.ofWord flags with i := true, f := true, t := false, m := Mode.supervisor.bits }
  flush Exc.reset.vector s

/-- Interrupt sampling (60_exceptions.md rules R315, R322): the exception to take, FIQ before IRQ, each by its mask. -/
def sampleInterrupts (i : StepInput) (p : Psr) : Option Exc :=
  if i.fiq && !p.f then some .fiq else if i.irq && !p.i then some .irq else none

/-! ### The frame of a step (40_step_and_pipeline.md rules R120, R122) -/

/-- The inputs of the next step; no entry is both lines false (60_exceptions.md rule R322). -/
def State.nextInput (s : State) : StepInput := s.inputs.headD ⟨false, false, false⟩

/-- A step begun: its inputs taken, its list of calls empty. -/
def beginStep (s : State) : State := { s with inputs := s.inputs.tail, calls := [] }

/-- The fetch and shift of rule R122: the word at R15 read with `next_fetch_kind`, `pipe[0]` taken out. -/
def fetchShift (s : State) : State :=
  let (w, s) := load32 s.pc s.nextFetchKind s
  { s with pipe0 := s.pipe1, pipe1 := w }

end Sys2Proof.Machine
end

