-- ==== Sys2Proof/Machine/Operands.lean ====
section
/-!
DEFINITION. Operand forms: the barrel shifter (41_condition_shifter_alu.md section 2), operand2 of a data-processing
instruction, the offsets and addresses of the transfers, the addresses of a block transfer, the operand and mask of MSR,
the target of a branch.
-/

namespace Sys2Proof.Machine

/-! ### Barrel shifter: each function answers the result and the carry-out -/

/-- LSL by `n ≥ 1` (41_condition_shifter_alu.md rule R151). -/
def shiftLsl (v : Word) (n : Nat) : Word × Bool :=
  if n < 32 then (v <<< n, v.getLsbD (32 - n))
  else if n = 32 then (0, v.getLsbD 0)
  else (0, false)

/-- LSR by `n ≥ 1` (rule R152). -/
def shiftLsr (v : Word) (n : Nat) : Word × Bool :=
  if n < 32 then (v >>> n, v.getLsbD (n - 1))
  else if n = 32 then (0, v.getLsbD 31)
  else (0, false)

/-- ASR by `n ≥ 1` (rule R153). -/
def shiftAsr (v : Word) (n : Nat) : Word × Bool :=
  if n < 32 then (v.sshiftRight n, v.getLsbD (n - 1))
  else (if v.getLsbD 31 then 0xFFFFFFFF else 0, v.getLsbD 31)

/-- ROR by `n ≥ 1` (rule R154). -/
def shiftRor (v : Word) (n : Nat) : Word × Bool :=
  if n % 32 = 0 then (v, v.getLsbD 31) else (v.rotateRight (n % 32), v.getLsbD (n % 32 - 1))

/-- RRX: a rotate through the carry by one place (rule R155). -/
def shiftRrx (v : Word) (cin : Bool) : Word × Bool :=
  (BitVec.ofBool cin ++ (v.extractLsb' 1 31 : BitVec 31), v.getLsbD 0)

/-- A shift by `n ≥ 1` of each type. -/
def shiftBy (ty : ShiftType) (v : Word) (n : Nat) : Word × Bool :=
  match ty with
  | .lsl => shiftLsl v n
  | .lsr => shiftLsr v n
  | .asr => shiftAsr v n
  | .ror => shiftRor v n

/-- A shift by an immediate amount (rule R156): amount 0 is no shift for LSL, 32 for LSR and ASR, RRX for ROR. -/
def shiftByImm (ty : ShiftType) (v : Word) (amount : BitVec 5) (cin : Bool) : Word × Bool :=
  if amount = 0 then
    match ty with
    | .lsl => (v, cin)
    | .lsr => shiftLsr v 32
    | .asr => shiftAsr v 32
    | .ror => shiftRrx v cin
  else shiftBy ty v amount.toNat

/-- A shift by a register-specified amount (rule R157): the amount is the low byte of Rs, and 0 leaves value and carry. -/
def shiftByReg (ty : ShiftType) (v rs : Word) (cin : Bool) : Word × Bool :=
  let n := (rs.extractLsb' 0 8).toNat
  if n = 0 then (v, cin) else shiftBy ty v n

/-- `ror32(zext_8(imm8), 2 * rot)` (30_encoding.md rule R88). -/
def rotatedImm (rot : BitVec 4) (imm8 : BitVec 8) : Word := (imm8.setWidth 32 : Word).rotateRight (2 * rot.toNat)

/-- The immediate operand and its carry-out (rule R158). -/
def immOperand (rot : BitVec 4) (imm8 : BitVec 8) (cin : Bool) : Word × Bool :=
  let r := rotatedImm rot imm8
  (r, if rot = 0 then cin else r.getLsbD 31)

/-! ### Operand2 (42_data_processing.md rule R181) -/

/-- The operand and the shifter carry-out. -/
def operand2 (o : Operand2) (md : Mode) (s : State) : Word × Bool :=
  match o with
  | .imm rot imm8 => immOperand rot imm8 s.cpsr.c
  | .shiftImm amount ty rm => shiftByImm ty (readReg md rm s) amount s.cpsr.c
  | .shiftReg rs _ ty rm => shiftByReg ty (readReg md rm s) (readReg md rs s) s.cpsr.c

/-- R15 as Rm, Rs, or as an Rn the operation reads, with a register-specified amount (X4). -/
def pcInRegisterShift (readsRn : Bool) (rn : Reg) : Operand2 → Bool
  | .imm _ _ => false
  | .shiftImm _ _ _ => false
  | .shiftReg rs _ _ rm => rm == 15 || rs == 15 || (readsRn && rn == 15)

/-- Bit 7 = 1 with a register-specified amount (U2). -/
def reservedBit7 : Operand2 → Bool
  | .imm _ _ => false
  | .shiftImm _ _ _ => false
  | .shiftReg _ bit7 _ _ => bit7

/-! ### Addresses of single and halfword transfers (45_single_data_transfer.md rules R231 to R233) -/

/-- The offset of a word or byte transfer; the shifter's carry-out is discarded. -/
def sdtOffset (off : SdtOffset) (md : Mode) (s : State) : Word :=
  match off with
  | .imm imm12 => imm12.setWidth 32
  | .reg amount ty rm => (shiftByImm ty (readReg md rm s) amount s.cpsr.c).1

/-- The offset register of a word or byte transfer. -/
def sdtOffsetReg : SdtOffset → Option Reg
  | .imm _ => none
  | .reg _ _ rm => some rm

/-- `target`: the base plus or minus the offset. -/
def transferTarget (up : Bool) (base off : Word) : Word := if up then base + off else base - off

/-- `addr`: the target when P = 1, the base when P = 0. -/
def transferAddr (ix : Indexing) (up : Bool) (base off : Word) : Word :=
  if ix.p then transferTarget up base off else base

/-- `wb`: W = 1 when P = 1; always when P = 0. -/
def writesBack (ix : Indexing) : Bool := if ix.p then ix.w else true

/-- The class U8 forms of rules R231, R233 and R241: Rm = R15, write-back with Rn = R15 or Rn = Rd, Rm = Rn
post-indexed. -/
def unpredictableU8 (ix : Indexing) (rn rd : Reg) (rm : Option Reg) : Bool :=
  rm == some 15 || (writesBack ix && (rn == 15 || rn == rd)) || (!ix.p && rm == some rn)

/-! ### Addresses of a block transfer (47_block_data_transfer.md rules R265, R266) -/

/-- `regs`: the registers of the list, ascending. -/
def listRegs (list : BitVec 16) : List Reg := ((List.range 16).filter fun i => list.getLsbD i).map (BitVec.ofNat 4)

/-- `4n`. -/
def blockBytes (list : BitVec 16) : Word := BitVec.ofNat 32 (4 * (listRegs list).length)

/-- `start`. -/
def blockStart (m : BlockMode) (base size : Word) : Word :=
  match m with
  | .ia => base
  | .ib => base + 4
  | .da => base - size + 4
  | .db => base - size

/-- `new`. -/
def blockNewBase (m : BlockMode) (base size : Word) : Word :=
  match m with
  | .ia => base + size
  | .ib => base + size
  | .da => base - size
  | .db => base - size

/-! ### MSR (49_psr_transfer.md rule R297) and branches (43_branch.md rule R212) -/

/-- `mask`: the bytes the field mask selects, reserved bits left out. -/
def msrMask (fmask : BitVec 4) : Word :=
  ((if fmask.getLsbD 3 then 0xFF000000 else 0) ||| (if fmask.getLsbD 2 then 0x00FF0000 else 0)
    ||| (if fmask.getLsbD 1 then 0x0000FF00 else 0) ||| (if fmask.getLsbD 0 then 0x000000FF else 0)) &&& psrMask

/-- A status register with the selected bits replaced. -/
def Psr.merged (p : Psr) (mask operand : Word) : Psr := Psr.ofWord ((p.toWord &&& ~~~mask) ||| (operand &&& mask))

/-- `target = x[15] + sext(off24 << 2, 26)`. -/
def branchTarget (offset24 : BitVec 24) (s : State) : Word := s.pc + (offset24 ++ 0b00#2).signExtend 32

end Sys2Proof.Machine
end

