-- ==== Sys2Proof/Machine/Block.lean ====
section
/-!
DEFINITION. Block data transfer (47_block_data_transfer.md): LDM and STM in their four addressing modes.
-/

namespace Sys2Proof.Machine

/-- The transfers of LDM (rule R271), ascending, the first with kind `k` and the later ones S (rule R267): the registers
loaded in the current mode's bank, and the word loaded for R15, if any, which is written last. -/
def loadRegs (md : Mode) : List Reg → Word → AccessKind → Option Word → State → Option Word × State
  | [], _, _, t, s => (t, s)
  | r :: rs, a, k, t, s =>
    let (v, s) := load32 (wordAddr a) k s
    if r = 15 then loadRegs md rs (a + 4) .sequential (some v) s
    else loadRegs md rs (a + 4) .sequential t (writeReg md r v s)

/-- The transfers of STM (rule R272), ascending; R15 of the list is stored as `storeSource` says, also where R15 is the
written-back base (DESIGN CHOICE, log entry 20). -/
def storeRegs (md : Mode) : List Reg → Word → AccessKind → State → State
  | [], _, _, s => s
  | r :: rs, a, k, s => storeRegs md rs (a + 4) .sequential (store32 (wordAddr a) (storeSource md r s) k s)

/-- The class U tests of rule R269, in the order U5 (empty list), U6 (write-back with Rn in the list), U7 (Rn = R15). -/
def unlessBlockStrict (wb : Bool) (rn : Reg) (list : BitVec 16) (s : State) (k : Result) : Result :=
  unlessStrict .u5 (list == 0) s <|
  unlessStrict .u6 (wb && list.getLsbD rn.toNat) s <|
  unlessStrict .u7 (rn == 15) s k

/-- The write-back of rule R268. -/
def blockWriteBack (wb : Bool) (md : Mode) (rn : Reg) (new : Word) (s : State) : State :=
  if wb then setReg md rn new s else s

/-- The program-counter write of LDM, if the list named R15. -/
def writeLoadedPc (t : Option Word) (s : State) : State :=
  match t with
  | none => s
  | some v => flush v s

/-- The last two writes of LDM: the write-back and then the program counter (rule R271); where the base written back is
R15 itself the write-back is the last (rule R269, U6 and U7; that both writes flush: DEDUCED, log entry 12). -/
def ldmWrites (wb : Bool) (md : Mode) (rn : Reg) (new : Word) (t : Option Word) (s : State) : State :=
  if rn = 15 then blockWriteBack wb md rn new (writeLoadedPc t s) else writeLoadedPc t (blockWriteBack wb md rn new s)

/-- LDM: load multiple (rule R271).  S = 1 is refused (rule R270, X3). -/
def execLdm (c : Cond) (m : BlockMode) (forceUser wb : Bool) (rn : Reg) (list : BitVec 16) (s : State) : Result :=
  gate c s fun md =>
    if forceUser then .refused .unsupportedForceUser
    else unlessBlockStrict wb rn list s <|
      let base := readReg md rn s
      let size := blockBytes list
      let (t, s1) := loadRegs md (listRegs list) (blockStart m base size) .nonSequential none s
      finish (t.isSome || (wb && rn == 15)) s.params.nextFetchKind.blockDataTransfer
        (ldmWrites wb md rn (blockNewBase m base size) t s1)

/-- STM: store multiple (rule R272).  S = 1 is refused (rule R270, X3). -/
def execStm (c : Cond) (m : BlockMode) (forceUser wb : Bool) (rn : Reg) (list : BitVec 16) (s : State) : Result :=
  gate c s fun md =>
    if forceUser then .refused .unsupportedForceUser
    else unlessBlockStrict wb rn list s <|
      let base := readReg md rn s
      let size := blockBytes list
      let s1 := storeRegs md (listRegs list) (blockStart m base size) .nonSequential s
      let s2 := blockWriteBack wb md rn (blockNewBase m base size) s1
      finish (wb && rn == 15) s.params.nextFetchKind.blockDataTransfer s2

end Sys2Proof.Machine
end

