-- ==== Sys2Proof/Machine/Branch.lean ====
section
/-!
DEFINITION. Branch instructions (43_branch.md): B, BL, BX.
-/

namespace Sys2Proof.Machine

/-- B: branch (rule R210). -/
def execB (c : Cond) (offset24 : BitVec 24) (s : State) : Result :=
  gate c s fun _ => .next (flush (branchTarget offset24 s) s)

/-- BL: branch with link (rule R211): R14 of the current mode takes the address after the BL. -/
def execBl (c : Cond) (offset24 : BitVec 24) (s : State) : Result :=
  gate c s fun md => .next (flush (branchTarget offset24 s) (writeReg md 14 (s.pc - 4) s))

/-- BX: branch and exchange (rule R213): T from bit 0 of the register, the flush with that bit cleared. -/
def execBx (c : Cond) (rn : Reg) (s : State) : Result :=
  gate c s fun md =>
    let v := readReg md rn s
    unlessStrict .u4 (rn == 15 || v.extractLsb' 0 2 == 0b10#2) s <|
    .next (flush (v &&& 0xFFFFFFFE) (s.withCpsr { s.cpsr with t := v.getLsbD 0 }))

end Sys2Proof.Machine
end

