-- ==== Sys2Proof/Machine/DataProcessing.lean ====
section
/-!
DEFINITION. Data-processing instructions (42_data_processing.md): the shared handler of rule R180 and one meaning for
each of the sixteen operations, and the reserved opcodes of rule R185.
-/

namespace Sys2Proof.Machine

/-- The handler of rule R180 once the operand is known to be legal: result, flags and destination.  A comparison writes
flags only (rule R184); R15 as destination is a flush, and with S = 1 the exception return of rule R183. -/
def dataProcResult (op : AluOp) (setFlags : Bool) (rn rd : Reg) (o : Operand2) (md : Mode) (s : State) : Result :=
  let (b, sc) := operand2 o md s
  let r := alu op (readReg md rn s) b sc s.cpsr.c s.cpsr.v
  let k := s.params.nextFetchKind.dataProcessing
  if op.isCompare then .next (advance k (s.withCpsr (s.cpsr.withAlu r)))
  else if rd = 15 then
    if setFlags then returnFromException md r.value s else .next (flush r.value s)
  else
    let s := writeReg md rd r.value s
    .next (advance k (if setFlags then s.withCpsr (s.cpsr.withAlu r) else s))

/-- The handler of rule R180: R15 with a register-specified shift is refused (rule R181, X4), bit 7 = 1 is class U2 (rule
R185), R15 as the ignored Rd of a comparison is class U15 (rule R184). -/
def dataProc (op : AluOp) (setFlags : Bool) (rn rd : Reg) (o : Operand2) (md : Mode) (s : State) : Result :=
  if pcInRegisterShift op.readsRn rn o then .refused .pcInRegisterShift
  else
    unlessStrict .u2 (reservedBit7 o) s <|
    unlessStrict .u15 (op.isCompare && rd == 15) s <|
    dataProcResult op setFlags rn rd o md s

/-- AND: bitwise and (rule R186). -/
def execAnd (c : Cond) (setFlags : Bool) (rn rd : Reg) (o : Operand2) (s : State) : Result :=
  gate c s fun md => dataProc .and setFlags rn rd o md s

/-- EOR: bitwise exclusive or (rule R187). -/
def execEor (c : Cond) (setFlags : Bool) (rn rd : Reg) (o : Operand2) (s : State) : Result :=
  gate c s fun md => dataProc .eor setFlags rn rd o md s

/-- SUB: subtract (rule R188). -/
def execSub (c : Cond) (setFlags : Bool) (rn rd : Reg) (o : Operand2) (s : State) : Result :=
  gate c s fun md => dataProc .sub setFlags rn rd o md s

/-- RSB: reverse subtract (rule R189). -/
def execRsb (c : Cond) (setFlags : Bool) (rn rd : Reg) (o : Operand2) (s : State) : Result :=
  gate c s fun md => dataProc .rsb setFlags rn rd o md s

/-- ADD: add (rule R190). -/
def execAdd (c : Cond) (setFlags : Bool) (rn rd : Reg) (o : Operand2) (s : State) : Result :=
  gate c s fun md => dataProc .add setFlags rn rd o md s

/-- ADC: add with carry (rule R191). -/
def execAdc (c : Cond) (setFlags : Bool) (rn rd : Reg) (o : Operand2) (s : State) : Result :=
  gate c s fun md => dataProc .adc setFlags rn rd o md s

/-- SBC: subtract with carry (rule R192). -/
def execSbc (c : Cond) (setFlags : Bool) (rn rd : Reg) (o : Operand2) (s : State) : Result :=
  gate c s fun md => dataProc .sbc setFlags rn rd o md s

/-- RSC: reverse subtract with carry (rule R193). -/
def execRsc (c : Cond) (setFlags : Bool) (rn rd : Reg) (o : Operand2) (s : State) : Result :=
  gate c s fun md => dataProc .rsc setFlags rn rd o md s

/-- TST: test bits (rule R194). -/
def execTst (c : Cond) (rn rd : Reg) (o : Operand2) (s : State) : Result :=
  gate c s fun md => dataProc .tst true rn rd o md s

/-- TEQ: test equivalence (rule R195). -/
def execTeq (c : Cond) (rn rd : Reg) (o : Operand2) (s : State) : Result :=
  gate c s fun md => dataProc .teq true rn rd o md s

/-- CMP: compare (rule R196). -/
def execCmp (c : Cond) (rn rd : Reg) (o : Operand2) (s : State) : Result :=
  gate c s fun md => dataProc .cmp true rn rd o md s

/-- CMN: compare negative (rule R197). -/
def execCmn (c : Cond) (rn rd : Reg) (o : Operand2) (s : State) : Result :=
  gate c s fun md => dataProc .cmn true rn rd o md s

/-- ORR: bitwise or (rule R198). -/
def execOrr (c : Cond) (setFlags : Bool) (rn rd : Reg) (o : Operand2) (s : State) : Result :=
  gate c s fun md => dataProc .orr setFlags rn rd o md s

/-- MOV: move (rule R199). -/
def execMov (c : Cond) (setFlags : Bool) (rn rd : Reg) (o : Operand2) (s : State) : Result :=
  gate c s fun md => dataProc .mov setFlags rn rd o md s

/-- BIC: bit clear (rule R200). -/
def execBic (c : Cond) (setFlags : Bool) (rn rd : Reg) (o : Operand2) (s : State) : Result :=
  gate c s fun md => dataProc .bic setFlags rn rd o md s

/-- MVN: move not (rule R201). -/
def execMvn (c : Cond) (setFlags : Bool) (rn rd : Reg) (o : Operand2) (s : State) : Result :=
  gate c s fun md => dataProc .mvn setFlags rn rd o md s

/-- The reserved opcodes 10xx with S = 0 (rule R185, U3): no effect other than the advance, its kind that of
data processing (DEDUCED, log entry 13). -/
def execReservedDp (c : Cond) (_op : BitVec 2) (_rn _rd : Reg) (_o : Operand2) (s : State) : Result :=
  gate c s fun _ => unlessStrict .u3 true s <| .next (advance s.params.nextFetchKind.dataProcessing s)

end Sys2Proof.Machine
end

