-- ==== Sys2Proof/Machine/Multiply.lean ====
section
/-!
DEFINITION. Multiply instructions (44_multiply.md): MUL, MLA and the four long forms.
-/

namespace Sys2Proof.Machine

/-- The flags of a multiply (rule R221): with S = 1, N the top bit of the result and Z whether all of it is 0; V kept; C
kept under `MUL_C_POLICY = untouched` and a free bit under `draw`. -/
def mulFlags (setFlags top isZero : Bool) (s : State) : State :=
  if setFlags then
    match s.params.mulCPolicy with
    | .untouched => s.withCpsr (s.cpsr.withMul top isZero)
    | .draw =>
      let (w, s) := drawFree s
      s.withCpsr { s.cpsr.withMul top isZero with c := w.getLsbD 0 }
  else s

/-- The class U11 forms of MUL and MLA (rule R220); `accumulates` says Rn is an operand. -/
def mulUnpredictable (accumulates : Bool) (rd rn rs rm : Reg) : Bool :=
  rd == rm || rd == 15 || rm == 15 || rs == 15 || (accumulates && rn == 15)

/-- The class U11 forms of the long multiplies. -/
def mullUnpredictable (rdHi rdLo rs rm : Reg) : Bool :=
  rdHi == rdLo || rm == rdHi || rm == rdLo || rdHi == 15 || rdLo == 15 || rs == 15 || rm == 15

/-- A 32-bit result written, after the flags (R15 as destination is a program-counter write, class U11). -/
def mulResult (setFlags : Bool) (rd : Reg) (r : Word) (md : Mode) (s : State) : Result :=
  let s1 := mulFlags setFlags (r.getLsbD 31) (r == 0) s
  finish (rd == 15) s.params.nextFetchKind.multiply (setReg md rd r s1)

/-- A 64-bit result written, RdLo then RdHi (rule R224). -/
def mullResult (setFlags : Bool) (rdHi rdLo : Reg) (r : BitVec 64) (md : Mode) (s : State) : Result :=
  let s1 := mulFlags setFlags (r.getLsbD 63) (r == 0) s
  let s2 := setReg md rdLo (r.extractLsb' 0 32) s1
  let s3 := setReg md rdHi (r.extractLsb' 32 32) s2
  finish (rdHi == 15 || rdLo == 15) s.params.nextFetchKind.multiplyLong s3

/-- The accumulate input of UMLAL and SMLAL: RdHi above RdLo. -/
def accumulator (rdHi rdLo : Reg) (md : Mode) (s : State) : BitVec 64 := readReg md rdHi s ++ readReg md rdLo s

/-- `zext_64(x[Rm]) * zext_64(x[Rs])`. -/
def unsignedProduct (rs rm : Reg) (md : Mode) (s : State) : BitVec 64 :=
  (readReg md rm s).setWidth 64 * (readReg md rs s).setWidth 64

/-- `(sext_64(x[Rm]) * sext_64(x[Rs]))[63:0]`. -/
def signedProduct (rs rm : Reg) (md : Mode) (s : State) : BitVec 64 :=
  (readReg md rm s).signExtend 64 * (readReg md rs s).signExtend 64

/-- MUL: multiply (rule R222); bit 22 = 1 is class U1, the Rn field is not read. -/
def execMul (c : Cond) (bit22 setFlags : Bool) (rd rn rs rm : Reg) (s : State) : Result :=
  gate c s fun md =>
    unlessStrict .u1 bit22 s <|
    unlessStrict .u11 (mulUnpredictable false rd rn rs rm) s <|
    mulResult setFlags rd (readReg md rm s * readReg md rs s) md s

/-- MLA: multiply accumulate (rule R223). -/
def execMla (c : Cond) (bit22 setFlags : Bool) (rd rn rs rm : Reg) (s : State) : Result :=
  gate c s fun md =>
    unlessStrict .u1 bit22 s <|
    unlessStrict .u11 (mulUnpredictable true rd rn rs rm) s <|
    mulResult setFlags rd (readReg md rm s * readReg md rs s + readReg md rn s) md s

/-- UMULL: unsigned multiply long (rule R225). -/
def execUmull (c : Cond) (setFlags : Bool) (rdHi rdLo rs rm : Reg) (s : State) : Result :=
  gate c s fun md =>
    unlessStrict .u11 (mullUnpredictable rdHi rdLo rs rm) s <|
    mullResult setFlags rdHi rdLo (unsignedProduct rs rm md s) md s

/-- UMLAL: unsigned multiply accumulate long (rule R226). -/
def execUmlal (c : Cond) (setFlags : Bool) (rdHi rdLo rs rm : Reg) (s : State) : Result :=
  gate c s fun md =>
    unlessStrict .u11 (mullUnpredictable rdHi rdLo rs rm) s <|
    mullResult setFlags rdHi rdLo (unsignedProduct rs rm md s + accumulator rdHi rdLo md s) md s

/-- SMULL: signed multiply long (rule R227). -/
def execSmull (c : Cond) (setFlags : Bool) (rdHi rdLo rs rm : Reg) (s : State) : Result :=
  gate c s fun md =>
    unlessStrict .u11 (mullUnpredictable rdHi rdLo rs rm) s <|
    mullResult setFlags rdHi rdLo (signedProduct rs rm md s) md s

/-- SMLAL: signed multiply accumulate long (rule R228). -/
def execSmlal (c : Cond) (setFlags : Bool) (rdHi rdLo rs rm : Reg) (s : State) : Result :=
  gate c s fun md =>
    unlessStrict .u11 (mullUnpredictable rdHi rdLo rs rm) s <|
    mullResult setFlags rdHi rdLo (signedProduct rs rm md s + accumulator rdHi rdLo md s) md s

end Sys2Proof.Machine
end

