-- ==== Sys2Proof/Machine/System.lean ====
section
/-!
DEFINITION. Swap, software interrupt, the undefined instruction and the coprocessor space (48_swap_swi_undefined.md), and
status-register transfer (49_psr_transfer.md).
-/

namespace Sys2Proof.Machine

/-! ### Swap -/

/-- The class U10 forms (48_swap_swi_undefined.md rule R280): R15 in any field, Rn = Rd, Rn = Rm. -/
def swapUnpredictable (rn rd rm : Reg) : Bool := rn == 15 || rd == 15 || rm == 15 || rn == rd || rn == rm

/-- SWP: swap word (rule R280): base and source read, the word read and rotated as LDR, the source stored as STR, the
word written to Rd. -/
def execSwp (c : Cond) (rn rd rm : Reg) (s : State) : Result :=
  gate c s fun md =>
    unlessStrict .u10 (swapUnpredictable rn rd rm) s <|
    let a := readReg md rn s
    let src := readReg md rm s
    let (old, s1) := loadRotated a .nonSequential s
    let s2 := store32 (wordAddr a) src .nonSequential s1
    finish (rd == 15) s.params.nextFetchKind.singleDataSwap (setReg md rd old s2)

/-- SWPB: swap byte (rule R281). -/
def execSwpb (c : Cond) (rn rd rm : Reg) (s : State) : Result :=
  gate c s fun md =>
    unlessStrict .u10 (swapUnpredictable rn rd rm) s <|
    let a := readReg md rn s
    let src := readReg md rm s
    let (old, s1) := load8 a .nonSequential s
    let s2 := store8 a (src.setWidth 8) .nonSequential s1
    finish (rd == 15) s.params.nextFetchKind.singleDataSwap (setReg md rd (old.setWidth 32) s2)

/-! ### Traps: the link value is the address of the instruction after (60_exceptions.md rule R317) -/

/-- SWI: software interrupt (rule R282); the comment field is not read. -/
def execSwi (c : Cond) (_comment24 : BitVec 24) (s : State) : Result :=
  gate c s fun _ => .next (takeException .swi (s.pc - 4) s)

/-- Undefined instruction (rule R283): no bit but the condition is looked at. -/
def execUnd (c : Cond) (_ignoredHi : BitVec 20) (_ignoredLo : BitVec 4) (s : State) : Result :=
  gate c s fun _ => .next (takeException .undefined (s.pc - 4) s)

/-- CDP, MCR, MRC: no coprocessor, the undefined-instruction trap (rule R284). -/
def execCdpMcrMrc (c : Cond) (_ignored : BitVec 24) (s : State) : Result :=
  gate c s fun _ => .next (takeException .undefined (s.pc - 4) s)

/-- LDC, STC: likewise (rule R284). -/
def execLdcStc (c : Cond) (_ignored : BitVec 25) (s : State) : Result :=
  gate c s fun _ => .next (takeException .undefined (s.pc - 4) s)

/-! ### Status-register transfer -/

/-- The status register bit 22 selects (49_psr_transfer.md rule R295); none where the mode has no SPSR. -/
def selectedPsr (spsr : Bool) (md : Mode) (s : State) : Option Psr :=
  if spsr then md.excMode.map s.spsr.get else some s.cpsr

/-- MRS: status register to register (rule R296); bits 11:0 not 0 or Rd = R15 is class U12. -/
def execMrs (c : Cond) (spsr : Bool) (rd : Reg) (sbz : BitVec 12) (s : State) : Result :=
  gate c s fun md =>
    unlessStrict .u12 (rd == 15 || sbz != 0) s <|
    match selectedPsr spsr md s with
    | none => .refused .noSavedStatusRegister
    | some p => finish (rd == 15) s.params.nextFetchKind.psrToRegister (setReg md rd p.toWord s)

/-- The write of rule R298 to an SPSR: its mode field is not checked (10_state.md rule R28). -/
def msrToSpsr (fmask : BitVec 4) (operand : Word) (md : Mode) (s : State) : Result :=
  match md.excMode with
  | none => .refused .noSavedStatusRegister
  | some e =>
    .next (advance s.params.nextFetchKind.registerToPsr (s.withSpsr e ((s.spsr.get e).merged (msrMask fmask) operand)))

/-- The write of rule R298 to CPSR: the control byte is refused in User mode (rule R301), a change of T (rule R300) and
an invalid mode (rule R299) everywhere. -/
def msrToCpsr (fmask : BitVec 4) (operand : Word) (md : Mode) (s : State) : Result :=
  let new := s.cpsr.merged (msrMask fmask) operand
  if md = .user ∧ fmask.getLsbD 0 then .refused .userModePrivilegedWrite
  else if new.t ≠ s.cpsr.t then .refused .stateBitChangeByMsr
  else
    match Mode.ofBits new.m with
    | none => .refused .invalidMode
    | some _ => .next (advance s.params.nextFetchKind.registerToPsr (s.withCpsr new))

/-- The write of rule R298. -/
def msrWrite (spsr : Bool) (fmask : BitVec 4) (operand : Word) (md : Mode) (s : State) : Result :=
  if spsr then msrToSpsr fmask operand md s else msrToCpsr fmask operand md s

/-- MSR, register operand (rule R302); bits 11:4 not 0 or Rm = R15 is class U13. -/
def execMsrReg (c : Cond) (spsr : Bool) (fmask : BitVec 4) (sbz : BitVec 8) (rm : Reg) (s : State) : Result :=
  gate c s fun md =>
    unlessStrict .u13 (rm == 15 || sbz != 0) s <|
    msrWrite spsr fmask (readReg md rm s) md s

/-- MSR, immediate operand (rule R303). -/
def execMsrImm (c : Cond) (spsr : Bool) (fmask rot : BitVec 4) (imm8 : BitVec 8) (s : State) : Result :=
  gate c s fun md => msrWrite spsr fmask (rotatedImm rot imm8) md s

end Sys2Proof.Machine
end

