-- ==== Sys2Proof/Machine/Transfer.lean ====
section
/-!
DEFINITION. Single data transfers (45_single_data_transfer.md) and halfword transfers (46_halfword_transfer.md): the
shared load and store of rules R232 to R235 and R252, and one meaning per row of the table.
-/

namespace Sys2Proof.Machine

/-! ### The access itself -/

/-- What a load reads and how it is extended (20_memory.md rule R61). -/
inductive LoadKind where
  | word | byte | half | signedByte | signedHalf
deriving DecidableEq, Repr

/-- What a store writes. -/
inductive StoreKind where
  | word | byte | half
deriving DecidableEq, Repr

/-- The load of rules R236, R237, R254, R256, R257; every single access has kind N (70_reset_and_hazards.md rule R363). -/
def loadValue (ld : LoadKind) (a : Word) (s : State) : Word × State :=
  match ld with
  | .word => loadRotated a .nonSequential s
  | .byte => let (v, s) := load8 a .nonSequential s; (v.setWidth 32, s)
  | .half => let (v, s) := load16 a .nonSequential s; (v.setWidth 32, s)
  | .signedByte => let (v, s) := load8 a .nonSequential s; (v.signExtend 32, s)
  | .signedHalf => let (v, s) := load16 a .nonSequential s; (v.signExtend 32, s)

/-- The store of rules R238, R239, R255. -/
def storeValue (st : StoreKind) (a v : Word) (s : State) : State :=
  match st with
  | .word => store32 (wordAddr a) v .nonSequential s
  | .byte => store8 a (v.setWidth 8) .nonSequential s
  | .half => store16 a (v.setWidth 16) .nonSequential s

/-- A halfword load at an odd address (46_halfword_transfer.md rule R258). -/
def LoadKind.misaligned (ld : LoadKind) (a : Word) : Bool :=
  match ld with
  | .half => a.getLsbD 0
  | .signedHalf => a.getLsbD 0
  | .word => false
  | .byte => false
  | .signedByte => false

/-- A halfword store at an odd address. -/
def StoreKind.misaligned (st : StoreKind) (a : Word) : Bool :=
  match st with
  | .half => a.getLsbD 0
  | .word => false
  | .byte => false

/-! ### The order of events (45_single_data_transfer.md rule R235) -/

/-- A load: read, write-back, register write; R15 as destination or as written-back base is a flush. -/
def loadTransfer (ld : LoadKind) (ix : Indexing) (up : Bool) (rn rd : Reg) (off : Word) (k : AccessKind) (md : Mode)
    (s : State) : Result :=
  let base := readReg md rn s
  let a := transferAddr ix up base off
  if ld.misaligned a then .refused .misalignedHalfword
  else
    let (v, s) := loadValue ld a s
    let s := if writesBack ix then setReg md rn (transferTarget up base off) s else s
    let s := setReg md rd v s
    finish (rd == 15 || (writesBack ix && rn == 15)) k s

/-- A store: source read, write, write-back. -/
def storeTransfer (st : StoreKind) (ix : Indexing) (up : Bool) (rn rd : Reg) (off : Word) (k : AccessKind) (md : Mode)
    (s : State) : Result :=
  let base := readReg md rn s
  let a := transferAddr ix up base off
  if st.misaligned a then .refused .misalignedHalfword
  else
    let s := storeValue st a (storeSource md rd s) s
    let s := if writesBack ix then setReg md rn (transferTarget up base off) s else s
    finish (writesBack ix && rn == 15) k s

/-! ### Word and byte transfers -/

/-- A word or byte load: class U8 by its operands, class U14 for a byte with Rd = R15 (rules R231, R233, R240, R241). -/
def sdtLoad (ld : LoadKind) (isByte : Bool) (ix : Indexing) (up : Bool) (rn rd : Reg) (off : SdtOffset) (md : Mode)
    (s : State) : Result :=
  unlessStrict .u8 (unpredictableU8 ix rn rd (sdtOffsetReg off)) s <|
  unlessStrict .u14 (isByte && rd == 15) s <|
  loadTransfer ld ix up rn rd (sdtOffset off md s) s.params.nextFetchKind.singleDataTransfer md s

/-- A word or byte store, with the same class U forms. -/
def sdtStore (st : StoreKind) (isByte : Bool) (ix : Indexing) (up : Bool) (rn rd : Reg) (off : SdtOffset) (md : Mode)
    (s : State) : Result :=
  unlessStrict .u8 (unpredictableU8 ix rn rd (sdtOffsetReg off)) s <|
  unlessStrict .u14 (isByte && rd == 15) s <|
  storeTransfer st ix up rn rd (sdtOffset off md s) s.params.nextFetchKind.singleDataTransfer md s

/-- LDRT: load word, user-mode access: LDR post-indexed (rules R234, R242). -/
def execLdrt (c : Cond) (up : Bool) (rn rd : Reg) (off : SdtOffset) (s : State) : Result :=
  gate c s fun md => sdtLoad .word false .postIndexedW up rn rd off md s

/-- LDRBT: load byte, user-mode access: LDRB post-indexed (rules R234, R243). -/
def execLdrbt (c : Cond) (up : Bool) (rn rd : Reg) (off : SdtOffset) (s : State) : Result :=
  gate c s fun md => sdtLoad .byte true .postIndexedW up rn rd off md s

/-- STRT: store word, user-mode access: STR post-indexed (rules R234, R244). -/
def execStrt (c : Cond) (up : Bool) (rn rd : Reg) (off : SdtOffset) (s : State) : Result :=
  gate c s fun md => sdtStore .word false .postIndexedW up rn rd off md s

/-- STRBT: store byte, user-mode access: STRB post-indexed (rules R234, R245). -/
def execStrbt (c : Cond) (up : Bool) (rn rd : Reg) (off : SdtOffset) (s : State) : Result :=
  gate c s fun md => sdtStore .byte true .postIndexedW up rn rd off md s

/-- LDR: load word (rule R236). -/
def execLdr (c : Cond) (ix : Indexing) (up : Bool) (rn rd : Reg) (off : SdtOffset) (s : State) : Result :=
  gate c s fun md => sdtLoad .word false ix up rn rd off md s

/-- LDRB: load byte, zero-extended (rule R237). -/
def execLdrb (c : Cond) (ix : Indexing) (up : Bool) (rn rd : Reg) (off : SdtOffset) (s : State) : Result :=
  gate c s fun md => sdtLoad .byte true ix up rn rd off md s

/-- STR: store word (rule R238). -/
def execStr (c : Cond) (ix : Indexing) (up : Bool) (rn rd : Reg) (off : SdtOffset) (s : State) : Result :=
  gate c s fun md => sdtStore .word false ix up rn rd off md s

/-- STRB: store byte (rule R239). -/
def execStrb (c : Cond) (ix : Indexing) (up : Bool) (rn rd : Reg) (off : SdtOffset) (s : State) : Result :=
  gate c s fun md => sdtStore .byte true ix up rn rd off md s

/-! ### Halfword and signed transfers -/

/-- The class U9 forms of 46_halfword_transfer.md rule R252: P = 0 with W = 1; Rd = R15. -/
def unpredictableU9 (ix : Indexing) (rd : Reg) : Bool := ix == .postIndexedW || rd == 15

/-- A halfword or signed load with its offset in a register (rules R251, R252). -/
def halfLoadReg (ld : LoadKind) (ix : Indexing) (up : Bool) (rn rd rm : Reg) (md : Mode) (s : State) : Result :=
  unlessStrict .u8 (unpredictableU8 ix rn rd (some rm)) s <|
  unlessStrict .u9 (unpredictableU9 ix rd) s <|
  loadTransfer ld ix up rn rd (readReg md rm s) s.params.nextFetchKind.halfwordTransfer md s

/-- A halfword or signed load with an 8-bit immediate offset. -/
def halfLoadImm (ld : LoadKind) (ix : Indexing) (up : Bool) (rn rd : Reg) (off : BitVec 8) (md : Mode) (s : State) :
    Result :=
  unlessStrict .u8 (unpredictableU8 ix rn rd none) s <|
  unlessStrict .u9 (unpredictableU9 ix rd) s <|
  loadTransfer ld ix up rn rd (off.setWidth 32) s.params.nextFetchKind.halfwordTransfer md s

/-- STRH, register offset: store halfword (rule R255). -/
def execStrhReg (c : Cond) (ix : Indexing) (up : Bool) (rn rd rm : Reg) (s : State) : Result :=
  gate c s fun md =>
    unlessStrict .u8 (unpredictableU8 ix rn rd (some rm)) s <|
    unlessStrict .u9 (unpredictableU9 ix rd) s <|
    storeTransfer .half ix up rn rd (readReg md rm s) s.params.nextFetchKind.halfwordTransfer md s

/-- LDRH, register offset: load halfword, zero-extended (rule R254). -/
def execLdrhReg (c : Cond) (ix : Indexing) (up : Bool) (rn rd rm : Reg) (s : State) : Result :=
  gate c s fun md => halfLoadReg .half ix up rn rd rm md s

/-- LDRSB, register offset: load byte, sign-extended (rule R256). -/
def execLdrsbReg (c : Cond) (ix : Indexing) (up : Bool) (rn rd rm : Reg) (s : State) : Result :=
  gate c s fun md => halfLoadReg .signedByte ix up rn rd rm md s

/-- LDRSH, register offset: load halfword, sign-extended (rule R257). -/
def execLdrshReg (c : Cond) (ix : Indexing) (up : Bool) (rn rd rm : Reg) (s : State) : Result :=
  gate c s fun md => halfLoadReg .signedHalf ix up rn rd rm md s

/-- Store with SH = 10, register form: reserved (rule R253, X5). -/
def execReservedStoreSh10Reg (c : Cond) (_ix : Indexing) (_up : Bool) (_rn _rd _rm : Reg) (s : State) : Result :=
  gate c s fun _ => .refused .reservedHalfwordForm

/-- Store with SH = 11, register form: reserved (rule R253, X5). -/
def execReservedStoreSh11Reg (c : Cond) (_ix : Indexing) (_up : Bool) (_rn _rd _rm : Reg) (s : State) : Result :=
  gate c s fun _ => .refused .reservedHalfwordForm

/-- SH = 00, register form: reserved (rule R253, X5). -/
def execReservedSh00Reg (c : Cond) (_ix : Indexing) (_up _load : Bool) (_rn _rd _rm : Reg) (s : State) : Result :=
  gate c s fun _ => .refused .reservedHalfwordForm

/-- STRH, immediate offset: store halfword (rule R255). -/
def execStrhImm (c : Cond) (ix : Indexing) (up : Bool) (rn rd : Reg) (off : BitVec 8) (s : State) : Result :=
  gate c s fun md =>
    unlessStrict .u8 (unpredictableU8 ix rn rd none) s <|
    unlessStrict .u9 (unpredictableU9 ix rd) s <|
    storeTransfer .half ix up rn rd (off.setWidth 32) s.params.nextFetchKind.halfwordTransfer md s

/-- LDRH, immediate offset: load halfword, zero-extended (rule R254). -/
def execLdrhImm (c : Cond) (ix : Indexing) (up : Bool) (rn rd : Reg) (off : BitVec 8) (s : State) : Result :=
  gate c s fun md => halfLoadImm .half ix up rn rd off md s

/-- LDRSB, immediate offset: load byte, sign-extended (rule R256). -/
def execLdrsbImm (c : Cond) (ix : Indexing) (up : Bool) (rn rd : Reg) (off : BitVec 8) (s : State) : Result :=
  gate c s fun md => halfLoadImm .signedByte ix up rn rd off md s

/-- LDRSH, immediate offset: load halfword, sign-extended (rule R257). -/
def execLdrshImm (c : Cond) (ix : Indexing) (up : Bool) (rn rd : Reg) (off : BitVec 8) (s : State) : Result :=
  gate c s fun md => halfLoadImm .signedHalf ix up rn rd off md s

/-- Store with SH = 10, immediate form: reserved (rule R253, X5). -/
def execReservedStoreSh10Imm (c : Cond) (_ix : Indexing) (_up : Bool) (_rn _rd : Reg) (_off : BitVec 8) (s : State) : Result :=
  gate c s fun _ => .refused .reservedHalfwordForm

/-- Store with SH = 11, immediate form: reserved (rule R253, X5). -/
def execReservedStoreSh11Imm (c : Cond) (_ix : Indexing) (_up : Bool) (_rn _rd : Reg) (_off : BitVec 8) (s : State) : Result :=
  gate c s fun _ => .refused .reservedHalfwordForm

/-- SH = 00, immediate form: reserved (rule R253, X5). -/
def execReservedSh00Imm (c : Cond) (_ix : Indexing) (_up _load : Bool) (_rn _rd : Reg) (_off : BitVec 8) (s : State) :
    Result :=
  gate c s fun _ => .refused .reservedHalfwordForm

end Sys2Proof.Machine
end

