-- ==== Sys2Proof/Machine/Dispatch.lean ====
section
/-!
DEFINITION. One arm per constructor of Instr, each one call of its meaning.
-/

namespace Sys2Proof.Machine

/-- The effect of an instruction on the state in which R15 is its address + 8 (40_step_and_pipeline.md rules R120 steps
5 and 6, R122), the condition gate included. -/
def exec (i : Instr) (s : State) : Host.Outcome State Fault Refusal :=
  match i with
  | .bx c rn => Sys2Proof.Machine.execBx c rn s
  | .ldm c bm forceUser wb rn list => Sys2Proof.Machine.execLdm c bm forceUser wb rn list s
  | .stm c bm forceUser wb rn list => Sys2Proof.Machine.execStm c bm forceUser wb rn list s
  | .b c offset24 => Sys2Proof.Machine.execB c offset24 s
  | .bl c offset24 => Sys2Proof.Machine.execBl c offset24 s
  | .swi c comment24 => Sys2Proof.Machine.execSwi c comment24 s
  | .und c ignoredHi ignoredLo => Sys2Proof.Machine.execUnd c ignoredHi ignoredLo s
  | .ldrt c up rn rd off => Sys2Proof.Machine.execLdrt c up rn rd off s
  | .ldrbt c up rn rd off => Sys2Proof.Machine.execLdrbt c up rn rd off s
  | .strt c up rn rd off => Sys2Proof.Machine.execStrt c up rn rd off s
  | .strbt c up rn rd off => Sys2Proof.Machine.execStrbt c up rn rd off s
  | .ldr c ix up rn rd off => Sys2Proof.Machine.execLdr c ix up rn rd off s
  | .ldrb c ix up rn rd off => Sys2Proof.Machine.execLdrb c ix up rn rd off s
  | .str c ix up rn rd off => Sys2Proof.Machine.execStr c ix up rn rd off s
  | .strb c ix up rn rd off => Sys2Proof.Machine.execStrb c ix up rn rd off s
  | .swp c rn rd rm => Sys2Proof.Machine.execSwp c rn rd rm s
  | .swpb c rn rd rm => Sys2Proof.Machine.execSwpb c rn rd rm s
  | .mul c bit22 st rd rn rs rm => Sys2Proof.Machine.execMul c bit22 st rd rn rs rm s
  | .mla c bit22 st rd rn rs rm => Sys2Proof.Machine.execMla c bit22 st rd rn rs rm s
  | .umull c st rdHi rdLo rs rm => Sys2Proof.Machine.execUmull c st rdHi rdLo rs rm s
  | .umlal c st rdHi rdLo rs rm => Sys2Proof.Machine.execUmlal c st rdHi rdLo rs rm s
  | .smull c st rdHi rdLo rs rm => Sys2Proof.Machine.execSmull c st rdHi rdLo rs rm s
  | .smlal c st rdHi rdLo rs rm => Sys2Proof.Machine.execSmlal c st rdHi rdLo rs rm s
  | .strhReg c ix up rn rd rm => Sys2Proof.Machine.execStrhReg c ix up rn rd rm s
  | .ldrhReg c ix up rn rd rm => Sys2Proof.Machine.execLdrhReg c ix up rn rd rm s
  | .ldrsbReg c ix up rn rd rm => Sys2Proof.Machine.execLdrsbReg c ix up rn rd rm s
  | .ldrshReg c ix up rn rd rm => Sys2Proof.Machine.execLdrshReg c ix up rn rd rm s
  | .reservedStoreSh10Reg c ix up rn rd rm => Sys2Proof.Machine.execReservedStoreSh10Reg c ix up rn rd rm s
  | .reservedStoreSh11Reg c ix up rn rd rm => Sys2Proof.Machine.execReservedStoreSh11Reg c ix up rn rd rm s
  | .reservedSh00Reg c ix up load rn rd rm => Sys2Proof.Machine.execReservedSh00Reg c ix up load rn rd rm s
  | .strhImm c ix up rn rd off => Sys2Proof.Machine.execStrhImm c ix up rn rd off s
  | .ldrhImm c ix up rn rd off => Sys2Proof.Machine.execLdrhImm c ix up rn rd off s
  | .ldrsbImm c ix up rn rd off => Sys2Proof.Machine.execLdrsbImm c ix up rn rd off s
  | .ldrshImm c ix up rn rd off => Sys2Proof.Machine.execLdrshImm c ix up rn rd off s
  | .reservedStoreSh10Imm c ix up rn rd off => Sys2Proof.Machine.execReservedStoreSh10Imm c ix up rn rd off s
  | .reservedStoreSh11Imm c ix up rn rd off => Sys2Proof.Machine.execReservedStoreSh11Imm c ix up rn rd off s
  | .reservedSh00Imm c ix up load rn rd off => Sys2Proof.Machine.execReservedSh00Imm c ix up load rn rd off s
  | .mrs c spsr rd sbz => Sys2Proof.Machine.execMrs c spsr rd sbz s
  | .msrReg c spsr fmask sbz rm => Sys2Proof.Machine.execMsrReg c spsr fmask sbz rm s
  | .msrImm c spsr fmask rot imm8 => Sys2Proof.Machine.execMsrImm c spsr fmask rot imm8 s
  | .and c st rn rd o => Sys2Proof.Machine.execAnd c st rn rd o s
  | .eor c st rn rd o => Sys2Proof.Machine.execEor c st rn rd o s
  | .sub c st rn rd o => Sys2Proof.Machine.execSub c st rn rd o s
  | .rsb c st rn rd o => Sys2Proof.Machine.execRsb c st rn rd o s
  | .add c st rn rd o => Sys2Proof.Machine.execAdd c st rn rd o s
  | .adc c st rn rd o => Sys2Proof.Machine.execAdc c st rn rd o s
  | .sbc c st rn rd o => Sys2Proof.Machine.execSbc c st rn rd o s
  | .rsc c st rn rd o => Sys2Proof.Machine.execRsc c st rn rd o s
  | .tst c rn rd o => Sys2Proof.Machine.execTst c rn rd o s
  | .teq c rn rd o => Sys2Proof.Machine.execTeq c rn rd o s
  | .cmp c rn rd o => Sys2Proof.Machine.execCmp c rn rd o s
  | .cmn c rn rd o => Sys2Proof.Machine.execCmn c rn rd o s
  | .orr c st rn rd o => Sys2Proof.Machine.execOrr c st rn rd o s
  | .mov c st rn rd o => Sys2Proof.Machine.execMov c st rn rd o s
  | .bic c st rn rd o => Sys2Proof.Machine.execBic c st rn rd o s
  | .mvn c st rn rd o => Sys2Proof.Machine.execMvn c st rn rd o s
  | .reservedDp c op rn rd o => Sys2Proof.Machine.execReservedDp c op rn rd o s
  | .cdpMcrMrc c ignored => Sys2Proof.Machine.execCdpMcrMrc c ignored s
  | .ldcStc c ignored => Sys2Proof.Machine.execLdcStc c ignored s

end Sys2Proof.Machine
end

