-- ==== Sys2Proof/Machine/Step.lean ====
section
/-!
DEFINITION. One call of `step()` (40_step_and_pipeline.md rule R120), and the placing of an instruction where the next
step takes it.
-/

namespace Sys2Proof.Machine

/-- One step: reset, if the host applies it, in place of everything (60_exceptions.md rule R315; DEDUCED, log entry 15); the entry checks of
40_step_and_pipeline.md rule R121, the mode before T (where both refuse, the reason reported is a DESIGN CHOICE, log
entry 9); the interrupt sampling of 60_exceptions.md rule R322, an interrupt taken ending the
step; else the fetch and shift of rule R122 and the instruction that stood in `pipe[0]`. -/
def step (s : State) : Host.Outcome State Fault Refusal :=
  let i := s.nextInput
  let s := beginStep s
  if i.reset then .next (resetCore s)
  else
    match Mode.ofBits s.cpsr.m with
    | none => .refused .invalidMode
    | some _ =>
      if s.cpsr.t then .refused .thumbNotSpecified
      else
        match sampleInterrupts i s.cpsr with
        | some x => .next (takeException x (s.pc - 4) s)
        | none => exec (decode s.pipe0) (fetchShift s)

/-- The instruction placed where the next step takes it: in `pipe[0]`, and in memory at R15 - 8, the address it was
fetched from (10_state.md rule R30).  The bits above `nbits` are 0 (DESIGN CHOICE, log entry
8: how a program comes to run). -/
def State.withFetchWord (s : State) (nbits w : Nat) : State :=
  let word : Word := BitVec.ofNat 32 (w % 2 ^ nbits)
  { s with pipe0 := word, mem := s.mem.write32 (s.pc - 8) word }

end Sys2Proof.Machine
end

