-- ==== Sys2Proof/Machine/Classes.lean ====
section
/-!
DEFINITION. Classes of instructions that the claims name: which store, which write flags, which restore CPSR, which trap,
which write a status register by name.  No meaning reads them.
-/

namespace Sys2Proof

/-- The instructions that store to memory (20_memory.md rule R61): STM, STR, STRB, STRT, STRBT, SWP, SWPB, STRH. -/
def Instr.stores : Instr → Bool
  | .bx _ _ => false
  | .ldm _ _ _ _ _ _ => false
  | .stm _ _ _ _ _ _ => true
  | .b _ _ => false
  | .bl _ _ => false
  | .swi _ _ => false
  | .und _ _ _ => false
  | .ldrt _ _ _ _ _ => false
  | .ldrbt _ _ _ _ _ => false
  | .strt _ _ _ _ _ => true
  | .strbt _ _ _ _ _ => true
  | .ldr _ _ _ _ _ _ => false
  | .ldrb _ _ _ _ _ _ => false
  | .str _ _ _ _ _ _ => true
  | .strb _ _ _ _ _ _ => true
  | .swp _ _ _ _ => true
  | .swpb _ _ _ _ => true
  | .mul _ _ _ _ _ _ _ => false
  | .mla _ _ _ _ _ _ _ => false
  | .umull _ _ _ _ _ _ => false
  | .umlal _ _ _ _ _ _ => false
  | .smull _ _ _ _ _ _ => false
  | .smlal _ _ _ _ _ _ => false
  | .strhReg _ _ _ _ _ _ => true
  | .ldrhReg _ _ _ _ _ _ => false
  | .ldrsbReg _ _ _ _ _ _ => false
  | .ldrshReg _ _ _ _ _ _ => false
  | .reservedStoreSh10Reg _ _ _ _ _ _ => false
  | .reservedStoreSh11Reg _ _ _ _ _ _ => false
  | .reservedSh00Reg _ _ _ _ _ _ _ => false
  | .strhImm _ _ _ _ _ _ => true
  | .ldrhImm _ _ _ _ _ _ => false
  | .ldrsbImm _ _ _ _ _ _ => false
  | .ldrshImm _ _ _ _ _ _ => false
  | .reservedStoreSh10Imm _ _ _ _ _ _ => false
  | .reservedStoreSh11Imm _ _ _ _ _ _ => false
  | .reservedSh00Imm _ _ _ _ _ _ _ => false
  | .mrs _ _ _ _ => false
  | .msrReg _ _ _ _ _ => false
  | .msrImm _ _ _ _ _ => false
  | .and _ _ _ _ _ => false
  | .eor _ _ _ _ _ => false
  | .sub _ _ _ _ _ => false
  | .rsb _ _ _ _ _ => false
  | .add _ _ _ _ _ => false
  | .adc _ _ _ _ _ => false
  | .sbc _ _ _ _ _ => false
  | .rsc _ _ _ _ _ => false
  | .tst _ _ _ _ => false
  | .teq _ _ _ _ => false
  | .cmp _ _ _ _ => false
  | .cmn _ _ _ _ => false
  | .orr _ _ _ _ _ => false
  | .mov _ _ _ _ _ => false
  | .bic _ _ _ _ _ => false
  | .mvn _ _ _ _ _ => false
  | .reservedDp _ _ _ _ _ => false
  | .cdpMcrMrc _ _ => false
  | .ldcStc _ _ => false

/-- The forms that write flags from a result (10_state.md rule R21): S = 1, and the comparisons. -/
def Instr.setsFlags : Instr → Bool
  | .bx _ _ => false
  | .ldm _ _ _ _ _ _ => false
  | .stm _ _ _ _ _ _ => false
  | .b _ _ => false
  | .bl _ _ => false
  | .swi _ _ => false
  | .und _ _ _ => false
  | .ldrt _ _ _ _ _ => false
  | .ldrbt _ _ _ _ _ => false
  | .strt _ _ _ _ _ => false
  | .strbt _ _ _ _ _ => false
  | .ldr _ _ _ _ _ _ => false
  | .ldrb _ _ _ _ _ _ => false
  | .str _ _ _ _ _ _ => false
  | .strb _ _ _ _ _ _ => false
  | .swp _ _ _ _ => false
  | .swpb _ _ _ _ => false
  | .mul _ _ s _ _ _ _ => s
  | .mla _ _ s _ _ _ _ => s
  | .umull _ s _ _ _ _ => s
  | .umlal _ s _ _ _ _ => s
  | .smull _ s _ _ _ _ => s
  | .smlal _ s _ _ _ _ => s
  | .strhReg _ _ _ _ _ _ => false
  | .ldrhReg _ _ _ _ _ _ => false
  | .ldrsbReg _ _ _ _ _ _ => false
  | .ldrshReg _ _ _ _ _ _ => false
  | .reservedStoreSh10Reg _ _ _ _ _ _ => false
  | .reservedStoreSh11Reg _ _ _ _ _ _ => false
  | .reservedSh00Reg _ _ _ _ _ _ _ => false
  | .strhImm _ _ _ _ _ _ => false
  | .ldrhImm _ _ _ _ _ _ => false
  | .ldrsbImm _ _ _ _ _ _ => false
  | .ldrshImm _ _ _ _ _ _ => false
  | .reservedStoreSh10Imm _ _ _ _ _ _ => false
  | .reservedStoreSh11Imm _ _ _ _ _ _ => false
  | .reservedSh00Imm _ _ _ _ _ _ _ => false
  | .mrs _ _ _ _ => false
  | .msrReg _ _ _ _ _ => false
  | .msrImm _ _ _ _ _ => false
  | .and _ s _ _ _ => s
  | .eor _ s _ _ _ => s
  | .sub _ s _ _ _ => s
  | .rsb _ s _ _ _ => s
  | .add _ s _ _ _ => s
  | .adc _ s _ _ _ => s
  | .sbc _ s _ _ _ => s
  | .rsc _ s _ _ _ => s
  | .tst _ _ _ _ => true
  | .teq _ _ _ _ => true
  | .cmp _ _ _ _ => true
  | .cmn _ _ _ _ => true
  | .orr _ s _ _ _ => s
  | .mov _ s _ _ _ => s
  | .bic _ s _ _ _ => s
  | .mvn _ s _ _ _ => s
  | .reservedDp _ _ _ _ _ => false
  | .cdpMcrMrc _ _ => false
  | .ldcStc _ _ => false

/-- The forms that restore CPSR from an SPSR (42_data_processing.md rule R183): S = 1 with Rd = R15, no comparison. -/
def Instr.restores : Instr → Bool
  | .bx _ _ => false
  | .ldm _ _ _ _ _ _ => false
  | .stm _ _ _ _ _ _ => false
  | .b _ _ => false
  | .bl _ _ => false
  | .swi _ _ => false
  | .und _ _ _ => false
  | .ldrt _ _ _ _ _ => false
  | .ldrbt _ _ _ _ _ => false
  | .strt _ _ _ _ _ => false
  | .strbt _ _ _ _ _ => false
  | .ldr _ _ _ _ _ _ => false
  | .ldrb _ _ _ _ _ _ => false
  | .str _ _ _ _ _ _ => false
  | .strb _ _ _ _ _ _ => false
  | .swp _ _ _ _ => false
  | .swpb _ _ _ _ => false
  | .mul _ _ _ _ _ _ _ => false
  | .mla _ _ _ _ _ _ _ => false
  | .umull _ _ _ _ _ _ => false
  | .umlal _ _ _ _ _ _ => false
  | .smull _ _ _ _ _ _ => false
  | .smlal _ _ _ _ _ _ => false
  | .strhReg _ _ _ _ _ _ => false
  | .ldrhReg _ _ _ _ _ _ => false
  | .ldrsbReg _ _ _ _ _ _ => false
  | .ldrshReg _ _ _ _ _ _ => false
  | .reservedStoreSh10Reg _ _ _ _ _ _ => false
  | .reservedStoreSh11Reg _ _ _ _ _ _ => false
  | .reservedSh00Reg _ _ _ _ _ _ _ => false
  | .strhImm _ _ _ _ _ _ => false
  | .ldrhImm _ _ _ _ _ _ => false
  | .ldrsbImm _ _ _ _ _ _ => false
  | .ldrshImm _ _ _ _ _ _ => false
  | .reservedStoreSh10Imm _ _ _ _ _ _ => false
  | .reservedStoreSh11Imm _ _ _ _ _ _ => false
  | .reservedSh00Imm _ _ _ _ _ _ _ => false
  | .mrs _ _ _ _ => false
  | .msrReg _ _ _ _ _ => false
  | .msrImm _ _ _ _ _ => false
  | .and _ s _ rd _ => s && rd == 15
  | .eor _ s _ rd _ => s && rd == 15
  | .sub _ s _ rd _ => s && rd == 15
  | .rsb _ s _ rd _ => s && rd == 15
  | .add _ s _ rd _ => s && rd == 15
  | .adc _ s _ rd _ => s && rd == 15
  | .sbc _ s _ rd _ => s && rd == 15
  | .rsc _ s _ rd _ => s && rd == 15
  | .tst _ _ _ _ => false
  | .teq _ _ _ _ => false
  | .cmp _ _ _ _ => false
  | .cmn _ _ _ _ => false
  | .orr _ s _ rd _ => s && rd == 15
  | .mov _ s _ rd _ => s && rd == 15
  | .bic _ s _ rd _ => s && rd == 15
  | .mvn _ s _ rd _ => s && rd == 15
  | .reservedDp _ _ _ _ _ => false
  | .cdpMcrMrc _ _ => false
  | .ldcStc _ _ => false

/-- The instructions that raise an exception (60_exceptions.md rule R313): SWI, Undefined, the coprocessor space. -/
def Instr.traps : Instr → Bool
  | .bx _ _ => false
  | .ldm _ _ _ _ _ _ => false
  | .stm _ _ _ _ _ _ => false
  | .b _ _ => false
  | .bl _ _ => false
  | .swi _ _ => true
  | .und _ _ _ => true
  | .ldrt _ _ _ _ _ => false
  | .ldrbt _ _ _ _ _ => false
  | .strt _ _ _ _ _ => false
  | .strbt _ _ _ _ _ => false
  | .ldr _ _ _ _ _ _ => false
  | .ldrb _ _ _ _ _ _ => false
  | .str _ _ _ _ _ _ => false
  | .strb _ _ _ _ _ _ => false
  | .swp _ _ _ _ => false
  | .swpb _ _ _ _ => false
  | .mul _ _ _ _ _ _ _ => false
  | .mla _ _ _ _ _ _ _ => false
  | .umull _ _ _ _ _ _ => false
  | .umlal _ _ _ _ _ _ => false
  | .smull _ _ _ _ _ _ => false
  | .smlal _ _ _ _ _ _ => false
  | .strhReg _ _ _ _ _ _ => false
  | .ldrhReg _ _ _ _ _ _ => false
  | .ldrsbReg _ _ _ _ _ _ => false
  | .ldrshReg _ _ _ _ _ _ => false
  | .reservedStoreSh10Reg _ _ _ _ _ _ => false
  | .reservedStoreSh11Reg _ _ _ _ _ _ => false
  | .reservedSh00Reg _ _ _ _ _ _ _ => false
  | .strhImm _ _ _ _ _ _ => false
  | .ldrhImm _ _ _ _ _ _ => false
  | .ldrsbImm _ _ _ _ _ _ => false
  | .ldrshImm _ _ _ _ _ _ => false
  | .reservedStoreSh10Imm _ _ _ _ _ _ => false
  | .reservedStoreSh11Imm _ _ _ _ _ _ => false
  | .reservedSh00Imm _ _ _ _ _ _ _ => false
  | .mrs _ _ _ _ => false
  | .msrReg _ _ _ _ _ => false
  | .msrImm _ _ _ _ _ => false
  | .and _ _ _ _ _ => false
  | .eor _ _ _ _ _ => false
  | .sub _ _ _ _ _ => false
  | .rsb _ _ _ _ _ => false
  | .add _ _ _ _ _ => false
  | .adc _ _ _ _ _ => false
  | .sbc _ _ _ _ _ => false
  | .rsc _ _ _ _ _ => false
  | .tst _ _ _ _ => false
  | .teq _ _ _ _ => false
  | .cmp _ _ _ _ => false
  | .cmn _ _ _ _ => false
  | .orr _ _ _ _ _ => false
  | .mov _ _ _ _ _ => false
  | .bic _ _ _ _ _ => false
  | .mvn _ _ _ _ _ => false
  | .reservedDp _ _ _ _ _ => false
  | .cdpMcrMrc _ _ => true
  | .ldcStc _ _ => true

/-- The instructions that write a status register by name (49_psr_transfer.md): the two forms of MSR. -/
def Instr.writesPsr : Instr → Bool
  | .bx _ _ => false
  | .ldm _ _ _ _ _ _ => false
  | .stm _ _ _ _ _ _ => false
  | .b _ _ => false
  | .bl _ _ => false
  | .swi _ _ => false
  | .und _ _ _ => false
  | .ldrt _ _ _ _ _ => false
  | .ldrbt _ _ _ _ _ => false
  | .strt _ _ _ _ _ => false
  | .strbt _ _ _ _ _ => false
  | .ldr _ _ _ _ _ _ => false
  | .ldrb _ _ _ _ _ _ => false
  | .str _ _ _ _ _ _ => false
  | .strb _ _ _ _ _ _ => false
  | .swp _ _ _ _ => false
  | .swpb _ _ _ _ => false
  | .mul _ _ _ _ _ _ _ => false
  | .mla _ _ _ _ _ _ _ => false
  | .umull _ _ _ _ _ _ => false
  | .umlal _ _ _ _ _ _ => false
  | .smull _ _ _ _ _ _ => false
  | .smlal _ _ _ _ _ _ => false
  | .strhReg _ _ _ _ _ _ => false
  | .ldrhReg _ _ _ _ _ _ => false
  | .ldrsbReg _ _ _ _ _ _ => false
  | .ldrshReg _ _ _ _ _ _ => false
  | .reservedStoreSh10Reg _ _ _ _ _ _ => false
  | .reservedStoreSh11Reg _ _ _ _ _ _ => false
  | .reservedSh00Reg _ _ _ _ _ _ _ => false
  | .strhImm _ _ _ _ _ _ => false
  | .ldrhImm _ _ _ _ _ _ => false
  | .ldrsbImm _ _ _ _ _ _ => false
  | .ldrshImm _ _ _ _ _ _ => false
  | .reservedStoreSh10Imm _ _ _ _ _ _ => false
  | .reservedStoreSh11Imm _ _ _ _ _ _ => false
  | .reservedSh00Imm _ _ _ _ _ _ _ => false
  | .mrs _ _ _ _ => false
  | .msrReg _ _ _ _ _ => true
  | .msrImm _ _ _ _ _ => true
  | .and _ _ _ _ _ => false
  | .eor _ _ _ _ _ => false
  | .sub _ _ _ _ _ => false
  | .rsb _ _ _ _ _ => false
  | .add _ _ _ _ _ => false
  | .adc _ _ _ _ _ => false
  | .sbc _ _ _ _ _ => false
  | .rsc _ _ _ _ _ => false
  | .tst _ _ _ _ => false
  | .teq _ _ _ _ => false
  | .cmp _ _ _ _ => false
  | .cmn _ _ _ _ => false
  | .orr _ _ _ _ _ => false
  | .mov _ _ _ _ _ => false
  | .bic _ _ _ _ _ => false
  | .mvn _ _ _ _ _ => false
  | .reservedDp _ _ _ _ _ => false
  | .cdpMcrMrc _ _ => false
  | .ldcStc _ _ => false

/-- The data-processing instruction of an operation (30_encoding.md rule R99); the four comparisons have no S of their own
(42_data_processing.md rule R184), and `s` is not read for them. -/
def Instr.dataProcessing (op : Machine.AluOp) (c : Cond) (s : Bool) (rn rd : Reg) (o : Operand2) : Instr :=
  match op with
  | .and => .and c s rn rd o
  | .eor => .eor c s rn rd o
  | .sub => .sub c s rn rd o
  | .rsb => .rsb c s rn rd o
  | .add => .add c s rn rd o
  | .adc => .adc c s rn rd o
  | .sbc => .sbc c s rn rd o
  | .rsc => .rsc c s rn rd o
  | .tst => .tst c rn rd o
  | .teq => .teq c rn rd o
  | .cmp => .cmp c rn rd o
  | .cmn => .cmn c rn rd o
  | .orr => .orr c s rn rd o
  | .mov => .mov c s rn rd o
  | .bic => .bic c s rn rd o
  | .mvn => .mvn c s rn rd o

end Sys2Proof
end

