-- ==== Sys2Proof/Machine/HostOps.lean ====
section
/-!
DEFINITION. The operations the core exposes to its host between steps (60_exceptions.md rule R340), beside `step`
(DESIGN CHOICE, log entry 19).
-/

namespace Sys2Proof.Machine

/-- `register(i)`: `x[i]` in the current mode; none when CPSR holds no mode, which the host must not construct (rule
R341). -/
def hostRegister (i : Reg) (s : State) : Option Word := (Mode.ofBits s.cpsr.m).map fun md => readReg md i s

/-- `set_register(i, v)`: for R15 the raw register, with no refill. -/
def hostSetRegister (i : Reg) (v : Word) (s : State) : Option State :=
  (Mode.ofBits s.cpsr.m).map fun md => writeReg md i v s

/-- `set_program_counter(v)`: R15 only; the slots are stale until the refill. -/
def hostSetProgramCounter (v : Word) (s : State) : State := s.withPc v

/-- `status_register()`. -/
def hostStatusRegister (s : State) : Word := s.cpsr.toWord

/-- The refill: `Flush(R15)`. -/
def hostRefill (s : State) : State := flush s.pc s

/-- The reset operation (70_reset_and_hazards.md rule R350), applied between steps. -/
def hostReset (s : State) : State := resetCore s

/-- What `step` returns: the access kind left in `next_fetch_kind`. -/
def hostStepResult (s : State) : AccessKind := s.nextFetchKind

/-- A launch without reset (70_reset_and_hazards.md rule R352): a state the host constructs, its list of calls empty, and
the flush to the entry address. -/
def launch (entry : Word) (s : State) : State := flush entry { s with calls := [] }

end Sys2Proof.Machine
end

