-- ==== Sys2Proof/Safety.lean ====
section
/-!
DEFINITION. The terms claims are stated in: a sound state, a safe run, when an instruction executes, what it leaves
unchanged, and the effect of each shape of instruction said field by field.
-/

namespace Sys2Proof.Machine

/-! ### Sound states and runs -/

/-- The mode field is one of the seven patterns (10_state.md rule R24: the invariant of the core). -/
def State.modeValid (s : State) : Bool := (Mode.ofBits s.cpsr.m).isSome

/-- Bits 1:0 of R15 are 0 in ARM state (10_state.md rule R19), bit 0 in Thumb state (40_step_and_pipeline.md rule R126). -/
def State.pcAligned (s : State) : Bool := if s.cpsr.t then !s.pc.getLsbD 0 else s.pc.extractLsb' 0 2 == 0#2

/-- The invariant of the core and of its memory: a valid mode, an aligned R15, memory in canonical form. -/
def State.Inv (s : State) : Prop := s.modeValid = true ∧ s.pcAligned = true ∧ s.mem.wf = true

/-- A run of `n` steps that no refusal ends. -/
def SafeRun (n : Nat) (s : State) : Prop := ∃ t, Sys2Proof.core.run n s = .next t

/-- The states some run of steps reaches from `s`. -/
inductive Reaches (s : State) : State → Prop where
  | refl : Reaches s s
  | step {t u : State} : Reaches s t → Sys2Proof.Machine.step t = .next u → Reaches s u

/-! ### When an instruction executes -/

/-- ARM state, mode `md`, and the condition passes (40_step_and_pipeline.md rules R120, R121). -/
def Ready (c : Cond) (md : Mode) (s : State) : Prop :=
  s.cpsr.t = false ∧ Mode.ofBits s.cpsr.m = some md ∧ condPassed c s.cpsr = true

/-- A class U form is absent, or the model argument lets it execute (00_scope.md rule R8). -/
def Allows (isForm : Bool) (s : State) : Prop := isForm = false ∨ s.params.strictUnpredictable = false

/-! ### What is left unchanged -/

/-- No general register changes but those of the list, and R15, of which `Ended` speaks. -/
def RegsKept (but : List PhysReg) (s t : State) : Prop :=
  ∀ p : PhysReg, p ≠ .r15 → p ∉ but → t.regs.get p = s.regs.get p

/-- Every byte reads as before. -/
def MemKept (s t : State) : Prop := ∀ a : Word, t.mem.read8 a = s.mem.read8 a

/-- Every byte outside the `n` bytes from `a` on reads as before. -/
def MemKeptOutside (a : Word) (n : Nat) (s t : State) : Prop :=
  ∀ b : Word, (∀ i : Nat, i < n → b ≠ a + BitVec.ofNat 32 i) → t.mem.read8 b = s.mem.read8 b

/-- I, F, T and the mode are unchanged. -/
def ControlKept (s t : State) : Prop :=
  t.cpsr.i = s.cpsr.i ∧ t.cpsr.f = s.cpsr.f ∧ t.cpsr.t = s.cpsr.t ∧ t.cpsr.m = s.cpsr.m

/-- N, Z, C, V are unchanged. -/
def FlagsKept (s t : State) : Prop :=
  t.cpsr.n = s.cpsr.n ∧ t.cpsr.z = s.cpsr.z ∧ t.cpsr.c = s.cpsr.c ∧ t.cpsr.v = s.cpsr.v

/-- The frame of an instruction: no general register but those listed, no SPSR, none of the model's own fields that a step
takes its inputs from. -/
def Frame (but : List PhysReg) (s t : State) : Prop :=
  RegsKept but s t ∧ t.spsr = s.spsr ∧ t.params = s.params ∧ t.inputs = s.inputs

/-! ### How an instruction ends -/

/-- The two calls of a refill at a target (40_step_and_pipeline.md rule R126). -/
def refillCalls (m : Memory) (target : Word) : List BusCall :=
  [.load .word (wordAddr target) .nonSequential (m.read32 (wordAddr target)),
    .load .word (wordAddr target + 4) .sequential (m.read32 (wordAddr target + 4))]

/-- The end of an instruction in ARM state that made the calls `data` and wrote the program counter with the values
`targets`, in that order: the advance with kind `k` when there is none, else the flush to the last of them
(40_step_and_pipeline.md rules R125, R126, R128). -/
def Ended (targets : List Word) (k : AccessKind) (data : List BusCall) (s t : State) : Prop :=
  t.calls = s.calls ++ data ++ targets.flatMap (refillCalls t.mem) ∧
    match targets.getLast? with
    | none => t.pc = s.pc + 4 ∧ t.nextFetchKind = k ∧ t.pipe0 = s.pipe0 ∧ t.pipe1 = s.pipe1
    | some v => t.pc = wordAddr v + 8 ∧ t.nextFetchKind = .sequential ∧ t.pipe0 = t.mem.read32 (wordAddr v) ∧
        t.pipe1 = t.mem.read32 (wordAddr v + 4)

/-- The word as a list if the register is R15, none else: the program-counter writes of a register write. -/
def pcTarget (i : Reg) (v : Word) : List Word := if i = 15 then [v] else []

/-! ### Single transfers -/

/-- The value a load gives its register (20_memory.md rules R57, R61). -/
def loadedWord (ld : LoadKind) (a : Word) (m : Memory) : Word :=
  match ld with
  | .word => (m.read32 (wordAddr a)).rotateRight (8 * (a.extractLsb' 0 2).toNat)
  | .byte => (m.read8 a).setWidth 32
  | .half => (m.read8 (a + 1) ++ m.read8 a).setWidth 32
  | .signedByte => (m.read8 a).signExtend 32
  | .signedHalf => (m.read8 (a + 1) ++ m.read8 a).signExtend 32

/-- The call a load makes (70_reset_and_hazards.md rule R363: kind N). -/
def loadCall (ld : LoadKind) (a : Word) (m : Memory) : BusCall :=
  match ld with
  | .word => .load .word (wordAddr a) .nonSequential (m.read32 (wordAddr a))
  | .byte => .load .byte a .nonSequential ((m.read8 a).setWidth 32)
  | .half => .load .half a .nonSequential ((m.read16 a).setWidth 32)
  | .signedByte => .load .byte a .nonSequential ((m.read8 a).setWidth 32)
  | .signedHalf => .load .half a .nonSequential ((m.read16 a).setWidth 32)

/-- How many bytes a store writes (20_memory.md rule R61). -/
def StoreKind.bytes : StoreKind → Nat
  | .word => 4 | .half => 2 | .byte => 1

/-- The lowest address a store writes (20_memory.md rule R58: a word store ignores bits 1:0). -/
def StoreKind.address (st : StoreKind) (a : Word) : Word :=
  match st with
  | .word => wordAddr a | .half => a | .byte => a

/-- The call a store makes. -/
def storeCall (st : StoreKind) (a v : Word) : BusCall :=
  match st with
  | .word => .store .word (wordAddr a) .nonSequential v
  | .half => .store .half a .nonSequential ((v.setWidth 16).setWidth 32)
  | .byte => .store .byte a .nonSequential ((v.setWidth 8).setWidth 32)

/-- The effect of a load on the registers, the memory and the program counter (45_single_data_transfer.md rules R232,
R233, R235): the base written back, then Rd, each of which is a program-counter write if it is R15 (two flushes where both
are: DEDUCED, log entry 12). -/
def LoadEffect (ld : LoadKind) (ix : Indexing) (up : Bool) (rn rd : Reg) (off : Word) (k : AccessKind) (md : Mode)
    (s t : State) : Prop :=
  let base := readReg md rn s
  let target := if up then base + off else base - off
  let a := if ix.p then target else base
  let wb := !ix.p || ix.w
  let v := loadedWord ld a s.mem
  (rd ≠ 15 → readReg md rd t = v) ∧ (wb = true → rn ≠ 15 → rn ≠ rd → readReg md rn t = target) ∧
    Frame (phys rd md :: if wb then [phys rn md] else []) s t ∧ t.cpsr = s.cpsr ∧ MemKept s t ∧
    t.freeCount = s.freeCount ∧
    Ended ((if wb then pcTarget rn target else []) ++ pcTarget rd v) k [loadCall ld a s.mem] s t

/-- The effect of a store (45_single_data_transfer.md rule R235): the bytes of the source at the address, every other byte
as before, the base written back (the word of a written-back base R15 that is Rd: DESIGN CHOICE, log entry 20). -/
def StoreEffect (st : StoreKind) (ix : Indexing) (up : Bool) (rn rd : Reg) (off : Word) (k : AccessKind) (md : Mode)
    (s t : State) : Prop :=
  let base := readReg md rn s
  let target := if up then base + off else base - off
  let a := if ix.p then target else base
  let wb := !ix.p || ix.w
  let v := if rd = 15 then s.pc - 8 + s.params.pcStoreOffset else readReg md rd s
  (∀ i : Nat, i < st.bytes → t.mem.read8 (st.address a + BitVec.ofNat 32 i) = v.extractLsb' (8 * i) 8) ∧
    MemKeptOutside (st.address a) st.bytes s t ∧ (wb = true → rn ≠ 15 → readReg md rn t = target) ∧
    Frame (if wb then [phys rn md] else []) s t ∧ t.cpsr = s.cpsr ∧ t.freeCount = s.freeCount ∧
    Ended (if wb then pcTarget rn target else []) k [storeCall st a v] s t

/-- The address of a transfer is odd (46_halfword_transfer.md rule R258). -/
def oddAddress (ix : Indexing) (up : Bool) (rn : Reg) (off : Word) (md : Mode) (s : State) : Bool :=
  let base := readReg md rn s
  (if ix.p then (if up then base + off else base - off) else base).getLsbD 0

/-! ### Block transfers -/

/-- How many registers of the list are below `n`: the place of register `n` among the transfers
(47_block_data_transfer.md rule R266). -/
def slotOf (list : BitVec 16) (n : Nat) : Nat := ((List.range n).filter fun i => list.getLsbD i).length

/-- The address of the transfer at place `j` (47_block_data_transfer.md rule R266). -/
def slotAddr (m : BlockMode) (base : Word) (list : BitVec 16) (j : Nat) : Word :=
  let n := slotOf list 16
  let start := match m with
    | .ia => base
    | .ib => base + 4
    | .da => base - BitVec.ofNat 32 (4 * n) + 4
    | .db => base - BitVec.ofNat 32 (4 * n)
  wordAddr (start + BitVec.ofNat 32 (4 * j))

/-- The base written back by a block transfer (47_block_data_transfer.md rules R266, R268). -/
def blockBase (m : BlockMode) (base : Word) (list : BitVec 16) : Word :=
  if m.u then base + BitVec.ofNat 32 (4 * slotOf list 16) else base - BitVec.ofNat 32 (4 * slotOf list 16)

/-- The kind of the transfer at place `j` (47_block_data_transfer.md rule R267). -/
def slotKind (j : Nat) : AccessKind := if j = 0 then .nonSequential else .sequential

/-- The effect of LDM (47_block_data_transfer.md rule R271): each register of the list takes its word, the base is written
back after the transfers; R15 of the list and a written-back base R15 are program-counter writes, the write-back the last
(rule R269; DEDUCED, log entry 12). -/
def LdmEffect (m : BlockMode) (wb : Bool) (rn : Reg) (list : BitVec 16) (md : Mode) (s t : State) : Prop :=
  let base := readReg md rn s
  let word := fun n => s.mem.read32 (slotAddr m base list (slotOf list n))
  (∀ r : Reg, r ≠ 15 → list.getLsbD r.toNat = true → ¬(wb = true ∧ r = rn) → readReg md r t = word r.toNat) ∧
    (wb = true → rn ≠ 15 → readReg md rn t = blockBase m base list) ∧
    (∀ p : PhysReg, p ≠ .r15 → (∀ r : Reg, list.getLsbD r.toNat = true ∨ (wb = true ∧ r = rn) → p ≠ phys r md) →
      t.regs.get p = s.regs.get p) ∧
    t.spsr = s.spsr ∧ t.params = s.params ∧ t.inputs = s.inputs ∧ t.cpsr = s.cpsr ∧ MemKept s t ∧
    t.freeCount = s.freeCount ∧
    Ended ((if list.getLsbD 15 then [word 15] else []) ++ if wb then pcTarget rn (blockBase m base list) else [])
      s.params.nextFetchKind.blockDataTransfer
      ((List.range (slotOf list 16)).map fun j =>
        .load .word (slotAddr m base list j) (slotKind j) (s.mem.read32 (slotAddr m base list j))) s t

/-- The effect of STM (47_block_data_transfer.md rule R272): each register of the list goes to its word, every other byte is
as before, the base is written back last (the word stored for a written-back base R15: DESIGN CHOICE, log entry 20; its
flush with the empty list: DEDUCED, log entry 12). -/
def StmEffect (m : BlockMode) (wb : Bool) (rn : Reg) (list : BitVec 16) (md : Mode) (s t : State) : Prop :=
  let base := readReg md rn s
  let source := fun r : Reg => if r = 15 then s.pc - 8 + s.params.pcStoreOffset else readReg md r s
  (∀ r : Reg, list.getLsbD r.toNat = true →
      t.mem.read32 (slotAddr m base list (slotOf list r.toNat)) = source r) ∧
    (∀ b : Word, (∀ j i : Nat, j < slotOf list 16 → i < 4 → b ≠ slotAddr m base list j + BitVec.ofNat 32 i) →
      t.mem.read8 b = s.mem.read8 b) ∧
    (wb = true → rn ≠ 15 → readReg md rn t = blockBase m base list) ∧
    Frame (if wb then [phys rn md] else []) s t ∧ t.cpsr = s.cpsr ∧ t.freeCount = s.freeCount ∧
    Ended (if wb then pcTarget rn (blockBase m base list) else []) s.params.nextFetchKind.blockDataTransfer
      ((listRegs list).map fun r =>
        .store .word (slotAddr m base list (slotOf list r.toNat)) (slotKind (slotOf list r.toNat)) (source r)) s t

/-! ### Multiplies -/

/-- The flags after a multiply (44_multiply.md rule R221); C under the policy `draw` is any value, and nothing is said of
it. -/
def MulFlags (setFlags top isZero : Bool) (s t : State) : Prop :=
  ControlKept s t ∧ t.cpsr.v = s.cpsr.v ∧
    (setFlags = false → FlagsKept s t ∧ t.freeCount = s.freeCount) ∧
    (setFlags = true → t.cpsr.n = top ∧ t.cpsr.z = isZero) ∧
    (s.params.mulCPolicy = .untouched → t.cpsr.c = s.cpsr.c ∧ t.freeCount = s.freeCount)

/-- The effect of a 32-bit multiply with the result `r`. -/
def MulEffect (setFlags : Bool) (rd : Reg) (r : Word) (md : Mode) (s t : State) : Prop :=
  (rd ≠ 15 → readReg md rd t = r) ∧ MulFlags setFlags (r.getLsbD 31) (r == 0) s t ∧ Frame [phys rd md] s t ∧
    MemKept s t ∧ Ended (pcTarget rd r) s.params.nextFetchKind.multiply [] s t

/-- The effect of a long multiply with the 64-bit result `r`: RdLo written first, so that RdHi = RdLo ends with the high
word (44_multiply.md rule R224); a flush for each half that goes to R15 (DEDUCED, log entry 12). -/
def MullEffect (setFlags : Bool) (rdHi rdLo : Reg) (r : BitVec 64) (md : Mode) (s t : State) : Prop :=
  (rdHi ≠ 15 → readReg md rdHi t = r.extractLsb' 32 32) ∧
    (rdLo ≠ 15 → rdLo ≠ rdHi → readReg md rdLo t = r.extractLsb' 0 32) ∧
    MulFlags setFlags (r.getLsbD 63) (r == 0) s t ∧ Frame [phys rdHi md, phys rdLo md] s t ∧ MemKept s t ∧
    Ended (pcTarget rdLo (r.extractLsb' 0 32) ++ pcTarget rdHi (r.extractLsb' 32 32))
      s.params.nextFetchKind.multiplyLong [] s t

/-! ### Exceptions -/

/-- The state after exception entry (60_exceptions.md rule R316), field by field: mode and vector, SPSR and link register of
the mode entered, CPSR, the refill, and everything else as before. -/
def Entered (e : ExcMode) (vector lr : Word) (setsF : Bool) (s t : State) : Prop :=
  t.spsr.get e = s.cpsr ∧ (∀ d : ExcMode, d ≠ e → t.spsr.get d = s.spsr.get d) ∧
    t.cpsr = { s.cpsr with m := e.mode.bits, t := false, i := true, f := s.cpsr.f || setsF } ∧
    readReg e.mode 14 t = lr ∧ RegsKept [phys 14 e.mode] s t ∧ MemKept s t ∧ t.params = s.params ∧
    t.inputs = s.inputs ∧ t.freeCount = s.freeCount ∧ Ended [vector] .sequential [] s t

/-! ### Writes of a status register -/

/-- The outcome of an MSR to CPSR with operand `w` (49_psr_transfer.md rules R297 to R301), case by case. -/
def MsrCpsrOutcome (fmask : BitVec 4) (w : Word) (md : Mode) (s : State) (r : Result) : Prop :=
  let flagByte := fmask.getLsbD 3
  let control := fmask.getLsbD 0
  let mode := Mode.ofBits (w.extractLsb' 0 5)
  (control = true → md = .user → r = .refused .userModePrivilegedWrite) ∧
    (control = true → md ≠ .user → w.getLsbD 5 = true → r = .refused .stateBitChangeByMsr) ∧
    (control = true → md ≠ .user → w.getLsbD 5 = false → mode = none → r = .refused .invalidMode) ∧
    ((control = true → md ≠ .user ∧ w.getLsbD 5 = false ∧ mode.isSome = true) →
      ∃ t, r = .next t ∧
        t.cpsr = { n := if flagByte then w.getLsbD 31 else s.cpsr.n
                   z := if flagByte then w.getLsbD 30 else s.cpsr.z
                   c := if flagByte then w.getLsbD 29 else s.cpsr.c
                   v := if flagByte then w.getLsbD 28 else s.cpsr.v
                   i := if control then w.getLsbD 7 else s.cpsr.i
                   f := if control then w.getLsbD 6 else s.cpsr.f
                   t := s.cpsr.t
                   m := if control then w.extractLsb' 0 5 else s.cpsr.m } ∧
        Frame [] s t ∧ MemKept s t ∧ t.freeCount = s.freeCount ∧ Ended [] s.params.nextFetchKind.registerToPsr [] s t)

/-- The outcome of an MSR to the SPSR of the current mode with operand `w` (49_psr_transfer.md rule R298): nothing of the
value is checked. -/
def MsrSpsrOutcome (fmask : BitVec 4) (w : Word) (md : Mode) (s : State) (r : Result) : Prop :=
  let flagByte := fmask.getLsbD 3
  let control := fmask.getLsbD 0
  (md.excMode = none → r = .refused .noSavedStatusRegister) ∧
    ∀ e, md.excMode = some e → ∃ t, r = .next t ∧
      t.spsr.get e = { n := if flagByte then w.getLsbD 31 else (s.spsr.get e).n
                       z := if flagByte then w.getLsbD 30 else (s.spsr.get e).z
                       c := if flagByte then w.getLsbD 29 else (s.spsr.get e).c
                       v := if flagByte then w.getLsbD 28 else (s.spsr.get e).v
                       i := if control then w.getLsbD 7 else (s.spsr.get e).i
                       f := if control then w.getLsbD 6 else (s.spsr.get e).f
                       t := if control then w.getLsbD 5 else (s.spsr.get e).t
                       m := if control then w.extractLsb' 0 5 else (s.spsr.get e).m } ∧
      (∀ d, d ≠ e → t.spsr.get d = s.spsr.get d) ∧ RegsKept [] s t ∧ t.cpsr = s.cpsr ∧ MemKept s t ∧
      t.params = s.params ∧ t.inputs = s.inputs ∧ t.freeCount = s.freeCount ∧
      Ended [] s.params.nextFetchKind.registerToPsr [] s t

end Sys2Proof.Machine
end

