-- ==== Sys2Proof/Certificates/Slice0/Obligations.lean ====
section
/-!
DEFINITION. The statements for the provers.  Each docstring names the rules of the spec it formalises.
-/

open Sys2Proof Sys2Proof.Machine

/-! ### Condition evaluator, ALU, shifter -/

/-- The truth table of 41_condition_shifter_alu.md rule R140, and the number of each condition. -/
def Obligations.ConditionTruthTable : Prop :=
  (List.range 16).map (fun n => Cond.ofBits (BitVec.ofNat 4 n)) =
    [.eq, .ne, .cs, .cc, .mi, .pl, .vs, .vc, .hi, .ls, .ge, .lt, .gt, .le, .al, .nv] ∧
  ∀ p : Psr,
    (condPassed .eq p = true ↔ p.z = true) ∧ (condPassed .ne p = true ↔ p.z = false) ∧
    (condPassed .cs p = true ↔ p.c = true) ∧ (condPassed .cc p = true ↔ p.c = false) ∧
    (condPassed .mi p = true ↔ p.n = true) ∧ (condPassed .pl p = true ↔ p.n = false) ∧
    (condPassed .vs p = true ↔ p.v = true) ∧ (condPassed .vc p = true ↔ p.v = false) ∧
    (condPassed .hi p = true ↔ p.c = true ∧ p.z = false) ∧ (condPassed .ls p = true ↔ p.c = false ∨ p.z = true) ∧
    (condPassed .ge p = true ↔ p.n = p.v) ∧ (condPassed .lt p = true ↔ p.n ≠ p.v) ∧
    (condPassed .gt p = true ↔ p.z = false ∧ p.n = p.v) ∧ (condPassed .le p = true ↔ p.z = true ∨ p.n ≠ p.v) ∧
    condPassed .al p = true

/-- 41_condition_shifter_alu.md rule R161: result, carry and both forms of overflow of the one arithmetic primitive. -/
def Obligations.AddWithCarryIsExact : Prop :=
  ∀ (a b : Word) (cin : Bool),
    (addWithCarry a b cin).value.toNat = (a.toNat + b.toNat + cin.toNat) % 2 ^ 32 ∧
    ((addWithCarry a b cin).c = true ↔ 2 ^ 32 ≤ a.toNat + b.toNat + cin.toNat) ∧
    ((addWithCarry a b cin).v = true ↔
      a.toInt + b.toInt + (cin.toNat : Int) ≠ (addWithCarry a b cin).value.toInt) ∧
    (addWithCarry a b cin).v = (~~~(a ^^^ b) &&& (a ^^^ (addWithCarry a b cin).value)).getLsbD 31

/-- 41_condition_shifter_alu.md rules R160, R162, R163: the result of each of the sixteen operations, N and Z of all of
them, C and V of each group, and C after SUB and CMP as the complement of the borrow. -/
def Obligations.AluOperationTable : Prop :=
  ∀ (a b : Word) (sc cin vOld : Bool),
    (∀ op : AluOp, (alu op a b sc cin vOld).n = (alu op a b sc cin vOld).value.getLsbD 31 ∧
      ((alu op a b sc cin vOld).z = true ↔ (alu op a b sc cin vOld).value = 0)) ∧
    (∀ op ∈ [AluOp.and, .eor, .tst, .teq, .orr, .mov, .bic, .mvn],
      (alu op a b sc cin vOld).c = sc ∧ (alu op a b sc cin vOld).v = vOld) ∧
    (alu .and a b sc cin vOld).value = a &&& b ∧ (alu .tst a b sc cin vOld).value = a &&& b ∧
    (alu .eor a b sc cin vOld).value = a ^^^ b ∧ (alu .teq a b sc cin vOld).value = a ^^^ b ∧
    (alu .orr a b sc cin vOld).value = a ||| b ∧ (alu .bic a b sc cin vOld).value = a &&& ~~~b ∧
    (alu .mov a b sc cin vOld).value = b ∧ (alu .mvn a b sc cin vOld).value = ~~~b ∧
    (∀ op ∈ [AluOp.add, .cmn], alu op a b sc cin vOld = addWithCarry a b false ∧
      (alu op a b sc cin vOld).value = a + b) ∧
    (alu .adc a b sc cin vOld = addWithCarry a b cin ∧
      (alu .adc a b sc cin vOld).value = a + b + (if cin then 1 else 0)) ∧
    (∀ op ∈ [AluOp.sub, .cmp], alu op a b sc cin vOld = addWithCarry a (~~~b) true ∧
      (alu op a b sc cin vOld).value = a - b ∧ ((alu op a b sc cin vOld).c = true ↔ b.toNat ≤ a.toNat)) ∧
    (alu .rsb a b sc cin vOld = addWithCarry b (~~~a) true ∧ (alu .rsb a b sc cin vOld).value = b - a) ∧
    (alu .sbc a b sc cin vOld = addWithCarry a (~~~b) cin ∧
      (alu .sbc a b sc cin vOld).value = a - b - (if cin then 0 else 1)) ∧
    (alu .rsc a b sc cin vOld = addWithCarry b (~~~a) cin ∧
      (alu .rsc a b sc cin vOld).value = b - a - (if cin then 0 else 1))

/-- 41_condition_shifter_alu.md rules R151 to R155: the four shifts by `n` places and the extended rotate, the results as
numbers (LSL, LSR, ASR) or bit by bit (ROR, RRX), and the carry-out of each range of `n`. -/
def Obligations.BarrelShifter : Prop :=
  ∀ (v : Word) (n : Nat), 1 ≤ n →
    ((shiftBy .lsl v n).1.toNat = v.toNat * 2 ^ n % 2 ^ 32 ∧
      (n ≤ 32 → (shiftBy .lsl v n).2 = v.getLsbD (32 - n)) ∧ (32 < n → (shiftBy .lsl v n).2 = false)) ∧
    ((shiftBy .lsr v n).1.toNat = v.toNat / 2 ^ n ∧
      (n ≤ 32 → (shiftBy .lsr v n).2 = v.getLsbD (n - 1)) ∧ (32 < n → (shiftBy .lsr v n).2 = false)) ∧
    ((shiftBy .asr v n).1.toInt = v.toInt / 2 ^ n ∧
      (n < 32 → (shiftBy .asr v n).2 = v.getLsbD (n - 1)) ∧ (32 ≤ n → (shiftBy .asr v n).2 = v.getLsbD 31)) ∧
    ((∀ i : Nat, i < 32 → (shiftBy .ror v n).1.getLsbD i = v.getLsbD ((i + n) % 32)) ∧
      (shiftBy .ror v n).2 = v.getLsbD ((n + 31) % 32)) ∧
    ∀ cin : Bool, (shiftRrx v cin).1.getLsbD 31 = cin ∧
      (∀ i : Nat, i < 31 → (shiftRrx v cin).1.getLsbD i = v.getLsbD (i + 1)) ∧ (shiftRrx v cin).2 = v.getLsbD 0

/-- 41_condition_shifter_alu.md rules R156 to R158: what the amount 0 means for an immediate and for a register amount, the
low byte of Rs, and the rotated immediate with its carry. -/
def Obligations.ShiftAmountsAndImmediates : Prop :=
  ∀ (v rs : Word) (cin : Bool) (ty : ShiftType) (amount : BitVec 5) (rot : BitVec 4) (imm8 : BitVec 8),
    shiftByImm .lsl v 0 cin = (v, cin) ∧ shiftByImm .lsr v 0 cin = shiftBy .lsr v 32 ∧
    shiftByImm .asr v 0 cin = shiftBy .asr v 32 ∧ shiftByImm .ror v 0 cin = shiftRrx v cin ∧
    (amount ≠ 0 → shiftByImm ty v amount cin = shiftBy ty v amount.toNat) ∧
    (rs.toNat % 256 = 0 → shiftByReg ty v rs cin = (v, cin)) ∧
    (rs.toNat % 256 ≠ 0 → shiftByReg ty v rs cin = shiftBy ty v (rs.toNat % 256)) ∧
    (∀ i : Nat, i < 32 → (immOperand rot imm8 cin).1.getLsbD i = imm8.getLsbD ((i + 2 * rot.toNat) % 32)) ∧
    (immOperand rot imm8 cin).2 = (if rot = 0 then cin else (immOperand rot imm8 cin).1.getLsbD 31)

/-! ### Registers and status registers -/

/-- 10_state.md rules R12, R13: two names in two modes reach one register exactly when the name is one and the modes select
one bank for it. -/
def Obligations.RegisterBanks : Prop :=
  ∀ (i j : Reg) (md md' : Mode),
    phys i md = phys j md' ↔
      i = j ∧ (i.toNat ≤ 7 ∨ i.toNat = 15 ∨ (8 ≤ i.toNat ∧ i.toNat ≤ 12 ∧ (md = .fiq ↔ md' = .fiq)) ∨
        (13 ≤ i.toNat ∧ i.toNat ≤ 14 ∧ md.excMode = md'.excMode))

/-- 70_reset_and_hazards.md rule R358: a value written through a mode is read through another exactly where both select the
same bank, and whatever Fiq mode writes, User mode reads its own R8 to R14 as before. -/
def Obligations.BanksDoNotMix : Prop :=
  (∀ (i j : Reg) (md md' : Mode) (v : Word) (s : State),
    readReg md' j (writeReg md i v s) = if phys j md' = phys i md then v else readReg md' j s) ∧
  ∀ (writes : List (Reg × Word)) (p p' : Psr) (s : State) (i : Reg), 8 ≤ i.toNat → i.toNat ≤ 14 →
    readReg .user i
      ((writes.foldl (fun u w => writeReg .fiq w.1 w.2 u) (s.withCpsr p)).withCpsr p') = readReg .user i s

/-- 10_state.md rule R25: reserved bits read as 0 and are not written, the flag nibble is written and read back, whatever
stands above it. -/
def Obligations.ReservedStatusBits : Prop :=
  (∀ w : Word, (Psr.ofWord w).toWord = w &&& 0xF00000FF) ∧ (∀ p : Psr, Psr.ofWord p.toWord = p) ∧
  (Psr.ofWord 0xFFFFFFFF).toWord = 0xF00000FF ∧
  ∀ (p : Psr) (f : Word), (p.setFlags f).flags = f.extractLsb' 0 4 ∧ p.setFlags f = p.setFlags (f &&& 0xF) ∧
    (p.setFlags f).toWord &&& 0x0FFFFFFF = p.toWord &&& 0x0FFFFFFF

/-! ### Memory -/

/-- 20_memory.md rules R54, R55: which byte each store writes and that it writes no other, and which bytes each load reads,
all addresses modulo 2^32. -/
def Obligations.LittleEndianMemory : Prop :=
  ∀ (m : Memory) (a b : Word) (v : Word) (h : BitVec 16) (x : Byte),
    m.read16 a = m.read8 (a + 1) ++ m.read8 a ∧
    m.read32 a = m.read8 (a + 3) ++ m.read8 (a + 2) ++ m.read8 (a + 1) ++ m.read8 a ∧
    (m.write8 a x).read8 b = (if b = a then x else m.read8 b) ∧
    (∀ i : Nat, i < 2 → (m.write16 a h).read8 (a + BitVec.ofNat 32 i) = h.extractLsb' (8 * i) 8) ∧
    ((∀ i : Nat, i < 2 → b ≠ a + BitVec.ofNat 32 i) → (m.write16 a h).read8 b = m.read8 b) ∧
    (∀ i : Nat, i < 4 → (m.write32 a v).read8 (a + BitVec.ofNat 32 i) = v.extractLsb' (8 * i) 8) ∧
    ((∀ i : Nat, i < 4 → b ≠ a + BitVec.ofNat 32 i) → (m.write32 a v).read8 b = m.read8 b) ∧
    (∀ j : Nat, j < 2 → (m.write32 a v).read16 (a + BitVec.ofNat 32 (2 * j)) = v.extractLsb' (16 * j) 16) ∧
    (m.write32 a v).read32 a = v

/-- The model's memory form: every write keeps it, and two memories in the form that read the same everywhere are one. -/
def Obligations.MemoryFormIsCanonical : Prop :=
  (∀ (m : Memory) (a : Word) (v : Word) (h : BitVec 16) (x : Byte), m.wf = true →
    (m.write8 a x).wf = true ∧ (m.write16 a h).wf = true ∧ (m.write32 a v).wf = true) ∧
  ∀ m m' : Memory, m.wf = true → m'.wf = true → (∀ a : Word, m.read8 a = m'.read8 a) → m = m'

/-- 20_memory.md rule R57: a word load at any address reads the aligned word and turns it so that the addressed byte is
lowest. -/
def Obligations.MisalignedWordLoadRotates : Prop :=
  ∀ (a : Word) (k : AccessKind) (s : State),
    (loadRotated a k s).2 = s.record (.load .word (wordAddr a) k (s.mem.read32 (wordAddr a))) ∧
    (loadRotated a k s).1 = (s.mem.read32 (wordAddr a)).rotateRight (8 * (a.extractLsb' 0 2).toNat) ∧
    (loadRotated a k s).1.extractLsb' 0 8 = s.mem.read8 a ∧
    ∀ j : Nat, j < 4 → (loadRotated a k s).1.extractLsb' (8 * j) 8 =
      s.mem.read8 (wordAddr a + BitVec.ofNat 32 ((a.toNat + j) % 4))

/-! ### The step -/

/-- 40_step_and_pipeline.md rule R126: the flush in both states; nothing is said of the slots of a Thumb-state flush. -/
def Obligations.FlushRefillsThePipeline : Prop :=
  ∀ (target : Word) (s : State),
    Frame [] s (flush target s) ∧ (flush target s).cpsr = s.cpsr ∧ MemKept s (flush target s) ∧
    (s.cpsr.t = false → Ended [target] .sequential [] s (flush target s)) ∧
    (s.cpsr.t = true → (flush target s).pc = target &&& 0xFFFFFFFE ∧ (flush target s).nextFetchKind = .nonSequential ∧
      (flush target s).calls = s.calls)

/-- 40_step_and_pipeline.md rule R124: an instruction whose condition fails only advances, with kind N, whatever it is. -/
def Obligations.FailedConditionOnlyAdvances : Prop :=
  ∀ (i : Instr) (s : State) (md : Mode), Mode.ofBits s.cpsr.m = some md → i.cond ≠ .nv →
    condPassed i.cond s.cpsr = false →
    ∃ t, exec i s = .next t ∧ Frame [] s t ∧ t.cpsr = s.cpsr ∧ t.mem = s.mem ∧ t.freeCount = s.freeCount ∧
      Ended [] .nonSequential [] s t

/-- 41_condition_shifter_alu.md rule R142: the condition field 0b1111 under its two policies, whatever the instruction,
and the policy that is the spec's default. -/
def Obligations.ReservedConditionPolicy : Prop :=
  Params.specDefault.condNvPolicy = .refuse ∧ ∀ (i : Instr) (s : State) (md : Mode), Mode.ofBits s.cpsr.m = some md → i.cond = .nv →
    (s.params.condNvPolicy = .refuse → exec i s = .refused .reservedCondition) ∧
    (s.params.condNvPolicy = .never →
      ∃ t, exec i s = .next t ∧ Frame [] s t ∧ t.cpsr = s.cpsr ∧ t.mem = s.mem ∧ t.freeCount = s.freeCount ∧
        Ended [] .nonSequential [] s t)

/-- 40_step_and_pipeline.md rules R120, R122, R123: where no reset and no interrupt comes first, a step is the instruction
that the word in `pipe[0]` decodes to, executed on the state after the fetch and the shift.  The last clause, that an
instruction placed by `withFetchWord` is the one the next step runs, is the model's choice (log entry 8). -/
def Obligations.StepRunsTheDecodedInstruction : Prop :=
  ∀ (s : State) (md : Mode) (i : Instr), s.nextInput.reset = false → Mode.ofBits s.cpsr.m = some md →
    s.cpsr.t = false → sampleInterrupts s.nextInput s.cpsr = none →
    (decode s.pipe0 = i → ∃ u, step s = exec i u ∧ u.regs = s.regs ∧ u.cpsr = s.cpsr ∧ u.spsr = s.spsr ∧
      u.mem = s.mem ∧ u.pipe0 = s.pipe1 ∧ u.pipe1 = s.mem.read32 s.pc ∧ u.nextFetchKind = s.nextFetchKind ∧
      u.calls = [.load .word s.pc s.nextFetchKind (s.mem.read32 s.pc)] ∧ u.inputs = s.inputs.tail ∧
      u.params = s.params ∧ u.freeCount = s.freeCount) ∧
    ∀ w : Word, step (s.withFetchWord 32 w.toNat) =
      exec (decode w) (fetchShift (beginStep (s.withFetchWord 32 w.toNat)))

/-- 40_step_and_pipeline.md rule R121: the two entry checks.  That the first is the one reported where both hold is the
model's choice (log entry 9). -/
def Obligations.StepEntryChecks : Prop :=
  ∀ s : State, s.nextInput.reset = false →
    (Mode.ofBits s.cpsr.m = none → step s = .refused .invalidMode) ∧
    (∀ md, Mode.ofBits s.cpsr.m = some md → s.cpsr.t = true → step s = .refused .thumbNotSpecified)

/-- 60_exceptions.md rules R315, R322: the sampling of the two request inputs, FIQ first, each by its mask; an interrupt
taken makes only the two refill fetches. -/
def Obligations.InterruptSampling : Prop :=
  ∀ (s : State) (md : Mode), s.nextInput.reset = false → Mode.ofBits s.cpsr.m = some md → s.cpsr.t = false →
    (s.nextInput.fiq = true ∧ s.cpsr.f = false →
      ∃ t, step s = .next t ∧ Entered .fiq 0x1C (s.pc - 4) true (beginStep s) t) ∧
    (¬(s.nextInput.fiq = true ∧ s.cpsr.f = false) → s.nextInput.irq = true ∧ s.cpsr.i = false →
      ∃ t, step s = .next t ∧ Entered .irq 0x18 (s.pc - 4) false (beginStep s) t) ∧
    (¬(s.nextInput.fiq = true ∧ s.cpsr.f = false) → ¬(s.nextInput.irq = true ∧ s.cpsr.i = false) →
      step s = exec (decode s.pipe0) (fetchShift (beginStep s)))

/-- 70_reset_and_hazards.md rule R350: the reset operation; nothing is said of R14_svc, SPSR_svc and the flags after it.
The first clause, that an entry of `inputs` applies it in place of a step, before the entry checks and in every state, is
the model's choice (log entries 5 and 15). -/
def Obligations.ResetOperation : Prop :=
  (∀ s : State, s.nextInput.reset = true → step s = .next (hostReset (beginStep s))) ∧
  ∀ s : State, ∃ t, hostReset s = t ∧
    t.cpsr.m = 0b10011 ∧ t.cpsr.i = true ∧ t.cpsr.f = true ∧ t.cpsr.t = false ∧
    t.pc = 8 ∧ Ended [0] .sequential [] s t ∧ RegsKept [.r14Svc] s t ∧ t.mem = s.mem ∧ t.params = s.params ∧
    t.inputs = s.inputs ∧ ∀ e : ExcMode, e ≠ .svc → t.spsr.get e = s.spsr.get e

/-- 10_state.md rules R40, R41: the reset values the spec states. -/
def Obligations.ResetValues : Prop :=
  State.reset.cpsr.m = Mode.supervisor.bits ∧ State.reset.cpsr.i = true ∧ State.reset.cpsr.f = true ∧
  State.reset.cpsr.t = false ∧ State.reset.pc = 8 ∧ State.reset.pipe0 = State.reset.mem.read32 0 ∧
  State.reset.pipe1 = State.reset.mem.read32 4 ∧ State.reset.nextFetchKind = .sequential ∧
  State.reset.cpsr.toWord &&& 0x0FFFFFFF = 0xD3

/-! ### Exceptions -/

/-- 60_exceptions.md rules R310, R316: entry, for each of the seven exceptions, with its vector, mode and mask. -/
def Obligations.ExceptionEntry : Prop :=
  (∀ (x : Exc) (lr : Word) (s : State), Entered x.mode x.vector lr x.setsF s (takeException x lr s)) ∧
  (Exc.vector .reset, Exc.mode .reset, Exc.setsF .reset) = (0x00, .svc, true) ∧
  (Exc.vector .undefined, Exc.mode .undefined, Exc.setsF .undefined) = (0x04, .und, false) ∧
  (Exc.vector .swi, Exc.mode .swi, Exc.setsF .swi) = (0x08, .svc, false) ∧
  (Exc.vector .prefetchAbort, Exc.mode .prefetchAbort, Exc.setsF .prefetchAbort) = (0x0C, .abt, false) ∧
  (Exc.vector .dataAbort, Exc.mode .dataAbort, Exc.setsF .dataAbort) = (0x10, .abt, false) ∧
  (Exc.vector .irq, Exc.mode .irq, Exc.setsF .irq) = (0x18, .irq, false) ∧
  (Exc.vector .fiq, Exc.mode .fiq, Exc.setsF .fiq) = (0x1C, .fiq, true)

/-- 48_swap_swi_undefined.md rules R282, R283, R284: SWI, the undefined instruction, CDP/MCR/MRC and LDC/STC take their
exception in every mode, whatever their other bits; the link value is the address of the instruction after. -/
def Obligations.TrapsEnterTheirHandler : Prop :=
  ∀ (c : Cond) (md : Mode) (s : State), Ready c md s →
    (∀ comment, ∃ t, exec (.swi c comment) s = .next t ∧ Entered .svc 0x08 (s.pc - 4) false s t) ∧
    (∀ hi lo, ∃ t, exec (.und c hi lo) s = .next t ∧ Entered .und 0x04 (s.pc - 4) false s t) ∧
    (∀ bits, ∃ t, exec (.cdpMcrMrc c bits) s = .next t ∧ Entered .und 0x04 (s.pc - 4) false s t) ∧
    (∀ bits, ∃ t, exec (.ldcStc c bits) s = .next t ∧ Entered .und 0x04 (s.pc - 4) false s t)

/-- 42_data_processing.md rule R183: S = 1 with Rd = R15, for the twelve operations that write a register: refused in User
and System mode, refused for a saved mode that is none, else CPSR restored and the flush in the state restored. -/
def Obligations.ExceptionReturn : Prop :=
  ∀ (op : AluOp) (c : Cond) (rn : Reg) (o : Operand2) (md : Mode) (s : State), op.isCompare = false → Ready c md s →
    pcInRegisterShift op.readsRn rn o = false → Allows (reservedBit7 o) s →
    (md.excMode = none →
      exec (Instr.dataProcessing op c true rn 15 o) s = .refused .noSavedStatusRegister) ∧
    ∀ e, md.excMode = some e →
      (Mode.ofBits (s.spsr.get e).m = none →
        exec (Instr.dataProcessing op c true rn 15 o) s = .refused .invalidMode) ∧
      ((Mode.ofBits (s.spsr.get e).m).isSome = true →
        ∃ t, exec (Instr.dataProcessing op c true rn 15 o) s = .next t ∧ t.cpsr = s.spsr.get e ∧
          Frame [] s t ∧ MemKept s t ∧
          ((s.spsr.get e).t = false → t.freeCount = s.freeCount ∧
            Ended [(alu op (readReg md rn s) (operand2 o md s).1 (operand2 o md s).2 s.cpsr.c s.cpsr.v).value]
              .sequential [] s t) ∧
          ((s.spsr.get e).t = true →
            t.pc = (alu op (readReg md rn s) (operand2 o md s).1 (operand2 o md s).2 s.cpsr.c s.cpsr.v).value
              &&& 0xFFFFFFFE ∧
            t.nextFetchKind = .nonSequential ∧ t.calls = s.calls))

/-- 60_exceptions.md rules R317, R319: a handler that leaves R14 and the SPSR of its mode as entry left them returns:
`MOVS PC, R14` after SWI and Undefined to the instruction after the trap, `SUBS PC, R14, #4` after IRQ and FIQ to the
instruction that would have run, with the interrupted CPSR. -/
def Obligations.HandlersReturn : Prop :=
  ∀ (x : Exc) (md : Mode) (s v : State), Mode.ofBits s.cpsr.m = some md → s.cpsr.t = false →
    s.pc.extractLsb' 0 2 = 0 →
    v.cpsr.m = (takeException x (s.pc - 4) s).cpsr.m → v.cpsr.t = false →
    v.spsr.get x.mode = (takeException x (s.pc - 4) s).spsr.get x.mode →
    readReg x.mode.mode 14 v = readReg x.mode.mode 14 (takeException x (s.pc - 4) s) →
    (x = .swi ∨ x = .undefined →
      ∃ t, exec (decode 0xE1B0F00E) v = .next t ∧ t.cpsr = s.cpsr ∧ t.pc = s.pc + 4 ∧
        t.pipe0 = v.mem.read32 (s.pc - 4)) ∧
    (x = .irq ∨ x = .fiq →
      ∃ t, exec (decode 0xE25EF004) v = .next t ∧ t.cpsr = s.cpsr ∧ t.pc = s.pc ∧
        t.pipe0 = v.mem.read32 (s.pc - 8))

/-! ### Data processing -/

/-- 42_data_processing.md rules R180, R181, R182, R186 to R193, R198 to R201: the twelve operations that write a register,
Rd not R15: result, flags when S = 1, frame and advance. -/
def Obligations.DataProcessingToRegister : Prop :=
  ∀ (op : AluOp) (c : Cond) (sf : Bool) (rn rd : Reg) (o : Operand2) (md : Mode) (s : State),
    op.isCompare = false → rd ≠ 15 → Ready c md s → pcInRegisterShift op.readsRn rn o = false →
    Allows (reservedBit7 o) s →
    ∃ t, exec (Instr.dataProcessing op c sf rn rd o) s = .next t ∧
      readReg md rd t = (alu op (readReg md rn s) (operand2 o md s).1 (operand2 o md s).2 s.cpsr.c s.cpsr.v).value ∧
      (sf = false → t.cpsr = s.cpsr) ∧
      (sf = true → ControlKept s t ∧
        t.cpsr.n = (alu op (readReg md rn s) (operand2 o md s).1 (operand2 o md s).2 s.cpsr.c s.cpsr.v).n ∧
        t.cpsr.z = (alu op (readReg md rn s) (operand2 o md s).1 (operand2 o md s).2 s.cpsr.c s.cpsr.v).z ∧
        t.cpsr.c = (alu op (readReg md rn s) (operand2 o md s).1 (operand2 o md s).2 s.cpsr.c s.cpsr.v).c ∧
        t.cpsr.v = (alu op (readReg md rn s) (operand2 o md s).1 (operand2 o md s).2 s.cpsr.c s.cpsr.v).v) ∧
      Frame [phys rd md] s t ∧ MemKept s t ∧ t.freeCount = s.freeCount ∧
      Ended [] s.params.nextFetchKind.dataProcessing [] s t

/-- 42_data_processing.md rules R182, R184, R194 to R197: TST, TEQ, CMP, CMN write the flags and nothing else, whatever Rd
is. -/
def Obligations.ComparisonsWriteFlagsOnly : Prop :=
  ∀ (op : AluOp) (c : Cond) (sf : Bool) (rn rd : Reg) (o : Operand2) (md : Mode) (s : State),
    op ∈ [AluOp.tst, .teq, .cmp, .cmn] → Ready c md s → pcInRegisterShift true rn o = false →
    Allows (reservedBit7 o) s → Allows (rd == 15) s →
    ∃ t, exec (Instr.dataProcessing op c sf rn rd o) s = .next t ∧ ControlKept s t ∧
      t.cpsr.n = (alu op (readReg md rn s) (operand2 o md s).1 (operand2 o md s).2 s.cpsr.c s.cpsr.v).n ∧
      t.cpsr.z = (alu op (readReg md rn s) (operand2 o md s).1 (operand2 o md s).2 s.cpsr.c s.cpsr.v).z ∧
      t.cpsr.c = (alu op (readReg md rn s) (operand2 o md s).1 (operand2 o md s).2 s.cpsr.c s.cpsr.v).c ∧
      t.cpsr.v = (alu op (readReg md rn s) (operand2 o md s).1 (operand2 o md s).2 s.cpsr.c s.cpsr.v).v ∧
      Frame [] s t ∧ MemKept s t ∧ t.freeCount = s.freeCount ∧ Ended [] s.params.nextFetchKind.dataProcessing [] s t

/-- 42_data_processing.md rules R180, R182: Rd = R15 with S = 0 is a flush to the result; no flag changes. -/
def Obligations.DataProcessingToPc : Prop :=
  ∀ (op : AluOp) (c : Cond) (rn : Reg) (o : Operand2) (md : Mode) (s : State), op.isCompare = false → Ready c md s →
    pcInRegisterShift op.readsRn rn o = false → Allows (reservedBit7 o) s →
    ∃ t, exec (Instr.dataProcessing op c false rn 15 o) s = .next t ∧ t.cpsr = s.cpsr ∧ Frame [] s t ∧ MemKept s t ∧
      t.freeCount = s.freeCount ∧
      Ended [(alu op (readReg md rn s) (operand2 o md s).1 (operand2 o md s).2 s.cpsr.c s.cpsr.v).value]
        .sequential [] s t

/-- 42_data_processing.md rule R181: the operand (the shifter of rules R156 to R158 on the registers as they are), R15
read as the instruction's address + 8, and the refusal of R15 with a register-specified amount, for all sixteen
operations. -/
def Obligations.PcInRegisterShiftIsRefused : Prop :=
  ∀ (op : AluOp) (c : Cond) (sf : Bool) (rn rd rs rm : Reg) (bit7 : Bool) (ty : ShiftType) (md : Mode) (s : State),
    Ready c md s →
    (rm = 15 ∨ rs = 15 ∨ (rn = 15 ∧ op ≠ .mov ∧ op ≠ .mvn) →
      exec (Instr.dataProcessing op c sf rn rd (.shiftReg rs bit7 ty rm)) s = .refused .pcInRegisterShift) ∧
    operand2 (.shiftReg rs bit7 ty rm) md s = shiftByReg ty (readReg md rm s) (readReg md rs s) s.cpsr.c ∧
    (∀ amount, operand2 (.shiftImm amount ty rm) md s = shiftByImm ty (readReg md rm s) amount s.cpsr.c) ∧
    (∀ rot imm8, operand2 (.imm rot imm8) md s = immOperand rot imm8 s.cpsr.c) ∧ readReg md 15 s = s.pc

/-- 42_data_processing.md rule R185: the reserved opcodes 10xx with S = 0 have no effect but the advance when class U
executes; bit 7 of a register-specified shift makes no difference then.  That the advance has the fetch kind of data
processing is the model's choice (log entry 13). -/
def Obligations.ReservedDataProcessingAdvances : Prop :=
  ∀ (c : Cond) (md : Mode) (s : State), Ready c md s → s.params.strictUnpredictable = false →
    (∀ (op : BitVec 2) (rn rd : Reg) (o : Operand2), ∃ t, exec (.reservedDp c op rn rd o) s = .next t ∧
      t.cpsr = s.cpsr ∧ Frame [] s t ∧ t.mem = s.mem ∧ t.freeCount = s.freeCount ∧
      Ended [] s.params.nextFetchKind.dataProcessing [] s t) ∧
    ∀ (op : AluOp) (sf : Bool) (rn rd rs rm : Reg) (ty : ShiftType),
      exec (Instr.dataProcessing op c sf rn rd (.shiftReg rs true ty rm)) s =
        exec (Instr.dataProcessing op c sf rn rd (.shiftReg rs false ty rm)) s

/-! ### Branches -/

/-- 43_branch.md rules R210, R211, R212: B and BL: the target is R15 plus four times the signed offset, modulo 2^32; BL
leaves the address of the next instruction in R14 of the current mode. -/
def Obligations.BranchesReachTheirTarget : Prop :=
  ∀ (c : Cond) (off : BitVec 24) (md : Mode) (s : State), Ready c md s →
    (∃ t, exec (.b c off) s = .next t ∧ Frame [] s t ∧ t.cpsr = s.cpsr ∧ MemKept s t ∧ t.freeCount = s.freeCount ∧
      Ended [BitVec.ofInt 32 (s.pc.toInt + 4 * off.toInt)] .sequential [] s t) ∧
    (∃ t, exec (.bl c off) s = .next t ∧ readReg md 14 t = s.pc - 4 ∧ Frame [phys 14 md] s t ∧ t.cpsr = s.cpsr ∧
      MemKept s t ∧ t.freeCount = s.freeCount ∧
      Ended [BitVec.ofInt 32 (s.pc.toInt + 4 * off.toInt)] .sequential [] s t)

/-- 43_branch.md rule R213: BX: T from bit 0 of the register, and the flush with that bit cleared. -/
def Obligations.BranchAndExchange : Prop :=
  ∀ (c : Cond) (rn : Reg) (md : Mode) (s : State), Ready c md s →
    Allows (rn == 15 || (readReg md rn s).extractLsb' 0 2 == 0b10#2) s →
    ∃ t, exec (.bx c rn) s = .next t ∧ t.cpsr = { s.cpsr with t := (readReg md rn s).getLsbD 0 } ∧ Frame [] s t ∧
      MemKept s t ∧
      ((readReg md rn s).getLsbD 0 = false →
        t.freeCount = s.freeCount ∧ Ended [readReg md rn s] .sequential [] s t) ∧
      ((readReg md rn s).getLsbD 0 = true →
        t.pc = readReg md rn s &&& 0xFFFFFFFE ∧ t.nextFetchKind = .nonSequential ∧ t.calls = s.calls)

/-! ### Multiplies -/

/-- 44_multiply.md rules R220 to R223: MUL and MLA. -/
def Obligations.MultiplyAndAccumulate : Prop :=
  ∀ (c : Cond) (bit22 sf : Bool) (rd rn rs rm : Reg) (md : Mode) (s : State), Ready c md s → Allows bit22 s →
    (Allows (rd == rm || rd == 15 || rm == 15 || rs == 15) s →
      ∃ t, exec (.mul c bit22 sf rd rn rs rm) s = .next t ∧
        MulEffect sf rd (BitVec.ofNat 32 ((readReg md rm s).toNat * (readReg md rs s).toNat)) md s t) ∧
    (Allows (rd == rm || rd == 15 || rm == 15 || rs == 15 || rn == 15) s →
      ∃ t, exec (.mla c bit22 sf rd rn rs rm) s = .next t ∧
        MulEffect sf rd
          (BitVec.ofNat 32 ((readReg md rm s).toNat * (readReg md rs s).toNat + (readReg md rn s).toNat)) md s t)

/-- 44_multiply.md rules R220, R221, R224 to R228: the four long multiplies, their results as exact integers modulo
2^64.  That R15 as RdLo and as RdHi flushes once for each half is the model's choice (log entry 12). -/
def Obligations.LongMultiplies : Prop :=
  ∀ (c : Cond) (sf : Bool) (rdHi rdLo rs rm : Reg) (md : Mode) (s : State), Ready c md s →
    Allows (rdHi == rdLo || rm == rdHi || rm == rdLo || rdHi == 15 || rdLo == 15 || rs == 15 || rm == 15) s →
    (∃ t, exec (.umull c sf rdHi rdLo rs rm) s = .next t ∧
      MullEffect sf rdHi rdLo (BitVec.ofNat 64 ((readReg md rm s).toNat * (readReg md rs s).toNat)) md s t) ∧
    (∃ t, exec (.umlal c sf rdHi rdLo rs rm) s = .next t ∧
      MullEffect sf rdHi rdLo (BitVec.ofNat 64 ((readReg md rm s).toNat * (readReg md rs s).toNat +
        ((readReg md rdHi s).toNat * 2 ^ 32 + (readReg md rdLo s).toNat))) md s t) ∧
    (∃ t, exec (.smull c sf rdHi rdLo rs rm) s = .next t ∧
      MullEffect sf rdHi rdLo (BitVec.ofInt 64 ((readReg md rm s).toInt * (readReg md rs s).toInt)) md s t) ∧
    (∃ t, exec (.smlal c sf rdHi rdLo rs rm) s = .next t ∧
      MullEffect sf rdHi rdLo (BitVec.ofInt 64 ((readReg md rm s).toInt * (readReg md rs s).toInt +
        ((readReg md rdHi s).toNat * 2 ^ 32 + (readReg md rdLo s).toNat : Nat))) md s t)

/-! ### Single and halfword transfers -/

/-- 45_single_data_transfer.md rules R231 to R237, R240: LDR, LDRB, LDRT, LDRBT in every addressing form and for every
register, R15 included.  That a written-back base R15 with Rd = R15 flushes twice is the model's choice (log entry 12). -/
def Obligations.WordAndByteLoads : Prop :=
  ∀ (c : Cond) (ix : Indexing) (up : Bool) (rn rd : Reg) (off : SdtOffset) (md : Mode) (s : State), Ready c md s →
    (Allows (unpredictableU8 ix rn rd (sdtOffsetReg off)) s →
      (∃ t, exec (.ldr c ix up rn rd off) s = .next t ∧
        LoadEffect .word ix up rn rd (sdtOffset off md s) s.params.nextFetchKind.singleDataTransfer md s t) ∧
      (Allows (rd == 15) s → ∃ t, exec (.ldrb c ix up rn rd off) s = .next t ∧
        LoadEffect .byte ix up rn rd (sdtOffset off md s) s.params.nextFetchKind.singleDataTransfer md s t)) ∧
    (Allows (unpredictableU8 .postIndexed rn rd (sdtOffsetReg off)) s →
      (∃ t, exec (.ldrt c up rn rd off) s = .next t ∧
        LoadEffect .word .postIndexed up rn rd (sdtOffset off md s) s.params.nextFetchKind.singleDataTransfer md s t) ∧
      (Allows (rd == 15) s → ∃ t, exec (.ldrbt c up rn rd off) s = .next t ∧
        LoadEffect .byte .postIndexed up rn rd (sdtOffset off md s) s.params.nextFetchKind.singleDataTransfer md s t))

/-- 45_single_data_transfer.md rules R231 to R235, R238, R239: STR, STRB, STRT, STRBT in every addressing form and for
every register, R15 included.  The word stored where Rd is the written-back base R15 is the model's choice (log entry
20). -/
def Obligations.WordAndByteStores : Prop :=
  ∀ (c : Cond) (ix : Indexing) (up : Bool) (rn rd : Reg) (off : SdtOffset) (md : Mode) (s : State), Ready c md s →
    (Allows (unpredictableU8 ix rn rd (sdtOffsetReg off)) s →
      (∃ t, exec (.str c ix up rn rd off) s = .next t ∧
        StoreEffect .word ix up rn rd (sdtOffset off md s) s.params.nextFetchKind.singleDataTransfer md s t) ∧
      (Allows (rd == 15) s → ∃ t, exec (.strb c ix up rn rd off) s = .next t ∧
        StoreEffect .byte ix up rn rd (sdtOffset off md s) s.params.nextFetchKind.singleDataTransfer md s t)) ∧
    (Allows (unpredictableU8 .postIndexed rn rd (sdtOffsetReg off)) s →
      (∃ t, exec (.strt c up rn rd off) s = .next t ∧
        StoreEffect .word .postIndexed up rn rd (sdtOffset off md s) s.params.nextFetchKind.singleDataTransfer md s t) ∧
      (Allows (rd == 15) s → ∃ t, exec (.strbt c up rn rd off) s = .next t ∧
        StoreEffect .byte .postIndexed up rn rd (sdtOffset off md s) s.params.nextFetchKind.singleDataTransfer md s t))

/-- 46_halfword_transfer.md rules R251, R252, R254, R256, R257: LDRH, LDRSB, LDRSH with a register and with an immediate
offset, at every address the rule of alignment lets through.  That a written-back base R15 with Rd = R15 flushes twice is
the model's choice (log entry 12). -/
def Obligations.HalfwordAndSignedLoads : Prop :=
  ∀ (c : Cond) (ix : Indexing) (up : Bool) (rn rd rm : Reg) (imm : BitVec 8) (md : Mode) (s : State), Ready c md s →
    Allows (ix == .postIndexedW || rd == 15) s →
    (Allows (unpredictableU8 ix rn rd (some rm)) s →
      (∃ t, exec (.ldrsbReg c ix up rn rd rm) s = .next t ∧
        LoadEffect .signedByte ix up rn rd (readReg md rm s) s.params.nextFetchKind.halfwordTransfer md s t) ∧
      (oddAddress ix up rn (readReg md rm s) md s = false →
        (∃ t, exec (.ldrhReg c ix up rn rd rm) s = .next t ∧
          LoadEffect .half ix up rn rd (readReg md rm s) s.params.nextFetchKind.halfwordTransfer md s t) ∧
        (∃ t, exec (.ldrshReg c ix up rn rd rm) s = .next t ∧
          LoadEffect .signedHalf ix up rn rd (readReg md rm s) s.params.nextFetchKind.halfwordTransfer md s t))) ∧
    (Allows (unpredictableU8 ix rn rd none) s →
      (∃ t, exec (.ldrsbImm c ix up rn rd imm) s = .next t ∧
        LoadEffect .signedByte ix up rn rd (imm.setWidth 32) s.params.nextFetchKind.halfwordTransfer md s t) ∧
      (oddAddress ix up rn (imm.setWidth 32) md s = false →
        (∃ t, exec (.ldrhImm c ix up rn rd imm) s = .next t ∧
          LoadEffect .half ix up rn rd (imm.setWidth 32) s.params.nextFetchKind.halfwordTransfer md s t) ∧
        (∃ t, exec (.ldrshImm c ix up rn rd imm) s = .next t ∧
          LoadEffect .signedHalf ix up rn rd (imm.setWidth 32) s.params.nextFetchKind.halfwordTransfer md s t)))

/-- 46_halfword_transfer.md rules R251, R252, R255: STRH with a register and with an immediate offset.
The halfword stored where Rd is the written-back base R15 is the model's choice (log entry 20). -/
def Obligations.HalfwordStores : Prop :=
  ∀ (c : Cond) (ix : Indexing) (up : Bool) (rn rd rm : Reg) (imm : BitVec 8) (md : Mode) (s : State), Ready c md s →
    Allows (ix == .postIndexedW || rd == 15) s →
    (Allows (unpredictableU8 ix rn rd (some rm)) s → oddAddress ix up rn (readReg md rm s) md s = false →
      ∃ t, exec (.strhReg c ix up rn rd rm) s = .next t ∧
        StoreEffect .half ix up rn rd (readReg md rm s) s.params.nextFetchKind.halfwordTransfer md s t) ∧
    (Allows (unpredictableU8 ix rn rd none) s → oddAddress ix up rn (imm.setWidth 32) md s = false →
      ∃ t, exec (.strhImm c ix up rn rd imm) s = .next t ∧
        StoreEffect .half ix up rn rd (imm.setWidth 32) s.params.nextFetchKind.halfwordTransfer md s t)

/-- 46_halfword_transfer.md rule R258: LDRH, LDRSH and STRH at an odd address are refused. -/
def Obligations.OddHalfwordAddressIsRefused : Prop :=
  ∀ (c : Cond) (ix : Indexing) (up : Bool) (rn rd rm : Reg) (imm : BitVec 8) (md : Mode) (s : State), Ready c md s →
    Allows (ix == .postIndexedW || rd == 15) s →
    (Allows (unpredictableU8 ix rn rd (some rm)) s → oddAddress ix up rn (readReg md rm s) md s = true →
      exec (.ldrhReg c ix up rn rd rm) s = .refused .misalignedHalfword ∧
      exec (.ldrshReg c ix up rn rd rm) s = .refused .misalignedHalfword ∧
      exec (.strhReg c ix up rn rd rm) s = .refused .misalignedHalfword) ∧
    (Allows (unpredictableU8 ix rn rd none) s → oddAddress ix up rn (imm.setWidth 32) md s = true →
      exec (.ldrhImm c ix up rn rd imm) s = .refused .misalignedHalfword ∧
      exec (.ldrshImm c ix up rn rd imm) s = .refused .misalignedHalfword ∧
      exec (.strhImm c ix up rn rd imm) s = .refused .misalignedHalfword)

/-- 46_halfword_transfer.md rule R253: the reserved halfword forms are refused, all six of them, in every mode and
whatever the model arguments. -/
def Obligations.ReservedHalfwordFormsAreRefused : Prop :=
  ∀ (c : Cond) (ix : Indexing) (up load : Bool) (rn rd rm : Reg) (imm : BitVec 8) (md : Mode) (s : State), Ready c md s →
    exec (.reservedStoreSh10Reg c ix up rn rd rm) s = .refused .reservedHalfwordForm ∧
    exec (.reservedStoreSh11Reg c ix up rn rd rm) s = .refused .reservedHalfwordForm ∧
    exec (.reservedSh00Reg c ix up load rn rd rm) s = .refused .reservedHalfwordForm ∧
    exec (.reservedStoreSh10Imm c ix up rn rd imm) s = .refused .reservedHalfwordForm ∧
    exec (.reservedStoreSh11Imm c ix up rn rd imm) s = .refused .reservedHalfwordForm ∧
    exec (.reservedSh00Imm c ix up load rn rd imm) s = .refused .reservedHalfwordForm

/-! ### Block transfers and swaps -/

/-- 47_block_data_transfer.md rules R265 to R269, R271: LDM in its four modes, every list and base, R15 included.  How
a written-back base R15 ends it is the model's choice (log entry 12): a flush with the empty list, and with R15 in the
list a flush for the loaded word and then one for the base, the write-back last as rule R269 says. -/
def Obligations.LoadMultiple : Prop :=
  ∀ (c : Cond) (m : BlockMode) (wb : Bool) (rn : Reg) (list : BitVec 16) (md : Mode) (s : State), Ready c md s →
    Allows (list == 0) s → Allows (wb && list.getLsbD rn.toNat) s → Allows (rn == 15) s →
    ∃ t, exec (.ldm c m false wb rn list) s = .next t ∧ LdmEffect m wb rn list md s t

/-- 47_block_data_transfer.md rules R265 to R269, R272: STM likewise.  With a written-back base R15 the flush of the empty
list (log entry 12) and the word stored for R15 in the list (log entry 20) are the model's choice. -/
def Obligations.StoreMultiple : Prop :=
  ∀ (c : Cond) (m : BlockMode) (wb : Bool) (rn : Reg) (list : BitVec 16) (md : Mode) (s : State), Ready c md s →
    Allows (list == 0) s → Allows (wb && list.getLsbD rn.toNat) s → Allows (rn == 15) s →
    ∃ t, exec (.stm c m false wb rn list) s = .next t ∧ StmEffect m wb rn list md s t

/-- 47_block_data_transfer.md rule R270: every block transfer with S = 1 is refused. -/
def Obligations.ForceUserBitIsRefused : Prop :=
  ∀ (c : Cond) (m : BlockMode) (wb : Bool) (rn : Reg) (list : BitVec 16) (md : Mode) (s : State), Ready c md s →
    exec (.ldm c m true wb rn list) s = .refused .unsupportedForceUser ∧
    exec (.stm c m true wb rn list) s = .refused .unsupportedForceUser

/-- 48_swap_swi_undefined.md rules R280, R281: SWP and SWPB: the old content goes to Rd, the source to memory, the read
before the write. -/
def Obligations.SwapsReadThenWrite : Prop :=
  ∀ (c : Cond) (rn rd rm : Reg) (md : Mode) (s : State), Ready c md s →
    Allows (rn == 15 || rd == 15 || rm == 15 || rn == rd || rn == rm) s →
    (∃ t, exec (.swp c rn rd rm) s = .next t ∧
      (rd ≠ 15 → readReg md rd t = loadedWord .word (readReg md rn s) s.mem) ∧
      t.mem.read32 (wordAddr (readReg md rn s)) = readReg md rm s ∧
      MemKeptOutside (wordAddr (readReg md rn s)) 4 s t ∧ Frame [phys rd md] s t ∧ t.cpsr = s.cpsr ∧
      t.freeCount = s.freeCount ∧
      Ended (pcTarget rd (loadedWord .word (readReg md rn s) s.mem)) s.params.nextFetchKind.singleDataSwap
        [loadCall .word (readReg md rn s) s.mem, storeCall .word (readReg md rn s) (readReg md rm s)] s t) ∧
    (∃ t, exec (.swpb c rn rd rm) s = .next t ∧
      (rd ≠ 15 → readReg md rd t = loadedWord .byte (readReg md rn s) s.mem) ∧
      t.mem.read8 (readReg md rn s) = (readReg md rm s).extractLsb' 0 8 ∧
      MemKeptOutside (readReg md rn s) 1 s t ∧ Frame [phys rd md] s t ∧ t.cpsr = s.cpsr ∧ t.freeCount = s.freeCount ∧
      Ended (pcTarget rd (loadedWord .byte (readReg md rn s) s.mem)) s.params.nextFetchKind.singleDataSwap
        [loadCall .byte (readReg md rn s) s.mem, storeCall .byte (readReg md rn s) (readReg md rm s)] s t)

/-! ### Status-register transfer -/

/-- 49_psr_transfer.md rules R295, R296: MRS copies CPSR or the SPSR of the mode, reserved bits 0; where the mode has no
SPSR it is refused. -/
def Obligations.MrsCopiesTheStatusRegister : Prop :=
  ∀ (c : Cond) (rd : Reg) (sbz : BitVec 12) (md : Mode) (s : State), Ready c md s → Allows (rd == 15 || sbz != 0) s →
    (∃ t, exec (.mrs c false rd sbz) s = .next t ∧ (rd ≠ 15 → readReg md rd t = s.cpsr.toWord) ∧
      Frame [phys rd md] s t ∧ t.cpsr = s.cpsr ∧ MemKept s t ∧ t.freeCount = s.freeCount ∧
      Ended (pcTarget rd s.cpsr.toWord) s.params.nextFetchKind.psrToRegister [] s t) ∧
    (md.excMode = none → exec (.mrs c true rd sbz) s = .refused .noSavedStatusRegister) ∧
    ∀ e, md.excMode = some e → ∃ t, exec (.mrs c true rd sbz) s = .next t ∧
      (rd ≠ 15 → readReg md rd t = (s.spsr.get e).toWord) ∧ Frame [phys rd md] s t ∧ t.cpsr = s.cpsr ∧ MemKept s t ∧
      t.freeCount = s.freeCount ∧ Ended (pcTarget rd (s.spsr.get e).toWord) s.params.nextFetchKind.psrToRegister [] s t

/-- 49_psr_transfer.md rules R297 to R303: MSR to CPSR, both operand forms: the bytes the field mask selects, and the three
refusals. -/
def Obligations.MsrWritesCpsr : Prop :=
  ∀ (c : Cond) (fmask rot : BitVec 4) (sbz imm8 : BitVec 8) (rm : Reg) (md : Mode) (s : State), Ready c md s →
    (Allows (rm == 15 || sbz != 0) s →
      MsrCpsrOutcome fmask (readReg md rm s) md s (exec (.msrReg c false fmask sbz rm) s)) ∧
    MsrCpsrOutcome fmask (rotatedImm rot imm8) md s (exec (.msrImm c false fmask rot imm8) s)

/-- 49_psr_transfer.md rules R295, R297, R298: MSR to the SPSR of the current mode, both operand forms. -/
def Obligations.MsrWritesSpsr : Prop :=
  ∀ (c : Cond) (fmask rot : BitVec 4) (sbz imm8 : BitVec 8) (rm : Reg) (md : Mode) (s : State), Ready c md s →
    (Allows (rm == 15 || sbz != 0) s →
      MsrSpsrOutcome fmask (readReg md rm s) md s (exec (.msrReg c true fmask sbz rm) s)) ∧
    MsrSpsrOutcome fmask (rotatedImm rot imm8) md s (exec (.msrImm c true fmask rot imm8) s)

/-! ### Class U -/

/-- 00_scope.md rule R8 and 93_implementation_defined.md section 2: with `STRICT_UNPREDICTABLE` every class U form is
refused under its own number.  Where a word is of two classes the refusal reported first is the model's choice (log
entry 9). -/
def Obligations.UnpredictableFormsAreRefused : Prop :=
  ∀ (c : Cond) (md : Mode) (s : State), Ready c md s → s.params.strictUnpredictable = true →
    (∀ sf rd rn rs rm, exec (.mul c true sf rd rn rs rm) s = .refused (.unpredictable .u1) ∧
      exec (.mla c true sf rd rn rs rm) s = .refused (.unpredictable .u1)) ∧
    (∀ op sf rn rd rs ty rm, pcInRegisterShift op.readsRn rn (.shiftReg rs true ty rm) = false →
      exec (Instr.dataProcessing op c sf rn rd (.shiftReg rs true ty rm)) s = .refused (.unpredictable .u2)) ∧
    (∀ op rn rd o, exec (.reservedDp c op rn rd o) s = .refused (.unpredictable .u3)) ∧
    (∀ rn, rn = 15 ∨ (readReg md rn s).extractLsb' 0 2 = 0b10#2 →
      exec (.bx c rn) s = .refused (.unpredictable .u4)) ∧
    (∀ m wb rn, exec (.ldm c m false wb rn 0) s = .refused (.unpredictable .u5) ∧
      exec (.stm c m false wb rn 0) s = .refused (.unpredictable .u5)) ∧
    (∀ m rn list, list.getLsbD rn.toNat = true →
      exec (.ldm c m false true rn list) s = .refused (.unpredictable .u6) ∧
      exec (.stm c m false true rn list) s = .refused (.unpredictable .u6)) ∧
    (∀ m wb list, list ≠ 0 → (wb = true → list.getLsbD 15 = false) →
      exec (.ldm c m false wb 15 list) s = .refused (.unpredictable .u7) ∧
      exec (.stm c m false wb 15 list) s = .refused (.unpredictable .u7)) ∧
    (∀ ix up rn rd off,
      sdtOffsetReg off = some 15 ∨ ((ix.p = false ∨ ix.w = true) ∧ (rn = 15 ∨ rn = rd)) ∨
        (ix.p = false ∧ sdtOffsetReg off = some rn) →
      exec (.ldr c ix up rn rd off) s = .refused (.unpredictable .u8) ∧
      exec (.ldrb c ix up rn rd off) s = .refused (.unpredictable .u8) ∧
      exec (.str c ix up rn rd off) s = .refused (.unpredictable .u8) ∧
      exec (.strb c ix up rn rd off) s = .refused (.unpredictable .u8)) ∧
    (∀ up rn rd off,
      sdtOffsetReg off = some 15 ∨ rn = 15 ∨ rn = rd ∨ sdtOffsetReg off = some rn →
      exec (.ldrt c up rn rd off) s = .refused (.unpredictable .u8) ∧
      exec (.ldrbt c up rn rd off) s = .refused (.unpredictable .u8) ∧
      exec (.strt c up rn rd off) s = .refused (.unpredictable .u8) ∧
      exec (.strbt c up rn rd off) s = .refused (.unpredictable .u8)) ∧
    (∀ ix up rn rd rm,
      rm = 15 ∨ ((ix.p = false ∨ ix.w = true) ∧ (rn = 15 ∨ rn = rd)) ∨ (ix.p = false ∧ rm = rn) →
      exec (.ldrhReg c ix up rn rd rm) s = .refused (.unpredictable .u8) ∧
      exec (.ldrsbReg c ix up rn rd rm) s = .refused (.unpredictable .u8) ∧
      exec (.ldrshReg c ix up rn rd rm) s = .refused (.unpredictable .u8) ∧
      exec (.strhReg c ix up rn rd rm) s = .refused (.unpredictable .u8)) ∧
    (∀ ix up rn rd imm, (ix.p = false ∨ ix.w = true) → rn = 15 ∨ rn = rd →
      exec (.ldrhImm c ix up rn rd imm) s = .refused (.unpredictable .u8) ∧
      exec (.ldrsbImm c ix up rn rd imm) s = .refused (.unpredictable .u8) ∧
      exec (.ldrshImm c ix up rn rd imm) s = .refused (.unpredictable .u8) ∧
      exec (.strhImm c ix up rn rd imm) s = .refused (.unpredictable .u8)) ∧
    (∀ ix up rn rd rm, unpredictableU8 ix rn rd (some rm) = false → ix = .postIndexedW ∨ rd = 15 →
      exec (.ldrhReg c ix up rn rd rm) s = .refused (.unpredictable .u9) ∧
      exec (.ldrsbReg c ix up rn rd rm) s = .refused (.unpredictable .u9) ∧
      exec (.ldrshReg c ix up rn rd rm) s = .refused (.unpredictable .u9) ∧
      exec (.strhReg c ix up rn rd rm) s = .refused (.unpredictable .u9)) ∧
    (∀ ix up rn rd imm, unpredictableU8 ix rn rd none = false → ix = .postIndexedW ∨ rd = 15 →
      exec (.ldrhImm c ix up rn rd imm) s = .refused (.unpredictable .u9) ∧
      exec (.ldrsbImm c ix up rn rd imm) s = .refused (.unpredictable .u9) ∧
      exec (.ldrshImm c ix up rn rd imm) s = .refused (.unpredictable .u9) ∧
      exec (.strhImm c ix up rn rd imm) s = .refused (.unpredictable .u9)) ∧
    (∀ rn rd rm, rn = 15 ∨ rd = 15 ∨ rm = 15 ∨ rn = rd ∨ rn = rm →
      exec (.swp c rn rd rm) s = .refused (.unpredictable .u10) ∧
      exec (.swpb c rn rd rm) s = .refused (.unpredictable .u10)) ∧
    (∀ sf rd rn rs rm, rd = rm ∨ rd = 15 ∨ rm = 15 ∨ rs = 15 →
      exec (.mul c false sf rd rn rs rm) s = .refused (.unpredictable .u11)) ∧
    (∀ sf rd rn rs rm, rd = rm ∨ rd = 15 ∨ rm = 15 ∨ rs = 15 ∨ rn = 15 →
      exec (.mla c false sf rd rn rs rm) s = .refused (.unpredictable .u11)) ∧
    (∀ sf hi lo rs rm, hi = lo ∨ rm = hi ∨ rm = lo ∨ hi = 15 ∨ lo = 15 ∨ rs = 15 ∨ rm = 15 →
      exec (.umull c sf hi lo rs rm) s = .refused (.unpredictable .u11) ∧
      exec (.umlal c sf hi lo rs rm) s = .refused (.unpredictable .u11) ∧
      exec (.smull c sf hi lo rs rm) s = .refused (.unpredictable .u11) ∧
      exec (.smlal c sf hi lo rs rm) s = .refused (.unpredictable .u11)) ∧
    (∀ ps rd sbz, rd = 15 ∨ sbz ≠ 0 → exec (.mrs c ps rd sbz) s = .refused (.unpredictable .u12)) ∧
    (∀ ps fmask sbz rm, rm = 15 ∨ sbz ≠ 0 → exec (.msrReg c ps fmask sbz rm) s = .refused (.unpredictable .u13)) ∧
    (∀ ix up rn off, unpredictableU8 ix rn 15 (sdtOffsetReg off) = false →
      exec (.ldrb c ix up rn 15 off) s = .refused (.unpredictable .u14) ∧
      exec (.strb c ix up rn 15 off) s = .refused (.unpredictable .u14)) ∧
    (∀ up rn off, unpredictableU8 .postIndexedW rn 15 (sdtOffsetReg off) = false →
      exec (.ldrbt c up rn 15 off) s = .refused (.unpredictable .u14) ∧
      exec (.strbt c up rn 15 off) s = .refused (.unpredictable .u14)) ∧
    ∀ op rn o, op ∈ [AluOp.tst, .teq, .cmp, .cmn] → pcInRegisterShift true rn o = false → reservedBit7 o = false →
      exec (Instr.dataProcessing op c true rn 15 o) s = .refused (.unpredictable .u15)

/-! ### Rules about the whole machine -/

/-- 60_exceptions.md rule R332: a step from User mode stays in User mode, or it is the entry of an exception: the mode and
vector of one, IRQ masked, the pipeline filled from the vector. -/
def Obligations.UserModeIsLeftOnlyByExceptions : Prop :=
  ∀ s t : State, step s = .next t → Mode.ofBits s.cpsr.m = some .user →
    Mode.ofBits t.cpsr.m = some .user ∨
      ∃ x : Exc, x ≠ .prefetchAbort ∧ x ≠ .dataAbort ∧ t.cpsr.m = x.mode.mode.bits ∧ t.cpsr.t = false ∧
        t.cpsr.i = true ∧ (x.setsF = true → t.cpsr.f = true) ∧ t.pc = x.vector + 8 ∧ t.pipe0 = t.mem.read32 x.vector

/-- 10_state.md rules R22, R23: which instructions can change I and F, and which can change T. -/
def Obligations.ControlBitsChangeOnlyAsListed : Prop :=
  ∀ (i : Instr) (s t : State), exec i s = .next t →
    (t.cpsr.i ≠ s.cpsr.i ∨ t.cpsr.f ≠ s.cpsr.f →
      i.traps = true ∨ i.restores = true ∨ (i.writesPsr = true ∧ Mode.ofBits s.cpsr.m ≠ some .user)) ∧
    (t.cpsr.t ≠ s.cpsr.t → (∃ c rn, i = .bx c rn) ∨ i.traps = true ∨ i.restores = true)

/-- 10_state.md rule R21: an instruction that is no flag-setting form, no restore and no MSR leaves N, Z, C, V alone. -/
def Obligations.FlagsChangeOnlyAsListed : Prop :=
  ∀ (i : Instr) (s t : State), exec i s = .next t → i.setsFlags = false → i.restores = false → i.writesPsr = false →
    FlagsKept s t

/-- 10_state.md rule R27: an SPSR changes only by exception entry into its mode, which copies CPSR, and by MSR in its
mode. -/
def Obligations.SavedStatusChangesOnlyAsListed : Prop :=
  ∀ (i : Instr) (s t : State) (e : ExcMode), exec i s = .next t → t.spsr.get e ≠ s.spsr.get e →
    (i.traps = true ∧ (e = .svc ∨ e = .und) ∧ t.spsr.get e = s.cpsr) ∨
      (i.writesPsr = true ∧ Mode.ofBits s.cpsr.m = some e.mode)

/-- 20_memory.md rules R61, R63: an instruction that is no store changes no byte of memory. -/
def Obligations.MemoryChangesOnlyByStores : Prop :=
  ∀ (i : Instr) (s t : State), exec i s = .next t → i.stores = false → t.mem = s.mem

/-- 10_state.md rule R15: a register of another mode's bank is out of reach of every instruction, but for the link
register that exception entry writes. -/
def Obligations.OtherBanksAreOutOfReach : Prop :=
  ∀ (i : Instr) (s t : State) (md : Mode) (p : PhysReg), exec i s = .next t → Mode.ofBits s.cpsr.m = some md →
    (∀ j : Reg, p ≠ phys j md) → (i.traps = true → p ≠ .r14Svc ∧ p ≠ .r14Und) → t.regs.get p = s.regs.get p

/-- 10_state.md rule R30, 20_memory.md rule R66, 40_step_and_pipeline.md rules R125, R126, R129: after every step that
stays in ARM state the slots are valid: either the pipeline moved on by one word, with the words fetched before the
instruction executed, or it was refilled from memory as the instruction left it. -/
def Obligations.PipelineAfterEveryStep : Prop :=
  ∀ s t : State, step s = .next t → t.cpsr.t = false →
    (t.pipe0 = s.pipe1 ∧ t.pipe1 = s.mem.read32 s.pc ∧ t.pc = s.pc + 4) ∨
      (t.pipe0 = t.mem.read32 (t.pc - 8) ∧ t.pipe1 = t.mem.read32 (t.pc - 4) ∧ t.nextFetchKind = .sequential ∧
        t.pc.extractLsb' 0 2 = 0)

/-- 20_memory.md rule R63, 40_step_and_pipeline.md rule R128: the first call of a step that executes an instruction is the
opcode fetch at R15 with the kind the step before left; a step that takes an interrupt or the reset makes the two refill
fetches of its vector and no other call. -/
def Obligations.StepCallsBeginWithTheFetch : Prop :=
  ∀ s t : State, step s = .next t →
    (∃ rest, t.calls = .load .word s.pc s.nextFetchKind (s.mem.read32 s.pc) :: rest) ∨
      ∃ x : Exc, (x = .reset ∨ x = .irq ∨ x = .fiq) ∧ t.calls = refillCalls s.mem x.vector ∧ t.mem = s.mem

/-- 10_state.md rules R19, R24, and the model's memory form: from every state with a valid mode, an aligned R15 and a
canonical memory, every step that has a next state leads to such a state. -/
def Obligations.EveryStepKeepsTheInvariant : Prop :=
  ∀ s t : State, s.Inv → step s = .next t → t.Inv

/-- The state after reset meets the invariant. -/
def Obligations.ResetMeetsTheInvariant : Prop := State.reset.Inv

/-! ### Encoding -/

/-- 30_encoding.md rules R82, R86 to R99: decoding the word of a well-formed instruction gives the instruction back, every
operand at every value the encoding admits. -/
def Obligations.DecodeOfEncode : Prop := ∀ i : Instr, i.wellFormed = true → decode (encode i) = i

/-- 30_encoding.md rules R82 to R98: every word decodes to a well-formed instruction, and no bit of the word is lost. -/
def Obligations.EncodeOfDecode : Prop := ∀ w : Word, (decode w).wellFormed = true ∧ encode (decode w) = w

/-- 30_encoding.md rules R81, R84, R85: some row matches every word, the kind depends on bits 27:4 only, and the
coprocessor space is of kind Undefined. -/
def Obligations.DecoderIsTotal : Prop :=
  (∀ w : Word, (matchingRow w).isSome = true) ∧
  (∀ w w' : Word, w &&& 0x0FFFFFF0 = w' &&& 0x0FFFFFF0 → classify w = classify w') ∧
  ∀ w : Word, w &&& 0x0C000000 = 0x0C000000 → w &&& 0x0F000000 ≠ 0x0F000000 → classify w = .undefined

/-- Words written out from the formats of 30_encoding.md decode to the instructions they stand for (the examples of the
instruction rules). -/
def Obligations.DecodedWords : Prop :=
  decode 0xE0010002 = .and .al false 1 0 (.shiftImm 0 .lsl 2) ∧
  decode 0xE25EF004 = .sub .al true 14 15 (.imm 0 4) ∧
  decode 0xE12FFF1E = .bx .al 14 ∧ decode 0xEB00003E = .bl .al 0x3E ∧
  decode 0xE8BD0221 = .ldm .al .ia false true 13 0x0221 ∧
  decode 0xE7910102 = .ldr .al .offset true 1 0 (.reg 2 .lsl 2) ∧
  decode 0xE00100B2 = .strhReg .al .postIndexed false 1 0 2 ∧
  decode 0xE0203291 = .mla .al false false 0 3 2 1 ∧ decode 0xE0E10392 = .smlal .al false 1 0 3 2 ∧
  decode 0xE1020091 = .swp .al 2 0 1 ∧ decode 0xEF123456 = .swi .al 0x123456 ∧
  decode 0xE129F000 = .msrReg .al false 9 0 0 ∧ decode 0xE14F0000 = .mrs .al true 0 0 ∧
  decode 0xEE000000 = .cdpMcrMrc .al 0
end

