-- ==== Sys2Proof/Laws/Memory.lean ====
section
/-!
SUPPORT. The plain memory: read after write, every write keeps the canonical form, and a canonical memory is determined by
what it reads as.
-/

namespace Sys2Proof.Machine

/-! ### One byte -/

@[simp] theorem Memory.get_nil (a : Nat) : Memory.get [] a = unlistedByte := rfl

theorem Memory.get_cons (k : Nat) (x : Byte) (m : Memory) (a : Nat) :
    Memory.get ((k, x) :: m) a = if k = a then x else Memory.get m a := rfl

theorem Memory.get_erase (m : Memory) (a b : Nat) :
    (Memory.erase m a).get b = if b = a then unlistedByte else m.get b := by
  induction m with
  | nil => simp [Memory.erase]
  | cons c m ih =>
    obtain ⟨k, x⟩ := c
    simp only [Memory.erase]
    split
    · next h =>
      subst h
      rw [ih, Memory.get_cons]
      by_cases hb : b = k
      · simp [hb]
      · rw [if_neg hb, if_neg hb, if_neg (Ne.symm hb)]
    · next h =>
      rw [Memory.get_cons, ih, Memory.get_cons]
      by_cases hb : b = a
      · simp [hb, h]
      · simp [hb]

theorem Memory.get_insertCell (m : Memory) (a b : Nat) (v : Byte) (hne : ∀ x, (a, x) ∉ m) :
    (Memory.insertCell m a v).get b = if b = a then v else m.get b := by
  induction m with
  | nil => simp [Memory.insertCell, Memory.get_cons, eq_comm]
  | cons c m ih =>
    obtain ⟨k, x⟩ := c
    have hk : k ≠ a := fun e => hne x (by simp [e])
    have hm : ∀ y, (a, y) ∉ m := fun y hy => hne y (List.mem_cons_of_mem _ hy)
    simp only [Memory.insertCell]
    split
    · simp [Memory.get_cons, eq_comm]
    · rw [Memory.get_cons, ih hm, Memory.get_cons]
      by_cases hb : b = a
      · simp [hb, hk]
      · simp [hb]

theorem Memory.not_mem_erase (m : Memory) (a : Nat) (x : Byte) : (a, x) ∉ Memory.erase m a := by
  induction m with
  | nil => simp [Memory.erase]
  | cons c m ih =>
    obtain ⟨k, y⟩ := c
    simp only [Memory.erase]
    split
    · exact ih
    · next h => simpa [ih] using fun e => absurd e.symm h

/-- Read after write: the byte written at its address, every other byte as before. -/
theorem Memory.get_put (m : Memory) (a b : Nat) (v : Byte) : (m.put a v).get b = if b = a then v else m.get b := by
  unfold Memory.put
  split
  · next h => rw [Memory.get_erase, h]
  · rw [Memory.get_insertCell _ _ _ _ (fun x => Memory.not_mem_erase m a x),
      Memory.get_erase]
    split <;> rfl

/-! ### The canonical form -/

theorem Memory.wfFrom_cons (lo k : Nat) (x : Byte) (m : Memory) :
    Memory.wfFrom lo ((k, x) :: m) = true ↔
      lo ≤ k ∧ k < 2 ^ 32 ∧ x ≠ unlistedByte ∧ Memory.wfFrom (k + 1) m = true := by
  simp [Memory.wfFrom, and_assoc]

theorem Memory.wfFrom_mono {lo lo' : Nat} {m : Memory} (h : Memory.wfFrom lo m = true) (hl : lo' ≤ lo) :
    Memory.wfFrom lo' m = true := by
  cases m with
  | nil => rfl
  | cons c m =>
    obtain ⟨k, x⟩ := c
    rw [Memory.wfFrom_cons] at h ⊢
    exact ⟨by omega, h.2⟩

theorem Memory.wfFrom_erase {lo : Nat} {m : Memory} (a : Nat) (h : Memory.wfFrom lo m = true) :
    Memory.wfFrom lo (Memory.erase m a) = true := by
  induction m generalizing lo with
  | nil => rfl
  | cons c m ih =>
    obtain ⟨k, x⟩ := c
    rw [Memory.wfFrom_cons] at h
    simp only [Memory.erase]
    split
    · exact ih (Memory.wfFrom_mono h.2.2.2 (by omega))
    · rw [Memory.wfFrom_cons]
      exact ⟨h.1, h.2.1, h.2.2.1, ih h.2.2.2⟩

theorem Memory.wfFrom_insertCell {lo a : Nat} {m : Memory} {v : Byte} (h : Memory.wfFrom lo m = true) (hlo : lo ≤ a)
    (ha : a < 2 ^ 32) (hv : v ≠ unlistedByte) (hne : ∀ x, (a, x) ∉ m) :
    Memory.wfFrom lo (Memory.insertCell m a v) = true := by
  induction m generalizing lo with
  | nil => rw [Memory.insertCell, Memory.wfFrom_cons]; exact ⟨hlo, ha, hv, rfl⟩
  | cons c m ih =>
    obtain ⟨k, x⟩ := c
    have hk : k ≠ a := fun e => hne x (by simp [e])
    rw [Memory.wfFrom_cons] at h
    simp only [Memory.insertCell]
    split
    · rw [Memory.wfFrom_cons, Memory.wfFrom_cons]
      exact ⟨hlo, ha, hv, by omega, h.2⟩
    · rw [Memory.wfFrom_cons]
      exact ⟨h.1, h.2.1, h.2.2.1, ih h.2.2.2 (by omega) fun y hy => hne y (List.mem_cons_of_mem _ hy)⟩

/-- A write keeps the canonical form. -/
theorem Memory.wf_put {m : Memory} (h : m.wf = true) (a : Nat) (ha : a < 2 ^ 32) (v : Byte) :
    (m.put a v).wf = true := by
  unfold Memory.put
  split
  · exact Memory.wfFrom_erase a h
  · next hv =>
    exact Memory.wfFrom_insertCell (Memory.wfFrom_erase a h) (by omega) ha hv fun x => Memory.not_mem_erase m a x

theorem Memory.wf_write8 {m : Memory} (h : m.wf = true) (a : Word) (v : Byte) : (m.write8 a v).wf = true :=
  Memory.wf_put h _ a.isLt v

theorem Memory.wf_write16 {m : Memory} (h : m.wf = true) (a : Word) (v : BitVec 16) : (m.write16 a v).wf = true :=
  Memory.wf_write8 (Memory.wf_write8 h _ _) _ _

theorem Memory.wf_write32 {m : Memory} (h : m.wf = true) (a v : Word) : (m.write32 a v).wf = true :=
  Memory.wf_write8 (Memory.wf_write8 (Memory.wf_write8 (Memory.wf_write8 h _ _) _ _) _ _) _ _

theorem Memory.wf_nil : Memory.wf [] = true := rfl

theorem Memory.get_of_lt {lo a : Nat} {m : Memory} (h : Memory.wfFrom lo m = true) (ha : a < lo) :
    m.get a = unlistedByte := by
  induction m generalizing lo with
  | nil => rfl
  | cons c m ih =>
    obtain ⟨k, x⟩ := c
    rw [Memory.wfFrom_cons] at h
    rw [Memory.get_cons, if_neg (by omega)]
    exact ih h.2.2.2 (by omega)

/-- Canonical memories that read the same everywhere from `lo` on are equal. -/
theorem Memory.wfFrom_ext {lo : Nat} {m m' : Memory} (h : Memory.wfFrom lo m = true) (h' : Memory.wfFrom lo m' = true)
    (e : ∀ a, a < 2 ^ 32 → m.get a = m'.get a) : m = m' := by
  induction m generalizing lo m' with
  | nil =>
    cases m' with
    | nil => rfl
    | cons c m' =>
      obtain ⟨k, x⟩ := c
      rw [Memory.wfFrom_cons] at h'
      have := e k h'.2.1
      simp only [Memory.get_nil, Memory.get_cons, if_true] at this
      exact absurd this.symm h'.2.2.1
  | cons c m ih =>
    obtain ⟨k, x⟩ := c
    rw [Memory.wfFrom_cons] at h
    cases m' with
    | nil =>
      have := e k h.2.1
      simp only [Memory.get_nil, Memory.get_cons, if_true] at this
      exact absurd this h.2.2.1
    | cons c' m' =>
      obtain ⟨k', x'⟩ := c'
      rw [Memory.wfFrom_cons] at h'
      have hk : k = k' := by
        rcases Nat.lt_trichotomy k k' with lt | eq | gt
        · have := e k h.2.1
          rw [Memory.get_cons, if_pos rfl, Memory.get_cons, if_neg (by omega),
            Memory.get_of_lt h'.2.2.2 (by omega)] at this
          exact absurd this h.2.2.1
        · exact eq
        · have := e k' h'.2.1
          rw [Memory.get_cons, if_neg (by omega), Memory.get_of_lt h.2.2.2 (by omega), Memory.get_cons,
            if_pos rfl] at this
          exact absurd this.symm h'.2.2.1
      subst hk
      have hx : x = x' := by simpa [Memory.get_cons] using e k h.2.1
      subst hx
      have : m = m' := by
        refine ih h.2.2.2 h'.2.2.2 fun a ha => ?_
        by_cases hak : k = a
        · subst hak
          rw [Memory.get_of_lt h.2.2.2 (by omega), Memory.get_of_lt h'.2.2.2 (by omega)]
        · simpa [Memory.get_cons, hak] using e a ha
      rw [this]

/-! ### Bytes of the collaborator's writes -/

theorem Memory.read8_write8 (m : Memory) (a b : Word) (v : Byte) :
    (m.write8 a v).read8 b = if b = a then v else m.read8 b := by
  simp only [Memory.read8, Memory.write8, Memory.get_put, BitVec.toNat_inj]

theorem Memory.read8_write16 (m : Memory) (a b : Word) (v : BitVec 16) :
    (m.write16 a v).read8 b =
      if b = a + 1 then v.extractLsb' 8 8 else if b = a then v.extractLsb' 0 8 else m.read8 b := by
  simp only [Memory.write16, Memory.read8_write8]

theorem Memory.read8_write32 (m : Memory) (a b v : Word) :
    (m.write32 a v).read8 b =
      if b = a + 3 then v.extractLsb' 24 8 else if b = a + 2 then v.extractLsb' 16 8
      else if b = a + 1 then v.extractLsb' 8 8 else if b = a then v.extractLsb' 0 8 else m.read8 b := by
  simp only [Memory.write32, Memory.read8_write8]

/-- A word write leaves every byte outside its four alone. -/
theorem Memory.read8_write32_outside (m : Memory) {a b : Word} (v : Word)
    (h : ∀ i : Nat, i < 4 → b ≠ a + BitVec.ofNat 32 i) : (m.write32 a v).read8 b = m.read8 b := by
  have h0 : b ≠ a := by simpa using h 0 (by omega)
  have h1 : b ≠ a + 1 := h 1 (by omega)
  have h2 : b ≠ a + 2 := h 2 (by omega)
  have h3 : b ≠ a + 3 := h 3 (by omega)
  rw [Memory.read8_write32, if_neg h3, if_neg h2, if_neg h1, if_neg h0]

/-- A halfword write leaves every byte outside its two alone. -/
theorem Memory.read8_write16_outside (m : Memory) {a b : Word} (v : BitVec 16)
    (h : ∀ i : Nat, i < 2 → b ≠ a + BitVec.ofNat 32 i) : (m.write16 a v).read8 b = m.read8 b := by
  have h0 : b ≠ a := by simpa using h 0 (by omega)
  have h1 : b ≠ a + 1 := h 1 (by omega)
  rw [Memory.read8_write16, if_neg h1, if_neg h0]

/-- A byte write leaves every other byte alone. -/
theorem Memory.read8_write8_outside (m : Memory) {a b : Word} (v : Byte)
    (h : ∀ i : Nat, i < 1 → b ≠ a + BitVec.ofNat 32 i) : (m.write8 a v).read8 b = m.read8 b := by
  have h0 : b ≠ a := by simpa using h 0 (by omega)
  rw [Memory.read8_write8, if_neg h0]

theorem Memory.read32_write32_self (m : Memory) (a v : Word) : (m.write32 a v).read32 a = v := by
  have h1 : a + 1 ≠ a := by bv_omega
  have h2 : a + 2 ≠ a := by bv_omega
  have h3 : a + 3 ≠ a := by bv_omega
  have h12 : a + 1 ≠ a + 2 := by bv_omega
  have h13 : a + 1 ≠ a + 3 := by bv_omega
  have h23 : a + 2 ≠ a + 3 := by bv_omega
  simp only [Memory.read32, Memory.read8_write32, if_true, if_neg h12, if_neg h13, if_neg h23, if_neg h1.symm,
    if_neg h2.symm, if_neg h3.symm]
  apply BitVec.eq_of_getLsbD_eq
  intro i hi
  simp only [BitVec.getLsbD_append, BitVec.getLsbD_extractLsb']
  by_cases a1 : i < 8
  · simp [a1]
  · by_cases a2 : i - 8 < 8
    · simp [a1, a2]; congr 1; omega
    · by_cases a3 : i - 8 - 8 < 8
      · simp [a1, a2, a3]; congr 1; omega
      · have : i - 8 - 8 - 8 < 8 := by omega
        simp [a1, a2, a3, this]; congr 1; omega

end Sys2Proof.Machine
end

