-- ==== Sys2Proof/Laws/State.lean ====
section
/-!
SUPPORT. The field lemmas: what each update of the state leaves in each field, one lemma per field per update, each true
by unfolding once, so that no later proof unfolds a record update.
-/

namespace Sys2Proof.Machine

@[simp] theorem withPc_regs (s : State) (v : Word) : (s.withPc v).regs = s.regs.set .r15 v := rfl
@[simp] theorem withPc_cpsr (s : State) (v : Word) : (s.withPc v).cpsr = s.cpsr := rfl
@[simp] theorem withPc_spsr (s : State) (v : Word) : (s.withPc v).spsr = s.spsr := rfl
@[simp] theorem withPc_pipe0 (s : State) (v : Word) : (s.withPc v).pipe0 = s.pipe0 := rfl
@[simp] theorem withPc_pipe1 (s : State) (v : Word) : (s.withPc v).pipe1 = s.pipe1 := rfl
@[simp] theorem withPc_nextFetchKind (s : State) (v : Word) : (s.withPc v).nextFetchKind = s.nextFetchKind := rfl
@[simp] theorem withPc_mem (s : State) (v : Word) : (s.withPc v).mem = s.mem := rfl
@[simp] theorem withPc_inputs (s : State) (v : Word) : (s.withPc v).inputs = s.inputs := rfl
@[simp] theorem withPc_calls (s : State) (v : Word) : (s.withPc v).calls = s.calls := rfl
@[simp] theorem withPc_params (s : State) (v : Word) : (s.withPc v).params = s.params := rfl
@[simp] theorem withPc_freeCount (s : State) (v : Word) : (s.withPc v).freeCount = s.freeCount := rfl

@[simp] theorem withCpsr_regs (s : State) (p : Psr) : (s.withCpsr p).regs = s.regs := rfl
@[simp] theorem withCpsr_cpsr (s : State) (p : Psr) : (s.withCpsr p).cpsr = p := rfl
@[simp] theorem withCpsr_spsr (s : State) (p : Psr) : (s.withCpsr p).spsr = s.spsr := rfl
@[simp] theorem withCpsr_pipe0 (s : State) (p : Psr) : (s.withCpsr p).pipe0 = s.pipe0 := rfl
@[simp] theorem withCpsr_pipe1 (s : State) (p : Psr) : (s.withCpsr p).pipe1 = s.pipe1 := rfl
@[simp] theorem withCpsr_nextFetchKind (s : State) (p : Psr) : (s.withCpsr p).nextFetchKind = s.nextFetchKind := rfl
@[simp] theorem withCpsr_mem (s : State) (p : Psr) : (s.withCpsr p).mem = s.mem := rfl
@[simp] theorem withCpsr_inputs (s : State) (p : Psr) : (s.withCpsr p).inputs = s.inputs := rfl
@[simp] theorem withCpsr_calls (s : State) (p : Psr) : (s.withCpsr p).calls = s.calls := rfl
@[simp] theorem withCpsr_params (s : State) (p : Psr) : (s.withCpsr p).params = s.params := rfl
@[simp] theorem withCpsr_freeCount (s : State) (p : Psr) : (s.withCpsr p).freeCount = s.freeCount := rfl

@[simp] theorem withSpsr_regs (s : State) (e : ExcMode) (p : Psr) : (s.withSpsr e p).regs = s.regs := rfl
@[simp] theorem withSpsr_cpsr (s : State) (e : ExcMode) (p : Psr) : (s.withSpsr e p).cpsr = s.cpsr := rfl
@[simp] theorem withSpsr_spsr (s : State) (e : ExcMode) (p : Psr) : (s.withSpsr e p).spsr = s.spsr.set e p := rfl
@[simp] theorem withSpsr_pipe0 (s : State) (e : ExcMode) (p : Psr) : (s.withSpsr e p).pipe0 = s.pipe0 := rfl
@[simp] theorem withSpsr_pipe1 (s : State) (e : ExcMode) (p : Psr) : (s.withSpsr e p).pipe1 = s.pipe1 := rfl
@[simp] theorem withSpsr_nextFetchKind (s : State) (e : ExcMode) (p : Psr) :
    (s.withSpsr e p).nextFetchKind = s.nextFetchKind := rfl
@[simp] theorem withSpsr_mem (s : State) (e : ExcMode) (p : Psr) : (s.withSpsr e p).mem = s.mem := rfl
@[simp] theorem withSpsr_inputs (s : State) (e : ExcMode) (p : Psr) : (s.withSpsr e p).inputs = s.inputs := rfl
@[simp] theorem withSpsr_calls (s : State) (e : ExcMode) (p : Psr) : (s.withSpsr e p).calls = s.calls := rfl
@[simp] theorem withSpsr_params (s : State) (e : ExcMode) (p : Psr) : (s.withSpsr e p).params = s.params := rfl
@[simp] theorem withSpsr_freeCount (s : State) (e : ExcMode) (p : Psr) :
    (s.withSpsr e p).freeCount = s.freeCount := rfl

@[simp] theorem record_regs (s : State) (c : BusCall) : (s.record c).regs = s.regs := rfl
@[simp] theorem record_cpsr (s : State) (c : BusCall) : (s.record c).cpsr = s.cpsr := rfl
@[simp] theorem record_spsr (s : State) (c : BusCall) : (s.record c).spsr = s.spsr := rfl
@[simp] theorem record_pipe0 (s : State) (c : BusCall) : (s.record c).pipe0 = s.pipe0 := rfl
@[simp] theorem record_pipe1 (s : State) (c : BusCall) : (s.record c).pipe1 = s.pipe1 := rfl
@[simp] theorem record_nextFetchKind (s : State) (c : BusCall) : (s.record c).nextFetchKind = s.nextFetchKind := rfl
@[simp] theorem record_mem (s : State) (c : BusCall) : (s.record c).mem = s.mem := rfl
@[simp] theorem record_inputs (s : State) (c : BusCall) : (s.record c).inputs = s.inputs := rfl
@[simp] theorem record_calls (s : State) (c : BusCall) : (s.record c).calls = s.calls ++ [c] := rfl
@[simp] theorem record_params (s : State) (c : BusCall) : (s.record c).params = s.params := rfl
@[simp] theorem record_freeCount (s : State) (c : BusCall) : (s.record c).freeCount = s.freeCount := rfl

@[simp] theorem writeReg_regs (md : Mode) (i : Reg) (v : Word) (s : State) :
    (writeReg md i v s).regs = s.regs.set (phys i md) v := rfl
@[simp] theorem writeReg_cpsr (md : Mode) (i : Reg) (v : Word) (s : State) : (writeReg md i v s).cpsr = s.cpsr := rfl
@[simp] theorem writeReg_spsr (md : Mode) (i : Reg) (v : Word) (s : State) : (writeReg md i v s).spsr = s.spsr := rfl
@[simp] theorem writeReg_pipe0 (md : Mode) (i : Reg) (v : Word) (s : State) :
    (writeReg md i v s).pipe0 = s.pipe0 := rfl
@[simp] theorem writeReg_pipe1 (md : Mode) (i : Reg) (v : Word) (s : State) :
    (writeReg md i v s).pipe1 = s.pipe1 := rfl
@[simp] theorem writeReg_nextFetchKind (md : Mode) (i : Reg) (v : Word) (s : State) :
    (writeReg md i v s).nextFetchKind = s.nextFetchKind := rfl
@[simp] theorem writeReg_mem (md : Mode) (i : Reg) (v : Word) (s : State) : (writeReg md i v s).mem = s.mem := rfl
@[simp] theorem writeReg_inputs (md : Mode) (i : Reg) (v : Word) (s : State) :
    (writeReg md i v s).inputs = s.inputs := rfl
@[simp] theorem writeReg_calls (md : Mode) (i : Reg) (v : Word) (s : State) :
    (writeReg md i v s).calls = s.calls := rfl
@[simp] theorem writeReg_params (md : Mode) (i : Reg) (v : Word) (s : State) :
    (writeReg md i v s).params = s.params := rfl
@[simp] theorem writeReg_freeCount (md : Mode) (i : Reg) (v : Word) (s : State) :
    (writeReg md i v s).freeCount = s.freeCount := rfl

@[simp] theorem load32_regs (a : Word) (k : AccessKind) (s : State) : ((load32 a k s).2).regs = s.regs := rfl
@[simp] theorem load32_cpsr (a : Word) (k : AccessKind) (s : State) : ((load32 a k s).2).cpsr = s.cpsr := rfl
@[simp] theorem load32_spsr (a : Word) (k : AccessKind) (s : State) : ((load32 a k s).2).spsr = s.spsr := rfl
@[simp] theorem load32_pipe0 (a : Word) (k : AccessKind) (s : State) : ((load32 a k s).2).pipe0 = s.pipe0 := rfl
@[simp] theorem load32_pipe1 (a : Word) (k : AccessKind) (s : State) : ((load32 a k s).2).pipe1 = s.pipe1 := rfl
@[simp] theorem load32_nextFetchKind (a : Word) (k : AccessKind) (s : State) :
    ((load32 a k s).2).nextFetchKind = s.nextFetchKind := rfl
@[simp] theorem load32_mem (a : Word) (k : AccessKind) (s : State) : ((load32 a k s).2).mem = s.mem := rfl
@[simp] theorem load32_inputs (a : Word) (k : AccessKind) (s : State) : ((load32 a k s).2).inputs = s.inputs := rfl
@[simp] theorem load32_calls (a : Word) (k : AccessKind) (s : State) :
    ((load32 a k s).2).calls = s.calls ++ [.load .word a k (s.mem.read32 a)] := rfl
@[simp] theorem load32_params (a : Word) (k : AccessKind) (s : State) : ((load32 a k s).2).params = s.params := rfl
@[simp] theorem load32_freeCount (a : Word) (k : AccessKind) (s : State) :
    ((load32 a k s).2).freeCount = s.freeCount := rfl

@[simp] theorem load16_regs (a : Word) (k : AccessKind) (s : State) : ((load16 a k s).2).regs = s.regs := rfl
@[simp] theorem load16_cpsr (a : Word) (k : AccessKind) (s : State) : ((load16 a k s).2).cpsr = s.cpsr := rfl
@[simp] theorem load16_spsr (a : Word) (k : AccessKind) (s : State) : ((load16 a k s).2).spsr = s.spsr := rfl
@[simp] theorem load16_pipe0 (a : Word) (k : AccessKind) (s : State) : ((load16 a k s).2).pipe0 = s.pipe0 := rfl
@[simp] theorem load16_pipe1 (a : Word) (k : AccessKind) (s : State) : ((load16 a k s).2).pipe1 = s.pipe1 := rfl
@[simp] theorem load16_nextFetchKind (a : Word) (k : AccessKind) (s : State) :
    ((load16 a k s).2).nextFetchKind = s.nextFetchKind := rfl
@[simp] theorem load16_mem (a : Word) (k : AccessKind) (s : State) : ((load16 a k s).2).mem = s.mem := rfl
@[simp] theorem load16_inputs (a : Word) (k : AccessKind) (s : State) : ((load16 a k s).2).inputs = s.inputs := rfl
@[simp] theorem load16_calls (a : Word) (k : AccessKind) (s : State) :
    ((load16 a k s).2).calls = s.calls ++ [.load .half a k ((s.mem.read16 a).setWidth 32)] := rfl
@[simp] theorem load16_params (a : Word) (k : AccessKind) (s : State) : ((load16 a k s).2).params = s.params := rfl
@[simp] theorem load16_freeCount (a : Word) (k : AccessKind) (s : State) :
    ((load16 a k s).2).freeCount = s.freeCount := rfl

@[simp] theorem load8_regs (a : Word) (k : AccessKind) (s : State) : ((load8 a k s).2).regs = s.regs := rfl
@[simp] theorem load8_cpsr (a : Word) (k : AccessKind) (s : State) : ((load8 a k s).2).cpsr = s.cpsr := rfl
@[simp] theorem load8_spsr (a : Word) (k : AccessKind) (s : State) : ((load8 a k s).2).spsr = s.spsr := rfl
@[simp] theorem load8_pipe0 (a : Word) (k : AccessKind) (s : State) : ((load8 a k s).2).pipe0 = s.pipe0 := rfl
@[simp] theorem load8_pipe1 (a : Word) (k : AccessKind) (s : State) : ((load8 a k s).2).pipe1 = s.pipe1 := rfl
@[simp] theorem load8_nextFetchKind (a : Word) (k : AccessKind) (s : State) :
    ((load8 a k s).2).nextFetchKind = s.nextFetchKind := rfl
@[simp] theorem load8_mem (a : Word) (k : AccessKind) (s : State) : ((load8 a k s).2).mem = s.mem := rfl
@[simp] theorem load8_inputs (a : Word) (k : AccessKind) (s : State) : ((load8 a k s).2).inputs = s.inputs := rfl
@[simp] theorem load8_calls (a : Word) (k : AccessKind) (s : State) :
    ((load8 a k s).2).calls = s.calls ++ [.load .byte a k ((s.mem.read8 a).setWidth 32)] := rfl
@[simp] theorem load8_params (a : Word) (k : AccessKind) (s : State) : ((load8 a k s).2).params = s.params := rfl
@[simp] theorem load8_freeCount (a : Word) (k : AccessKind) (s : State) :
    ((load8 a k s).2).freeCount = s.freeCount := rfl

@[simp] theorem loadRotated_regs (a : Word) (k : AccessKind) (s : State) :
    ((loadRotated a k s).2).regs = s.regs := rfl
@[simp] theorem loadRotated_cpsr (a : Word) (k : AccessKind) (s : State) :
    ((loadRotated a k s).2).cpsr = s.cpsr := rfl
@[simp] theorem loadRotated_spsr (a : Word) (k : AccessKind) (s : State) :
    ((loadRotated a k s).2).spsr = s.spsr := rfl
@[simp] theorem loadRotated_pipe0 (a : Word) (k : AccessKind) (s : State) :
    ((loadRotated a k s).2).pipe0 = s.pipe0 := rfl
@[simp] theorem loadRotated_pipe1 (a : Word) (k : AccessKind) (s : State) :
    ((loadRotated a k s).2).pipe1 = s.pipe1 := rfl
@[simp] theorem loadRotated_nextFetchKind (a : Word) (k : AccessKind) (s : State) :
    ((loadRotated a k s).2).nextFetchKind = s.nextFetchKind := rfl
@[simp] theorem loadRotated_mem (a : Word) (k : AccessKind) (s : State) : ((loadRotated a k s).2).mem = s.mem := rfl
@[simp] theorem loadRotated_inputs (a : Word) (k : AccessKind) (s : State) :
    ((loadRotated a k s).2).inputs = s.inputs := rfl
@[simp] theorem loadRotated_calls (a : Word) (k : AccessKind) (s : State) :
    ((loadRotated a k s).2).calls = s.calls ++ [.load .word (wordAddr a) k (s.mem.read32 (wordAddr a))] := rfl
@[simp] theorem loadRotated_params (a : Word) (k : AccessKind) (s : State) :
    ((loadRotated a k s).2).params = s.params := rfl
@[simp] theorem loadRotated_freeCount (a : Word) (k : AccessKind) (s : State) :
    ((loadRotated a k s).2).freeCount = s.freeCount := rfl

@[simp] theorem store32_regs (a v : Word) (k : AccessKind) (s : State) : (store32 a v k s).regs = s.regs := rfl
@[simp] theorem store32_cpsr (a v : Word) (k : AccessKind) (s : State) : (store32 a v k s).cpsr = s.cpsr := rfl
@[simp] theorem store32_spsr (a v : Word) (k : AccessKind) (s : State) : (store32 a v k s).spsr = s.spsr := rfl
@[simp] theorem store32_pipe0 (a v : Word) (k : AccessKind) (s : State) : (store32 a v k s).pipe0 = s.pipe0 := rfl
@[simp] theorem store32_pipe1 (a v : Word) (k : AccessKind) (s : State) : (store32 a v k s).pipe1 = s.pipe1 := rfl
@[simp] theorem store32_nextFetchKind (a v : Word) (k : AccessKind) (s : State) :
    (store32 a v k s).nextFetchKind = s.nextFetchKind := rfl
@[simp] theorem store32_mem (a v : Word) (k : AccessKind) (s : State) :
    (store32 a v k s).mem = s.mem.write32 a v := rfl
@[simp] theorem store32_inputs (a v : Word) (k : AccessKind) (s : State) : (store32 a v k s).inputs = s.inputs := rfl
@[simp] theorem store32_calls (a v : Word) (k : AccessKind) (s : State) :
    (store32 a v k s).calls = s.calls ++ [.store .word a k v] := rfl
@[simp] theorem store32_params (a v : Word) (k : AccessKind) (s : State) : (store32 a v k s).params = s.params := rfl
@[simp] theorem store32_freeCount (a v : Word) (k : AccessKind) (s : State) :
    (store32 a v k s).freeCount = s.freeCount := rfl

@[simp] theorem store16_regs (a : Word) (v : BitVec 16) (k : AccessKind) (s : State) :
    (store16 a v k s).regs = s.regs := rfl
@[simp] theorem store16_cpsr (a : Word) (v : BitVec 16) (k : AccessKind) (s : State) :
    (store16 a v k s).cpsr = s.cpsr := rfl
@[simp] theorem store16_spsr (a : Word) (v : BitVec 16) (k : AccessKind) (s : State) :
    (store16 a v k s).spsr = s.spsr := rfl
@[simp] theorem store16_pipe0 (a : Word) (v : BitVec 16) (k : AccessKind) (s : State) :
    (store16 a v k s).pipe0 = s.pipe0 := rfl
@[simp] theorem store16_pipe1 (a : Word) (v : BitVec 16) (k : AccessKind) (s : State) :
    (store16 a v k s).pipe1 = s.pipe1 := rfl
@[simp] theorem store16_nextFetchKind (a : Word) (v : BitVec 16) (k : AccessKind) (s : State) :
    (store16 a v k s).nextFetchKind = s.nextFetchKind := rfl
@[simp] theorem store16_mem (a : Word) (v : BitVec 16) (k : AccessKind) (s : State) :
    (store16 a v k s).mem = s.mem.write16 a v := rfl
@[simp] theorem store16_inputs (a : Word) (v : BitVec 16) (k : AccessKind) (s : State) :
    (store16 a v k s).inputs = s.inputs := rfl
@[simp] theorem store16_calls (a : Word) (v : BitVec 16) (k : AccessKind) (s : State) :
    (store16 a v k s).calls = s.calls ++ [.store .half a k (v.setWidth 32)] := rfl
@[simp] theorem store16_params (a : Word) (v : BitVec 16) (k : AccessKind) (s : State) :
    (store16 a v k s).params = s.params := rfl
@[simp] theorem store16_freeCount (a : Word) (v : BitVec 16) (k : AccessKind) (s : State) :
    (store16 a v k s).freeCount = s.freeCount := rfl

@[simp] theorem store8_regs (a : Word) (v : Byte) (k : AccessKind) (s : State) : (store8 a v k s).regs = s.regs := rfl
@[simp] theorem store8_cpsr (a : Word) (v : Byte) (k : AccessKind) (s : State) : (store8 a v k s).cpsr = s.cpsr := rfl
@[simp] theorem store8_spsr (a : Word) (v : Byte) (k : AccessKind) (s : State) : (store8 a v k s).spsr = s.spsr := rfl
@[simp] theorem store8_pipe0 (a : Word) (v : Byte) (k : AccessKind) (s : State) :
    (store8 a v k s).pipe0 = s.pipe0 := rfl
@[simp] theorem store8_pipe1 (a : Word) (v : Byte) (k : AccessKind) (s : State) :
    (store8 a v k s).pipe1 = s.pipe1 := rfl
@[simp] theorem store8_nextFetchKind (a : Word) (v : Byte) (k : AccessKind) (s : State) :
    (store8 a v k s).nextFetchKind = s.nextFetchKind := rfl
@[simp] theorem store8_mem (a : Word) (v : Byte) (k : AccessKind) (s : State) :
    (store8 a v k s).mem = s.mem.write8 a v := rfl
@[simp] theorem store8_inputs (a : Word) (v : Byte) (k : AccessKind) (s : State) :
    (store8 a v k s).inputs = s.inputs := rfl
@[simp] theorem store8_calls (a : Word) (v : Byte) (k : AccessKind) (s : State) :
    (store8 a v k s).calls = s.calls ++ [.store .byte a k (v.setWidth 32)] := rfl
@[simp] theorem store8_params (a : Word) (v : Byte) (k : AccessKind) (s : State) :
    (store8 a v k s).params = s.params := rfl
@[simp] theorem store8_freeCount (a : Word) (v : Byte) (k : AccessKind) (s : State) :
    (store8 a v k s).freeCount = s.freeCount := rfl

@[simp] theorem drawFree_regs (s : State) : ((drawFree s).2).regs = s.regs := rfl
@[simp] theorem drawFree_cpsr (s : State) : ((drawFree s).2).cpsr = s.cpsr := rfl
@[simp] theorem drawFree_spsr (s : State) : ((drawFree s).2).spsr = s.spsr := rfl
@[simp] theorem drawFree_pipe0 (s : State) : ((drawFree s).2).pipe0 = s.pipe0 := rfl
@[simp] theorem drawFree_pipe1 (s : State) : ((drawFree s).2).pipe1 = s.pipe1 := rfl
@[simp] theorem drawFree_nextFetchKind (s : State) : ((drawFree s).2).nextFetchKind = s.nextFetchKind := rfl
@[simp] theorem drawFree_mem (s : State) : ((drawFree s).2).mem = s.mem := rfl
@[simp] theorem drawFree_inputs (s : State) : ((drawFree s).2).inputs = s.inputs := rfl
@[simp] theorem drawFree_calls (s : State) : ((drawFree s).2).calls = s.calls := rfl
@[simp] theorem drawFree_params (s : State) : ((drawFree s).2).params = s.params := rfl
@[simp] theorem drawFree_freeCount (s : State) : ((drawFree s).2).freeCount = s.freeCount + 1 := rfl

@[simp] theorem advance_regs (k : AccessKind) (s : State) : (advance k s).regs = s.regs.set .r15 (s.pc + 4) := rfl
@[simp] theorem advance_cpsr (k : AccessKind) (s : State) : (advance k s).cpsr = s.cpsr := rfl
@[simp] theorem advance_spsr (k : AccessKind) (s : State) : (advance k s).spsr = s.spsr := rfl
@[simp] theorem advance_pipe0 (k : AccessKind) (s : State) : (advance k s).pipe0 = s.pipe0 := rfl
@[simp] theorem advance_pipe1 (k : AccessKind) (s : State) : (advance k s).pipe1 = s.pipe1 := rfl
@[simp] theorem advance_nextFetchKind (k : AccessKind) (s : State) : (advance k s).nextFetchKind = k := rfl
@[simp] theorem advance_mem (k : AccessKind) (s : State) : (advance k s).mem = s.mem := rfl
@[simp] theorem advance_inputs (k : AccessKind) (s : State) : (advance k s).inputs = s.inputs := rfl
@[simp] theorem advance_calls (k : AccessKind) (s : State) : (advance k s).calls = s.calls := rfl
@[simp] theorem advance_params (k : AccessKind) (s : State) : (advance k s).params = s.params := rfl
@[simp] theorem advance_freeCount (k : AccessKind) (s : State) : (advance k s).freeCount = s.freeCount := rfl

@[simp] theorem refill_regs (a : Word) (s : State) : (refill a s).regs = s.regs.set .r15 (a + 8) := rfl
@[simp] theorem refill_cpsr (a : Word) (s : State) : (refill a s).cpsr = s.cpsr := rfl
@[simp] theorem refill_spsr (a : Word) (s : State) : (refill a s).spsr = s.spsr := rfl
@[simp] theorem refill_pipe0 (a : Word) (s : State) : (refill a s).pipe0 = s.mem.read32 a := rfl
@[simp] theorem refill_pipe1 (a : Word) (s : State) : (refill a s).pipe1 = s.mem.read32 (a + 4) := rfl
@[simp] theorem refill_nextFetchKind (a : Word) (s : State) : (refill a s).nextFetchKind = .sequential := rfl
@[simp] theorem refill_mem (a : Word) (s : State) : (refill a s).mem = s.mem := rfl
@[simp] theorem refill_inputs (a : Word) (s : State) : (refill a s).inputs = s.inputs := rfl
@[simp] theorem refill_calls (a : Word) (s : State) :
    (refill a s).calls = s.calls ++ [.load .word a .nonSequential (s.mem.read32 a)]
      ++ [.load .word (a + 4) .sequential (s.mem.read32 (a + 4))] := rfl
@[simp] theorem refill_params (a : Word) (s : State) : (refill a s).params = s.params := rfl
@[simp] theorem refill_freeCount (a : Word) (s : State) : (refill a s).freeCount = s.freeCount := rfl

@[simp] theorem thumbFlush_regs (t : Word) (s : State) :
    (thumbFlush t s).regs = s.regs.set .r15 (t &&& 0xFFFFFFFE) := rfl
@[simp] theorem thumbFlush_cpsr (t : Word) (s : State) : (thumbFlush t s).cpsr = s.cpsr := rfl
@[simp] theorem thumbFlush_spsr (t : Word) (s : State) : (thumbFlush t s).spsr = s.spsr := rfl
@[simp] theorem thumbFlush_pipe0 (t : Word) (s : State) : (thumbFlush t s).pipe0 = Config.freeWord s.freeCount := rfl
@[simp] theorem thumbFlush_pipe1 (t : Word) (s : State) :
    (thumbFlush t s).pipe1 = Config.freeWord (s.freeCount + 1) := rfl
@[simp] theorem thumbFlush_nextFetchKind (t : Word) (s : State) :
    (thumbFlush t s).nextFetchKind = .nonSequential := rfl
@[simp] theorem thumbFlush_mem (t : Word) (s : State) : (thumbFlush t s).mem = s.mem := rfl
@[simp] theorem thumbFlush_inputs (t : Word) (s : State) : (thumbFlush t s).inputs = s.inputs := rfl
@[simp] theorem thumbFlush_calls (t : Word) (s : State) : (thumbFlush t s).calls = s.calls := rfl
@[simp] theorem thumbFlush_params (t : Word) (s : State) : (thumbFlush t s).params = s.params := rfl
@[simp] theorem thumbFlush_freeCount (t : Word) (s : State) : (thumbFlush t s).freeCount = s.freeCount + 1 + 1 := rfl

@[simp] theorem beginStep_regs (s : State) : (beginStep s).regs = s.regs := rfl
@[simp] theorem beginStep_cpsr (s : State) : (beginStep s).cpsr = s.cpsr := rfl
@[simp] theorem beginStep_spsr (s : State) : (beginStep s).spsr = s.spsr := rfl
@[simp] theorem beginStep_pipe0 (s : State) : (beginStep s).pipe0 = s.pipe0 := rfl
@[simp] theorem beginStep_pipe1 (s : State) : (beginStep s).pipe1 = s.pipe1 := rfl
@[simp] theorem beginStep_nextFetchKind (s : State) : (beginStep s).nextFetchKind = s.nextFetchKind := rfl
@[simp] theorem beginStep_mem (s : State) : (beginStep s).mem = s.mem := rfl
@[simp] theorem beginStep_inputs (s : State) : (beginStep s).inputs = s.inputs.tail := rfl
@[simp] theorem beginStep_calls (s : State) : (beginStep s).calls = [] := rfl
@[simp] theorem beginStep_params (s : State) : (beginStep s).params = s.params := rfl
@[simp] theorem beginStep_freeCount (s : State) : (beginStep s).freeCount = s.freeCount := rfl

@[simp] theorem fetchShift_regs (s : State) : (fetchShift s).regs = s.regs := rfl
@[simp] theorem fetchShift_cpsr (s : State) : (fetchShift s).cpsr = s.cpsr := rfl
@[simp] theorem fetchShift_spsr (s : State) : (fetchShift s).spsr = s.spsr := rfl
@[simp] theorem fetchShift_pipe0 (s : State) : (fetchShift s).pipe0 = s.pipe1 := rfl
@[simp] theorem fetchShift_pipe1 (s : State) : (fetchShift s).pipe1 = s.mem.read32 s.pc := rfl
@[simp] theorem fetchShift_nextFetchKind (s : State) : (fetchShift s).nextFetchKind = s.nextFetchKind := rfl
@[simp] theorem fetchShift_mem (s : State) : (fetchShift s).mem = s.mem := rfl
@[simp] theorem fetchShift_inputs (s : State) : (fetchShift s).inputs = s.inputs := rfl
@[simp] theorem fetchShift_calls (s : State) :
    (fetchShift s).calls = s.calls ++ [.load .word s.pc s.nextFetchKind (s.mem.read32 s.pc)] := rfl
@[simp] theorem fetchShift_params (s : State) : (fetchShift s).params = s.params := rfl
@[simp] theorem fetchShift_freeCount (s : State) : (fetchShift s).freeCount = s.freeCount := rfl

/-! ### The values the loads answer -/

@[simp] theorem load32_value (a : Word) (k : AccessKind) (s : State) : (load32 a k s).1 = s.mem.read32 a := rfl
@[simp] theorem load16_value (a : Word) (k : AccessKind) (s : State) : (load16 a k s).1 = s.mem.read16 a := rfl
@[simp] theorem load8_value (a : Word) (k : AccessKind) (s : State) : (load8 a k s).1 = s.mem.read8 a := rfl
@[simp] theorem loadRotated_value (a : Word) (k : AccessKind) (s : State) :
    (loadRotated a k s).1 = (s.mem.read32 (wordAddr a)).rotateRight (misalignRotation a) := rfl
@[simp] theorem drawFree_value (s : State) : (drawFree s).1 = Config.freeWord s.freeCount := rfl

end Sys2Proof.Machine
end

