-- ==== Sys2Proof/Laws/Registers.lean ====
section
/-!
SUPPORT. The register file and the saved status registers: read after write, which names share a register, and when a
write reaches R15.
-/

namespace Sys2Proof.Machine

@[simp] theorem RegFile.get_set_self (f : RegFile) (p : PhysReg) (v : Word) : (f.set p v).get p = v := by
  cases p <;> rfl

theorem RegFile.get_set_ne (f : RegFile) {p q : PhysReg} (v : Word) (h : q ≠ p) : (f.set p v).get q = f.get q := by
  cases p <;> cases q <;> first | rfl | exact absurd rfl h

theorem RegFile.get_set (f : RegFile) (p q : PhysReg) (v : Word) :
    (f.set p v).get q = if q = p then v else f.get q := by
  by_cases h : q = p
  · subst h; simp
  · simp [h, RegFile.get_set_ne]

/-- Two register files that agree on every register are one. -/
theorem RegFile.ext_get {f g : RegFile} (h : ∀ p, f.get p = g.get p) : f = g := by
  cases f; cases g
  simp only [RegFile.mk.injEq]
  exact ⟨h .r0, h .r1, h .r2, h .r3, h .r4, h .r5, h .r6, h .r7, h .r8Usr, h .r9Usr, h .r10Usr, h .r11Usr, h .r12Usr,
    h .r8Fiq, h .r9Fiq, h .r10Fiq, h .r11Fiq, h .r12Fiq, h .r13Usr, h .r14Usr, h .r13Fiq, h .r14Fiq, h .r13Irq,
    h .r14Irq, h .r13Svc, h .r14Svc, h .r13Abt, h .r14Abt, h .r13Und, h .r14Und, h .r15⟩

theorem RegFile.set_set_same (f : RegFile) (p : PhysReg) (v w : Word) : (f.set p v).set p w = f.set p w := by
  cases p <;> rfl

theorem RegFile.set_comm (f : RegFile) {p q : PhysReg} (v w : Word) (h : p ≠ q) :
    (f.set p v).set q w = (f.set q w).set p v := by
  refine RegFile.ext_get fun r => ?_
  simp only [RegFile.get_set]
  by_cases hp : r = p
  · simp [hp, h]
  · simp [hp]

@[simp] theorem RegFile.r15_set (f : RegFile) (p : PhysReg) (v : Word) :
    (f.set p v).r15 = if .r15 = p then v else f.r15 := RegFile.get_set f p .r15 v

theorem State.pc_eq (s : State) : s.pc = s.regs.get .r15 := rfl

/-! ### Which register a name reaches -/

theorem phys_eq_r15 (md : Mode) : ∀ i : Reg, phys i md = .r15 ↔ i = 15 := by
  cases md <;> decide

@[simp] theorem phys_15 (md : Mode) : phys 15#4 md = .r15 := by cases md <;> rfl

theorem phys_ne_r15 {i : Reg} (md : Mode) (h : i ≠ 15) : phys i md ≠ .r15 := fun e => h ((phys_eq_r15 md i).1 e)

theorem phys_inj (md : Mode) : ∀ i j : Reg, phys i md = phys j md → i = j := by
  cases md <;> decide

@[simp] theorem phys_eq_iff (md : Mode) (i j : Reg) : phys i md = phys j md ↔ i = j :=
  ⟨phys_inj md i j, fun h => h ▸ rfl⟩

theorem readReg_15 (md : Mode) (s : State) : readReg md 15 s = s.pc := by simp [readReg, State.pc_eq]

theorem readReg_writeReg (md : Mode) (i j : Reg) (v : Word) (s : State) :
    readReg md j (writeReg md i v s) = if j = i then v else readReg md j s := by
  simp [readReg, RegFile.get_set]

@[simp] theorem readReg_withCpsr (md : Mode) (i : Reg) (p : Psr) (s : State) :
    readReg md i (s.withCpsr p) = readReg md i s := rfl

theorem pc_writeReg {i : Reg} (md : Mode) (v : Word) (s : State) (h : i ≠ 15) : (writeReg md i v s).pc = s.pc := by
  simp [State.pc_eq, RegFile.get_set, (phys_ne_r15 md h).symm]

@[simp] theorem pc_withCpsr (s : State) (p : Psr) : (s.withCpsr p).pc = s.pc := rfl
@[simp] theorem pc_withSpsr (s : State) (e : ExcMode) (p : Psr) : (s.withSpsr e p).pc = s.pc := rfl
@[simp] theorem pc_record (s : State) (c : BusCall) : (s.record c).pc = s.pc := rfl
@[simp] theorem pc_withPc (s : State) (v : Word) : (s.withPc v).pc = v := rfl
@[simp] theorem pc_advance (k : AccessKind) (s : State) : (advance k s).pc = s.pc + 4 := rfl
@[simp] theorem pc_refill (a : Word) (s : State) : (refill a s).pc = a + 8 := rfl
@[simp] theorem pc_thumbFlush (t : Word) (s : State) : (thumbFlush t s).pc = t &&& 0xFFFFFFFE := rfl
@[simp] theorem pc_beginStep (s : State) : (beginStep s).pc = s.pc := rfl
@[simp] theorem pc_fetchShift (s : State) : (fetchShift s).pc = s.pc := rfl
@[simp] theorem pc_store32 (a v : Word) (k : AccessKind) (s : State) : (store32 a v k s).pc = s.pc := rfl
@[simp] theorem pc_store16 (a : Word) (v : BitVec 16) (k : AccessKind) (s : State) : (store16 a v k s).pc = s.pc := rfl
@[simp] theorem pc_store8 (a : Word) (v : Byte) (k : AccessKind) (s : State) : (store8 a v k s).pc = s.pc := rfl
@[simp] theorem pc_load32 (a : Word) (k : AccessKind) (s : State) : (load32 a k s).2.pc = s.pc := rfl
@[simp] theorem pc_load16 (a : Word) (k : AccessKind) (s : State) : (load16 a k s).2.pc = s.pc := rfl
@[simp] theorem pc_load8 (a : Word) (k : AccessKind) (s : State) : (load8 a k s).2.pc = s.pc := rfl
@[simp] theorem pc_drawFree (s : State) : (drawFree s).2.pc = s.pc := rfl

/-! ### Saved status registers -/

@[simp] theorem SpsrFile.get_set_self (f : SpsrFile) (e : ExcMode) (p : Psr) : (f.set e p).get e = p := by
  cases e <;> rfl

theorem SpsrFile.get_set (f : SpsrFile) (e d : ExcMode) (p : Psr) :
    (f.set e p).get d = if d = e then p else f.get d := by
  cases e <;> cases d <;> rfl

/-! ### Modes and their patterns -/

@[simp] theorem Mode.ofBits_bits (md : Mode) : Mode.ofBits md.bits = some md := by cases md <;> rfl

theorem Mode.ofBits_some (md : Mode) : ∀ b : BitVec 5, Mode.ofBits b = some md ↔ b = md.bits := by
  cases md <;> decide

@[simp] theorem ExcMode.excMode_mode (e : ExcMode) : e.mode.excMode = some e := by cases e <;> rfl

/-! ### Status registers as words (10_state.md rule R25) -/

/-- A status register read as a word and stored again is the same register. -/
@[simp] theorem Psr.ofWord_toWord (p : Psr) : Psr.ofWord p.toWord = p := by
  obtain ⟨n, z, c, v, i, f, t, m⟩ := p
  have bits (k : Nat) : (Psr.toWord ⟨n, z, c, v, i, f, t, m⟩).getLsbD k =
      @BitVec.getLsbD (1 + 1 + 1 + 1 + 20 + 1 + 1 + 1 + 5) (BitVec.ofBool n ++ BitVec.ofBool z ++ BitVec.ofBool c ++
        BitVec.ofBool v ++ 0#20 ++ BitVec.ofBool i ++ BitVec.ofBool f ++ BitVec.ofBool t ++ m) k := rfl
  simp only [Psr.ofWord, Psr.mk.injEq, bits, BitVec.getLsbD_append]
  refine ⟨by simp, by simp, by simp, by simp, by simp, by simp, by simp, ?_⟩
  ext j hj
  rw [BitVec.getElem_extractLsb', Nat.zero_add, bits, BitVec.getLsbD_append]
  simp [hj]

end Sys2Proof.Machine
end

