-- ==== Sys2Proof/Laws/Ops.lean ====
section
/-!
SUPPORT. One lemma per shared operation that says all it can answer.  What most instructions do is a sequence of a few
primitive moves (`Moves`), so that a fact about all of them is one induction.
-/

namespace Sys2Proof.Machine

/-! ### The gate and the class U test -/

/-- Where the condition passes in a valid mode, the gate is the instruction's own effect. -/
theorem gate_passed {c : Cond} {s : State} {md : Mode} (hm : Mode.ofBits s.cpsr.m = some md)
    (hc : condPassed c s.cpsr = true) (body : Mode → Result) : gate c s body = body md := by
  have hn : c ≠ .nv := by rintro rfl; simp [condPassed] at hc
  simp [gate, hm, hc, hn]

/-- Where the condition fails in a valid mode, and is not the refused pattern, the gate only advances. -/
theorem gate_failed {c : Cond} {s : State} {md : Mode} (hm : Mode.ofBits s.cpsr.m = some md)
    (hc : condPassed c s.cpsr = false) (hn : c = .nv → s.params.condNvPolicy = .never) (body : Mode → Result) :
    gate c s body = .next (advance .nonSequential s) := by
  have : ¬(c = .nv ∧ s.params.condNvPolicy = .refuse) := fun ⟨a, b⟩ => by simp [hn a] at b
  simp [gate, hm, hc, this]

/-- The pattern 0b1111 under the policy `refuse`. -/
theorem gate_refused {s : State} {md : Mode} (hm : Mode.ofBits s.cpsr.m = some md)
    (hp : s.params.condNvPolicy = .refuse) (body : Mode → Result) : gate .nv s body = .refused .reservedCondition := by
  simp [gate, hm, hp]

/-- All the gate can answer next: the instruction's own effect, or the advance of a failed condition. -/
theorem gate_next {c : Cond} {s t : State} {body : Mode → Result} (h : gate c s body = .next t) :
    ∃ md, Mode.ofBits s.cpsr.m = some md ∧
      ((condPassed c s.cpsr = true ∧ body md = .next t) ∨
        (condPassed c s.cpsr = false ∧ t = advance .nonSequential s)) := by
  unfold gate at h
  split at h
  · cases h
  · next md hm =>
    refine ⟨md, hm, ?_⟩
    split at h
    · cases h
    · split at h
      · next hc => exact .inl ⟨hc, h⟩
      · next hc => cases h; exact .inr ⟨by simpa using hc, rfl⟩

theorem unlessStrict_next {u : ClassU} {f : Bool} {s t : State} {k : Result} (h : unlessStrict u f s k = .next t) :
    k = .next t := by
  unfold unlessStrict at h
  split at h
  · cases h
  · exact h

/-- The test passes where the arguments allow the form or the form is not there. -/
theorem unlessStrict_allowed {u : ClassU} {f : Bool} {s : State} (k : Result)
    (h : s.params.strictUnpredictable = false ∨ f = false) : unlessStrict u f s k = k := by
  rcases h with h | h <;> simp [unlessStrict, h]

theorem unlessStrict_refused {u : ClassU} {f : Bool} {s : State} (k : Result)
    (h : s.params.strictUnpredictable = true) (hf : f = true) : unlessStrict u f s k = .refused (.unpredictable u) := by
  simp [unlessStrict, h, hf]

/-! ### The flush -/

theorem flush_arm {s : State} (t : Word) (h : s.cpsr.t = false) : flush t s = refill (wordAddr t) s := by
  simp [flush, h]

theorem flush_thumb {s : State} (t : Word) (h : s.cpsr.t = true) : flush t s = thumbFlush t s := by
  simp [flush, h]

@[simp] theorem flush_cpsr (t : Word) (s : State) : (flush t s).cpsr = s.cpsr := by unfold flush; split <;> rfl
@[simp] theorem flush_spsr (t : Word) (s : State) : (flush t s).spsr = s.spsr := by unfold flush; split <;> rfl
@[simp] theorem flush_mem (t : Word) (s : State) : (flush t s).mem = s.mem := by unfold flush; split <;> rfl
@[simp] theorem flush_inputs (t : Word) (s : State) : (flush t s).inputs = s.inputs := by unfold flush; split <;> rfl
@[simp] theorem flush_params (t : Word) (s : State) : (flush t s).params = s.params := by unfold flush; split <;> rfl

/-- A flush writes no general register but R15. -/
theorem flush_get (t : Word) (s : State) {p : PhysReg} (h : p ≠ .r15) : (flush t s).regs.get p = s.regs.get p := by
  unfold flush; split <;> simp [RegFile.get_set, h]

/-! ### Register writes where R15 may be named -/

theorem setReg_15 (md : Mode) (v : Word) (s : State) : setReg md 15 v s = flush v s := by simp [setReg]

theorem setReg_ne {i : Reg} (md : Mode) (v : Word) (s : State) (h : i ≠ 15) :
    setReg md i v s = writeReg md i v s := if_neg h

/-! ### Exceptions -/

/-- All the return from an exception can answer next: the SPSR of the mode restored and the flush. -/
theorem returnFromException_next {md : Mode} {target : Word} {s t : State}
    (h : returnFromException md target s = .next t) :
    ∃ e m, md.excMode = some e ∧ Mode.ofBits (s.spsr.get e).m = some m ∧
      t = flush target (s.withCpsr (s.spsr.get e)) := by
  unfold returnFromException at h
  split at h
  · cases h
  · next e he =>
    dsimp only at h
    split at h
    · cases h
    · next m hm => cases h; exact ⟨e, m, he, hm, rfl⟩

/-! ### Moves -/

/-- What an instruction that is no trap, return, exchange or status-register write does to the state, move by move:
`md` is the mode whose bank it writes, `st` says whether it may store, `fl` whether it may write flags, the index whether
the pipeline has been flushed. -/
inductive Moves (md : Mode) (st fl : Bool) (s : State) : Bool → State → Prop where
  | refl : Moves md st fl s false s
  | reg {b : Bool} {t : State} (i : Reg) (v : Word) : i ≠ 15 → Moves md st fl s b t → Moves md st fl s b (writeReg md i v t)
  | flags {b : Bool} {t : State} (n z c v : Bool) : fl = true → Moves md st fl s b t →
      Moves md st fl s b (t.withCpsr { t.cpsr with n := n, z := z, c := c, v := v })
  | draw {b : Bool} {t : State} : Moves md st fl s b t → Moves md st fl s b (drawFree t).2
  | load {b : Bool} {t : State} (n : Width) (a : Word) (k : AccessKind) (v : Word) : Moves md st fl s b t →
      Moves md st fl s b (t.record (.load n a k v))
  | store8 {t : State} (a : Word) (v : Byte) (k : AccessKind) : st = true → Moves md st fl s false t →
      Moves md st fl s false (store8 a v k t)
  | store16 {t : State} (a : Word) (v : BitVec 16) (k : AccessKind) : st = true → Moves md st fl s false t →
      Moves md st fl s false (store16 a v k t)
  | store32 {t : State} (a v : Word) (k : AccessKind) : st = true → Moves md st fl s false t →
      Moves md st fl s false (store32 a v k t)
  | flush {b : Bool} {t : State} (target : Word) : Moves md st fl s b t → Moves md st fl s true (flush target t)

/-- The end of such an instruction: nothing more after a flush, else the advance. -/
def Finished (md : Mode) (st fl : Bool) (s t : State) : Prop :=
  ∃ b u k, Moves md st fl s b u ∧ t = if b then u else advance k u

theorem Moves.setReg {md : Mode} {st fl b : Bool} {s t : State} (i : Reg) (v : Word) (h : Moves md st fl s b t) :
    Moves md st fl s (b || i == 15) (setReg md i v t) := by
  by_cases hi : i = 15
  · subst hi; rw [setReg_15]; simpa using h.flush v
  · rw [setReg_ne _ _ _ hi, show (i == 15) = false from beq_false_of_ne hi, Bool.or_false]; exact h.reg i v hi

theorem Moves.finish {md : Mode} {st fl b : Bool} {s u t : State} {f : Bool} {k : AccessKind}
    (h : Moves md st fl s b u) (hb : f = b) (e : finish f k u = .next t) : Finished md st fl s t := by
  subst hb
  cases e
  exact ⟨f, u, k, h, rfl⟩

theorem Moves.withFlags {md : Mode} {st fl b : Bool} {s t : State} (r : AluOut) (hf : fl = true)
    (h : Moves md st fl s b t) : Moves md st fl s b (t.withCpsr (t.cpsr.withAlu r)) := h.flags r.n r.z r.c r.v hf

theorem Moves.mulFlags {md : Mode} {st fl b : Bool} {s t : State} (top z : Bool) (h : Moves md st fl s b t) :
    Moves md st fl s b (mulFlags fl top z t) := by
  unfold Machine.mulFlags
  split
  · next hf =>
    split
    · exact h.flags top z t.cpsr.c t.cpsr.v hf
    · exact h.draw.flags top z ((Config.freeWord t.freeCount).getLsbD 0) t.cpsr.v hf
  · exact h

theorem Moves.loadValue {md : Mode} {st fl b : Bool} {s t : State} (ld : LoadKind) (a : Word)
    (h : Moves md st fl s b t) : Moves md st fl s b (loadValue ld a t).2 := by
  cases ld <;> exact h.load _ _ _ _

theorem Moves.storeValue {md : Mode} {fl : Bool} {s t : State} (k : StoreKind) (a v : Word)
    (h : Moves md true fl s false t) : Moves md true fl s false (storeValue k a v t) := by
  cases k
  · exact h.store32 _ _ _ rfl
  · exact h.store8 _ _ _ rfl
  · exact h.store16 _ _ _ rfl

/-- The condition under which a block load flushes: R15 is in the list. -/
theorem loadRegs_isSome (md : Mode) (rs : List Reg) (a : Word) (k : AccessKind) (t : Option Word) (s : State) :
    (loadRegs md rs a k t s).1.isSome = (t.isSome || rs.contains 15) := by
  induction rs generalizing a k t s with
  | nil => simp [loadRegs]
  | cons r rs ih =>
    simp only [loadRegs]
    split
    · next h => rw [ih]; simp [h]
    · next h => rw [ih, List.contains_cons, show (15 == r) = false from beq_false_of_ne (Ne.symm h), Bool.false_or]

theorem Moves.loadRegs {md : Mode} {st fl b : Bool} {s u : State} (rs : List Reg) (a : Word) (k : AccessKind)
    (t : Option Word) (h : Moves md st fl s b u) : Moves md st fl s b (loadRegs md rs a k t u).2 := by
  induction rs generalizing a k t u with
  | nil => exact h
  | cons r rs ih =>
    simp only [Machine.loadRegs]
    split
    · exact ih _ _ _ (h.load _ _ _ _)
    · next hr => exact ih _ _ _ ((h.load _ _ _ _).reg _ _ hr)

theorem Moves.storeRegs {md : Mode} {fl : Bool} {s u : State} (rs : List Reg) (a : Word) (k : AccessKind)
    (h : Moves md true fl s false u) : Moves md true fl s false (storeRegs md rs a k u) := by
  induction rs generalizing a k u with
  | nil => exact h
  | cons r rs ih => exact ih _ _ (h.store32 _ _ _ rfl)

/-! ### The shared meanings -/

theorem dataProc_shape {op : AluOp} {sf : Bool} {rn rd : Reg} {o : Operand2} {md : Mode} {s t : State}
    (h : dataProc op sf rn rd o md s = .next t) :
    Finished md false (sf || op.isCompare) s t ∨
      (sf = true ∧ rd = 15 ∧ ∃ e m v, md.excMode = some e ∧ Mode.ofBits (s.spsr.get e).m = some m ∧
        t = flush v (s.withCpsr (s.spsr.get e))) := by
  unfold dataProc at h
  split at h
  · cases h
  · have h := unlessStrict_next (unlessStrict_next h)
    unfold dataProcResult at h
    dsimp only at h
    split at h
    · next hc =>
      cases h
      exact .inl ⟨false, _, _, Moves.refl.withFlags _ (by simp [hc]), rfl⟩
    · split at h
      · next hrd =>
        split at h
        · next hs =>
          obtain ⟨e, m, he, hm, rfl⟩ := returnFromException_next h
          exact .inr ⟨hs, hrd, e, m, _, he, hm, rfl⟩
        · cases h
          exact .inl ⟨true, _, .sequential, Moves.refl.flush _, rfl⟩
      · next hrd =>
        cases h
        split
        · next hs => exact .inl ⟨false, _, _, (Moves.refl.reg rd _ hrd).withFlags _ (by simp [hs]), rfl⟩
        · exact .inl ⟨false, _, _, Moves.refl.reg rd _ hrd, rfl⟩

theorem loadTransfer_shape {ld : LoadKind} {ix : Indexing} {up : Bool} {rn rd : Reg} {off : Word} {k : AccessKind}
    {md : Mode} {s t : State} (h : loadTransfer ld ix up rn rd off k md s = .next t) : Finished md false false s t := by
  unfold loadTransfer at h
  dsimp only at h
  split at h
  · cases h
  · have hl := (Moves.refl (md := md) (st := false) (fl := false) (s := s)).loadValue ld
      (transferAddr ix up (readReg md rn s) off)
    by_cases hw : writesBack ix = true
    · rw [if_pos hw] at h
      exact ((hl.setReg rn _).setReg rd _).finish (by simp [hw, Bool.or_comm]) h
    · rw [if_neg hw] at h
      exact (hl.setReg rd _).finish (by simp [hw]) h

theorem storeTransfer_shape {st : StoreKind} {ix : Indexing} {up : Bool} {rn rd : Reg} {off : Word} {k : AccessKind}
    {md : Mode} {s t : State} (h : storeTransfer st ix up rn rd off k md s = .next t) : Finished md true false s t := by
  unfold storeTransfer at h
  dsimp only at h
  split at h
  · cases h
  · have hl := (Moves.refl (md := md) (st := true) (fl := false) (s := s)).storeValue st
      (transferAddr ix up (readReg md rn s) off) (storeSource md rd s)
    by_cases hw : writesBack ix = true
    · rw [if_pos hw] at h
      exact (hl.setReg rn _).finish (by simp [hw]) h
    · rw [if_neg hw] at h
      exact hl.finish (by simp [hw]) h

theorem sdtLoad_shape {ld : LoadKind} {ib : Bool} {ix : Indexing} {up : Bool} {rn rd : Reg} {off : SdtOffset} {md : Mode}
    {s t : State} (h : sdtLoad ld ib ix up rn rd off md s = .next t) : Finished md false false s t :=
  loadTransfer_shape (unlessStrict_next (unlessStrict_next h))

theorem sdtStore_shape {st : StoreKind} {ib : Bool} {ix : Indexing} {up : Bool} {rn rd : Reg} {off : SdtOffset}
    {md : Mode} {s t : State} (h : sdtStore st ib ix up rn rd off md s = .next t) : Finished md true false s t :=
  storeTransfer_shape (unlessStrict_next (unlessStrict_next h))

theorem mulResult_shape {sf : Bool} {rd : Reg} {r : Word} {md : Mode} {s t : State}
    (h : mulResult sf rd r md s = .next t) : Finished md false sf s t :=
  ((Moves.refl.mulFlags _ _).setReg rd _).finish (by simp) h

theorem mullResult_shape {sf : Bool} {rdHi rdLo : Reg} {r : BitVec 64} {md : Mode} {s t : State}
    (h : mullResult sf rdHi rdLo r md s = .next t) : Finished md false sf s t :=
  (((Moves.refl.mulFlags _ _).setReg rdLo _).setReg rdHi _).finish (by simp [Bool.or_comm]) h

theorem blockWriteBack_moves {md : Mode} {st fl b : Bool} {s u : State} (wb : Bool) (rn : Reg) (new : Word)
    (h : Moves md st fl s b u) : Moves md st fl s (b || (wb && rn == 15)) (blockWriteBack wb md rn new u) := by
  cases wb
  · simpa [blockWriteBack] using h
  · simpa [blockWriteBack] using h.setReg rn new

theorem flush_writeReg {md : Mode} {i : Reg} (v w : Word) (s : State) (h : i ≠ 15) :
    flush v (writeReg md i w s) = writeReg md i w (flush v s) := by
  have hc := fun r : Word => RegFile.set_comm s.regs w r (phys_ne_r15 md h)
  cases ht : s.cpsr.t <;> simp [flush, ht, writeReg, refill, thumbFlush, load32, drawFree, State.withPc, State.record, hc]

/-- The write-back is the last write of LDM whichever register the base is: where it is not R15 the order makes no
difference. -/
theorem ldmWrites_eq (wb : Bool) (md : Mode) (rn : Reg) (new : Word) (t : Option Word) (s : State) :
    ldmWrites wb md rn new t s = blockWriteBack wb md rn new (writeLoadedPc t s) := by
  unfold ldmWrites
  split
  · rfl
  · next h =>
    cases t with
    | none => rfl
    | some v => cases wb <;> simp only [blockWriteBack, writeLoadedPc, setReg, if_neg h, flush_writeReg _ _ _ h,
        Bool.false_eq_true, if_true, if_false]

theorem ldmWrites_moves {md : Mode} {st fl b : Bool} {s u : State} (wb : Bool) (rn : Reg) (new : Word) (t : Option Word)
    (h : Moves md st fl s b u) :
    Moves md st fl s (b || (t.isSome || (wb && rn == 15))) (ldmWrites wb md rn new t u) := by
  rw [ldmWrites_eq]
  cases t with
  | none => simpa [writeLoadedPc] using blockWriteBack_moves wb rn new h
  | some v => simpa [writeLoadedPc] using blockWriteBack_moves wb rn new (h.flush v)

end Sys2Proof.Machine
end

