-- ==== Sys2Proof/Laws/Shape.lean ====
section
/-!
SUPPORT. The shape of every instruction: `exec_shape` says once what a next state of any instruction can be, and `step_cases`
the same of a step.
-/

namespace Sys2Proof.Machine

/-! ### A status register merged under a mask (49_psr_transfer.md rule R297) -/

theorem Psr.toWord_bits (p : Psr) :
    p.toWord.getLsbD 31 = p.n ∧ p.toWord.getLsbD 30 = p.z ∧ p.toWord.getLsbD 29 = p.c ∧ p.toWord.getLsbD 28 = p.v ∧
      p.toWord.getLsbD 7 = p.i ∧ p.toWord.getLsbD 6 = p.f ∧ p.toWord.getLsbD 5 = p.t ∧
      p.toWord.extractLsb' 0 5 = p.m := by
  have h := Psr.ofWord_toWord p
  cases p
  simpa [Psr.ofWord] using h

theorem msrMask_control (fmask : BitVec 4) (h : fmask.getLsbD 0 = false) :
    (msrMask fmask).extractLsb' 0 8 = 0#8 := by
  revert fmask; decide

theorem msrMask_flags (fmask : BitVec 4) (h : fmask.getLsbD 3 = false) :
    (msrMask fmask).extractLsb' 28 4 = 0#4 := by
  revert fmask; decide

/-- A mask that leaves the control byte out keeps I, F, T and the mode. -/
theorem Psr.merged_control (p : Psr) (fmask : BitVec 4) (w : Word) (h : fmask.getLsbD 0 = false) :
    (p.merged (msrMask fmask) w).i = p.i ∧ (p.merged (msrMask fmask) w).f = p.f ∧
      (p.merged (msrMask fmask) w).t = p.t ∧ (p.merged (msrMask fmask) w).m = p.m := by
  have hm : ∀ j, j < 8 → (msrMask fmask).getLsbD j = false := fun j hj => by
    have := congrArg (fun x : BitVec 8 => x.getLsbD j) (msrMask_control fmask h)
    simpa [BitVec.getLsbD_extractLsb', hj] using this
  obtain ⟨-, -, -, -, hi, hf, ht, hmm⟩ := Psr.toWord_bits p
  refine ⟨?_, ?_, ?_, ?_⟩
  · simp only [Psr.merged, Psr.ofWord, BitVec.getLsbD_or, BitVec.getLsbD_and, BitVec.getLsbD_not, hm 7 (by omega), hi]
    simp
  · simp only [Psr.merged, Psr.ofWord, BitVec.getLsbD_or, BitVec.getLsbD_and, BitVec.getLsbD_not, hm 6 (by omega), hf]
    simp
  · simp only [Psr.merged, Psr.ofWord, BitVec.getLsbD_or, BitVec.getLsbD_and, BitVec.getLsbD_not, hm 5 (by omega), ht]
    simp
  · apply BitVec.eq_of_getLsbD_eq
    intro j hj
    have := congrArg (fun x : BitVec 5 => x.getLsbD j) hmm
    simp only [BitVec.getLsbD_extractLsb', hj, decide_true, Bool.true_and, Nat.zero_add] at this
    simp [Psr.merged, Psr.ofWord, hj, hm j (by omega), this]
    omega

/-! ### MSR -/

theorem msrWrite_next {spsr : Bool} {fmask : BitVec 4} {w : Word} {md : Mode} {s t : State}
    (h : msrWrite spsr fmask w md s = .next t) :
    (∃ e, md.excMode = some e ∧ t = advance s.params.nextFetchKind.registerToPsr
        (s.withSpsr e ((s.spsr.get e).merged (msrMask fmask) w))) ∨
      ((md = .user → fmask.getLsbD 0 = false) ∧ (s.cpsr.merged (msrMask fmask) w).t = s.cpsr.t ∧
        (∃ m, Mode.ofBits (s.cpsr.merged (msrMask fmask) w).m = some m) ∧
        t = advance s.params.nextFetchKind.registerToPsr (s.withCpsr (s.cpsr.merged (msrMask fmask) w))) := by
  unfold msrWrite at h
  split at h
  · unfold msrToSpsr at h
    split at h
    · cases h
    · next e he => cases h; exact .inl ⟨e, he, rfl⟩
  · unfold msrToCpsr at h
    dsimp only at h
    split at h
    · cases h
    · next hu =>
      split at h
      · cases h
      · next ht =>
        split at h
        · cases h
        · next m hm =>
          cases h
          exact .inr ⟨fun e => by simpa [e] using hu, by simpa using ht, ⟨m, hm⟩, rfl⟩

/-! ### Every instruction -/

/-- What a next state of `exec i s` can be. -/
inductive Shape (i : Instr) (s : State) : State → Prop where
  /-- The condition failed. -/
  | failed : condPassed i.cond s.cpsr = false → Shape i s (advance .nonSequential s)
  /-- Built by moves in the bank of the current mode, then the advance unless a move flushed. -/
  | built {md : Mode} {t : State} : Mode.ofBits s.cpsr.m = some md → condPassed i.cond s.cpsr = true →
      Finished md i.stores i.setsFlags s t → Shape i s t
  /-- BX: T written, then the flush. -/
  | exchanged {c : Cond} {rn : Reg} (t : Bool) (v : Word) : i = .bx c rn → condPassed i.cond s.cpsr = true →
      Shape i s (flush v (s.withCpsr { s.cpsr with t := t }))
  /-- A trap. -/
  | trapped {x : Exc} : i.traps = true → condPassed i.cond s.cpsr = true → (x = .swi ∨ x = .undefined) →
      Shape i s (takeException x (s.pc - 4) s)
  /-- The return from an exception. -/
  | returned {md : Mode} {e : ExcMode} {m : Mode} (v : Word) : i.restores = true → condPassed i.cond s.cpsr = true →
      Mode.ofBits s.cpsr.m = some md → md.excMode = some e → Mode.ofBits (s.spsr.get e).m = some m →
      Shape i s (flush v (s.withCpsr (s.spsr.get e)))
  /-- MSR to the SPSR of the current mode. -/
  | wroteSpsr {md : Mode} {e : ExcMode} (p : Psr) (k : AccessKind) : i.writesPsr = true → condPassed i.cond s.cpsr = true →
      Mode.ofBits s.cpsr.m = some md → md.excMode = some e → Shape i s (advance k (s.withSpsr e p))
  /-- MSR to CPSR. -/
  | wroteCpsr {md m : Mode} (fmask : BitVec 4) (w : Word) (k : AccessKind) : i.writesPsr = true →
      condPassed i.cond s.cpsr = true → Mode.ofBits s.cpsr.m = some md → (md = .user → fmask.getLsbD 0 = false) →
      (s.cpsr.merged (msrMask fmask) w).t = s.cpsr.t → Mode.ofBits (s.cpsr.merged (msrMask fmask) w).m = some m →
      Shape i s (advance k (s.withCpsr (s.cpsr.merged (msrMask fmask) w)))

/-- An instruction whose own effect is built by moves has the shape. -/
theorem Shape.ofGate {i : Instr} {s t : State} {body : Mode → Result} (h : gate i.cond s body = .next t)
    (hb : ∀ md, Mode.ofBits s.cpsr.m = some md → condPassed i.cond s.cpsr = true → body md = .next t → Shape i s t) :
    Shape i s t := by
  obtain ⟨md, hm, ⟨hc, hbody⟩ | ⟨hc, rfl⟩⟩ := gate_next h
  · exact hb md hm hc hbody
  · exact .failed hc

theorem shape_dataProc {i : Instr} {s t : State} {op : AluOp} {sf : Bool} {rn rd : Reg} {o : Operand2}
    (h : gate i.cond s (fun md => dataProc op sf rn rd o md s) = .next t) (hst : i.stores = false)
    (hfl : i.setsFlags = (sf || op.isCompare)) (hr : sf = true → rd = 15 → op.isCompare = false → i.restores = true) :
    Shape i s t := by
  refine Shape.ofGate h fun md hm hc hb => ?_
  rcases dataProc_shape hb with hf | ⟨hs, hrd, e, m, v, he, hmm, rfl⟩
  · exact .built hm hc (by rw [hst, hfl]; exact hf)
  · by_cases hcm : op.isCompare = true
    · unfold dataProc at hb
      split at hb
      · cases hb
      · have hb := unlessStrict_next (unlessStrict_next hb)
        unfold dataProcResult at hb
        dsimp only at hb
        rw [if_pos hcm] at hb
        refine .built hm hc ?_
        rw [hst, hfl]
        injection hb with hb
        rw [← hb]
        exact ⟨false, _, _, Moves.refl.withFlags _ (by simp [hcm]), rfl⟩
    · exact .returned v (hr hs hrd (by simpa using hcm)) hc hm he hmm

theorem shape_built {i : Instr} {s t : State} {body : Mode → Result} (h : gate i.cond s body = .next t)
    (hb : ∀ md, body md = .next t → Finished md i.stores i.setsFlags s t) : Shape i s t :=
  Shape.ofGate h fun md hm hc hn => .built hm hc (hb md hn)

theorem shape_msr {i : Instr} {s t : State} {spsr : Bool} {fmask : BitVec 4} {w : Word} {md : Mode}
    (hi : i.writesPsr = true) (hc : condPassed i.cond s.cpsr = true) (hm : Mode.ofBits s.cpsr.m = some md)
    (h : msrWrite spsr fmask w md s = .next t) : Shape i s t := by
  rcases msrWrite_next h with ⟨e, he, rfl⟩ | ⟨hu, ht, ⟨m, hv⟩, rfl⟩
  · exact .wroteSpsr _ _ hi hc hm he
  · exact .wroteCpsr fmask w _ hi hc hm hu ht hv

theorem shape_trap {i : Instr} {s t : State} {x : Exc} (hi : i.traps = true) (hx : x = .swi ∨ x = .undefined)
    (h : gate i.cond s (fun _ => .next (takeException x (s.pc - 4) s)) = .next t) : Shape i s t :=
  Shape.ofGate h fun _ _ hc hb => by cases hb; exact .trapped hi hc hx

theorem shape_refused {i : Instr} {s t : State} {r : Refusal}
    (h : gate i.cond s (fun _ => .refused r) = .next t) : Shape i s t :=
  Shape.ofGate h fun _ _ _ hb => by cases hb

/-- The end of a block load. -/
theorem ldm_finished {md : Mode} {m : BlockMode} {wb : Bool} {rn : Reg} {list : BitVec 16} {s t : State}
    (h : finish ((loadRegs md (listRegs list) (blockStart m (readReg md rn s) (blockBytes list)) .nonSequential none s).1.isSome
        || (wb && rn == 15)) s.params.nextFetchKind.blockDataTransfer
      (ldmWrites wb md rn (blockNewBase m (readReg md rn s) (blockBytes list))
        (loadRegs md (listRegs list) (blockStart m (readReg md rn s) (blockBytes list)) .nonSequential none s).1
        (loadRegs md (listRegs list) (blockStart m (readReg md rn s) (blockBytes list)) .nonSequential none s).2)
      = .next t) : Finished md false false s t :=
  (ldmWrites_moves wb rn _ _ (Moves.refl.loadRegs _ _ _ _)).finish (by simp) h

/-- Every next state of every instruction has one of the shapes. -/
theorem exec_shape {i : Instr} {s t : State} (h : exec i s = .next t) : Shape i s t := by
  cases i with
  | bx c rn =>
    refine Shape.ofGate h fun md hm hc hb => ?_
    have hb := unlessStrict_next hb
    cases hb
    exact .exchanged _ _ rfl hc
  | ldm c m fu wb rn list =>
    refine shape_built h fun md hb => ?_
    dsimp only at hb
    split at hb
    · cases hb
    · exact ldm_finished (unlessStrict_next (unlessStrict_next (unlessStrict_next hb)))
  | stm c m fu wb rn list =>
    refine shape_built h fun md hb => ?_
    dsimp only at hb
    split at hb
    · cases hb
    · have hb := unlessStrict_next (unlessStrict_next (unlessStrict_next hb))
      exact (blockWriteBack_moves wb rn _ (Moves.refl.storeRegs _ _ _)).finish (by simp) hb
  | b c off => exact shape_built h fun md hb => by cases hb; exact ⟨true, _, .sequential, Moves.refl.flush _, rfl⟩
  | bl c off =>
    exact shape_built h fun md hb => by
      cases hb; exact ⟨true, _, .sequential, (Moves.refl.reg 14 _ (by decide)).flush _, rfl⟩
  | swi c _ => exact shape_trap rfl (.inl rfl) h
  | und c _ _ => exact shape_trap rfl (.inr rfl) h
  | cdpMcrMrc c _ => exact shape_trap rfl (.inr rfl) h
  | ldcStc c _ => exact shape_trap rfl (.inr rfl) h
  | ldrt => exact shape_built h fun md hb => sdtLoad_shape hb
  | ldrbt => exact shape_built h fun md hb => sdtLoad_shape hb
  | strt => exact shape_built h fun md hb => sdtStore_shape hb
  | strbt => exact shape_built h fun md hb => sdtStore_shape hb
  | ldr => exact shape_built h fun md hb => sdtLoad_shape hb
  | ldrb => exact shape_built h fun md hb => sdtLoad_shape hb
  | str => exact shape_built h fun md hb => sdtStore_shape hb
  | strb => exact shape_built h fun md hb => sdtStore_shape hb
  | swp c rn rd rm =>
    exact shape_built h fun md hb =>
      (((Moves.refl.load _ _ _ _).store32 _ _ _ rfl).setReg rd _).finish (by simp) (unlessStrict_next hb)
  | swpb c rn rd rm =>
    exact shape_built h fun md hb =>
      (((Moves.refl.load _ _ _ _).store8 _ _ _ rfl).setReg rd _).finish (by simp) (unlessStrict_next hb)
  | mul => exact shape_built h fun md hb => mulResult_shape (unlessStrict_next (unlessStrict_next hb))
  | mla => exact shape_built h fun md hb => mulResult_shape (unlessStrict_next (unlessStrict_next hb))
  | umull => exact shape_built h fun md hb => mullResult_shape (unlessStrict_next hb)
  | umlal => exact shape_built h fun md hb => mullResult_shape (unlessStrict_next hb)
  | smull => exact shape_built h fun md hb => mullResult_shape (unlessStrict_next hb)
  | smlal => exact shape_built h fun md hb => mullResult_shape (unlessStrict_next hb)
  | strhReg => exact shape_built h fun md hb => storeTransfer_shape (unlessStrict_next (unlessStrict_next hb))
  | ldrhReg => exact shape_built h fun md hb => loadTransfer_shape (unlessStrict_next (unlessStrict_next hb))
  | ldrsbReg => exact shape_built h fun md hb => loadTransfer_shape (unlessStrict_next (unlessStrict_next hb))
  | ldrshReg => exact shape_built h fun md hb => loadTransfer_shape (unlessStrict_next (unlessStrict_next hb))
  | reservedStoreSh10Reg => exact shape_refused h
  | reservedStoreSh11Reg => exact shape_refused h
  | reservedSh00Reg => exact shape_refused h
  | strhImm => exact shape_built h fun md hb => storeTransfer_shape (unlessStrict_next (unlessStrict_next hb))
  | ldrhImm => exact shape_built h fun md hb => loadTransfer_shape (unlessStrict_next (unlessStrict_next hb))
  | ldrsbImm => exact shape_built h fun md hb => loadTransfer_shape (unlessStrict_next (unlessStrict_next hb))
  | ldrshImm => exact shape_built h fun md hb => loadTransfer_shape (unlessStrict_next (unlessStrict_next hb))
  | reservedStoreSh10Imm => exact shape_refused h
  | reservedStoreSh11Imm => exact shape_refused h
  | reservedSh00Imm => exact shape_refused h
  | mrs c spsr rd sbz =>
    refine shape_built h fun md hb => ?_
    have hb := unlessStrict_next hb
    split at hb
    · cases hb
    · exact (Moves.refl.setReg rd _).finish (by simp) hb
  | msrReg c spsr fmask sbz rm =>
    exact Shape.ofGate h fun md hm hc hb => shape_msr rfl hc hm (unlessStrict_next hb)
  | msrImm c spsr fmask rot imm8 => exact Shape.ofGate h fun md hm hc hb => shape_msr rfl hc hm hb
  | and c s rn rd o =>
    exact shape_dataProc h rfl (by simp [Instr.setsFlags, AluOp.isCompare]) (by simp +contextual [Instr.restores])
  | eor c s rn rd o =>
    exact shape_dataProc h rfl (by simp [Instr.setsFlags, AluOp.isCompare]) (by simp +contextual [Instr.restores])
  | sub c s rn rd o =>
    exact shape_dataProc h rfl (by simp [Instr.setsFlags, AluOp.isCompare]) (by simp +contextual [Instr.restores])
  | rsb c s rn rd o =>
    exact shape_dataProc h rfl (by simp [Instr.setsFlags, AluOp.isCompare]) (by simp +contextual [Instr.restores])
  | add c s rn rd o =>
    exact shape_dataProc h rfl (by simp [Instr.setsFlags, AluOp.isCompare]) (by simp +contextual [Instr.restores])
  | adc c s rn rd o =>
    exact shape_dataProc h rfl (by simp [Instr.setsFlags, AluOp.isCompare]) (by simp +contextual [Instr.restores])
  | sbc c s rn rd o =>
    exact shape_dataProc h rfl (by simp [Instr.setsFlags, AluOp.isCompare]) (by simp +contextual [Instr.restores])
  | rsc c s rn rd o =>
    exact shape_dataProc h rfl (by simp [Instr.setsFlags, AluOp.isCompare]) (by simp +contextual [Instr.restores])
  | orr c s rn rd o =>
    exact shape_dataProc h rfl (by simp [Instr.setsFlags, AluOp.isCompare]) (by simp +contextual [Instr.restores])
  | mov c s rn rd o =>
    exact shape_dataProc h rfl (by simp [Instr.setsFlags, AluOp.isCompare]) (by simp +contextual [Instr.restores])
  | bic c s rn rd o =>
    exact shape_dataProc h rfl (by simp [Instr.setsFlags, AluOp.isCompare]) (by simp +contextual [Instr.restores])
  | mvn c s rn rd o =>
    exact shape_dataProc h rfl (by simp [Instr.setsFlags, AluOp.isCompare]) (by simp +contextual [Instr.restores])
  | tst c rn rd o => exact shape_dataProc h rfl rfl (by simp [AluOp.isCompare])
  | teq c rn rd o => exact shape_dataProc h rfl rfl (by simp [AluOp.isCompare])
  | cmp c rn rd o => exact shape_dataProc h rfl rfl (by simp [AluOp.isCompare])
  | cmn c rn rd o => exact shape_dataProc h rfl rfl (by simp [AluOp.isCompare])
  | reservedDp c op rn rd o =>
    exact shape_built h fun md hb => by
      have hb := unlessStrict_next hb
      cases hb
      exact ⟨false, _, _, .refl, rfl⟩

/-- What a step can answer next: the reset, an interrupt entry, or the instruction taken out of `pipe[0]`. -/
theorem step_cases {s t : State} (h : step s = .next t) :
    (s.nextInput.reset = true ∧ t = resetCore (beginStep s)) ∨
      (s.nextInput.reset = false ∧ s.cpsr.t = false ∧ (∃ md, Mode.ofBits s.cpsr.m = some md) ∧
        ((∃ x, sampleInterrupts s.nextInput s.cpsr = some x ∧ t = takeException x (s.pc - 4) (beginStep s)) ∨
          (sampleInterrupts s.nextInput s.cpsr = none ∧
            exec (decode s.pipe0) (fetchShift (beginStep s)) = .next t))) := by
  unfold step at h
  dsimp only at h
  split at h
  · next hr => cases h; exact .inl ⟨hr, rfl⟩
  · next hr =>
    split at h
    · cases h
    · next md hm =>
      split at h
      · cases h
      · next ht =>
        refine .inr ⟨by simpa using hr, by simpa using ht, ⟨md, hm⟩, ?_⟩
        split at h
        · next x hx => cases h; exact .inl ⟨x, hx, rfl⟩
        · next hx => exact .inr ⟨hx, h⟩

end Sys2Proof.Machine
end

