-- ==== Sys2Proof/Laws/Effects.lean ====
section
/-!
SUPPORT. One lemma per shared operation that says its whole effect in the terms of Safety.lean: what it writes, what it
leaves, how it ends.
-/

namespace Sys2Proof.Machine

/-! ### The gate and the class U test in the terms of Safety.lean -/

theorem gate_ready {c : Cond} {md : Mode} {s : State} (h : Ready c md s) (body : Mode → Result) :
    gate c s body = body md := gate_passed h.2.1 h.2.2 body

theorem unlessStrict_allows {u : ClassU} {f : Bool} {s : State} {k : Result} (h : Allows f s) :
    unlessStrict u f s k = k := unlessStrict_allowed k h.symm

/-! ### Frames -/

theorem RegsKept.refl (l : List PhysReg) (s : State) : RegsKept l s s := fun _ _ _ => rfl

theorem RegsKept.mono {l l' : List PhysReg} {s t : State} (h : RegsKept l s t) (hl : ∀ p, p ∈ l → p ∈ l') :
    RegsKept l' s t := fun p hp hn => h p hp fun hm => hn (hl p hm)

theorem RegsKept.reg {l : List PhysReg} {s t : State} (h : RegsKept l s t) (md : Mode) (i : Reg) (v : Word) :
    RegsKept (phys i md :: l) s (writeReg md i v t) := fun p hp hn => by
  rw [writeReg_regs, RegFile.get_set_ne _ _ (fun e => hn (by simp [e]))]
  exact h p hp fun hm => hn (List.mem_cons_of_mem _ hm)

theorem RegsKept.flush {l : List PhysReg} {s t : State} (h : RegsKept l s t) (v : Word) :
    RegsKept l s (flush v t) := fun p hp hn => by rw [flush_get _ _ hp]; exact h p hp hn

theorem RegsKept.setReg {l : List PhysReg} {s t : State} (h : RegsKept l s t) (md : Mode) (i : Reg) (v : Word) :
    RegsKept (phys i md :: l) s (setReg md i v t) := by
  by_cases hi : i = 15
  · subst hi; rw [setReg_15]; exact (h.flush v).mono fun p hp => List.mem_cons_of_mem _ hp
  · rw [setReg_ne _ _ _ hi]; exact h.reg md i v

theorem RegsKept.advance {l : List PhysReg} {s t : State} (h : RegsKept l s t) (k : AccessKind) :
    RegsKept l s (advance k t) := fun p hp hn => by
  rw [advance_regs, RegFile.get_set_ne _ _ hp]; exact h p hp hn

theorem RegsKept.of_regs {l : List PhysReg} {s t u : State} (h : RegsKept l s t) (e : u.regs = t.regs) :
    RegsKept l s u := fun p hp hn => by rw [e]; exact h p hp hn

/-! ### Register writes where R15 may be named -/

@[simp] theorem setReg_cpsr (md : Mode) (i : Reg) (v : Word) (s : State) : (setReg md i v s).cpsr = s.cpsr := by
  unfold setReg; split <;> simp

@[simp] theorem setReg_spsr (md : Mode) (i : Reg) (v : Word) (s : State) : (setReg md i v s).spsr = s.spsr := by
  unfold setReg; split <;> simp

@[simp] theorem setReg_mem (md : Mode) (i : Reg) (v : Word) (s : State) : (setReg md i v s).mem = s.mem := by
  unfold setReg; split <;> simp

@[simp] theorem setReg_params (md : Mode) (i : Reg) (v : Word) (s : State) : (setReg md i v s).params = s.params := by
  unfold setReg; split <;> simp

@[simp] theorem setReg_inputs (md : Mode) (i : Reg) (v : Word) (s : State) : (setReg md i v s).inputs = s.inputs := by
  unfold setReg; split <;> simp

theorem flush_freeCount {s : State} (v : Word) (h : s.cpsr.t = false) : (flush v s).freeCount = s.freeCount := by
  rw [flush_arm _ h]; rfl

theorem setReg_freeCount (md : Mode) (i : Reg) (v : Word) {s : State} (h : s.cpsr.t = false) :
    (setReg md i v s).freeCount = s.freeCount := by
  unfold setReg; split
  · exact flush_freeCount v h
  · rfl

theorem readReg_advance {i : Reg} (md : Mode) (k : AccessKind) (s : State) (h : i ≠ 15) :
    readReg md i (advance k s) = readReg md i s := by
  simp only [readReg, advance_regs]; exact RegFile.get_set_ne _ _ (phys_ne_r15 md h)

theorem readReg_flush {i : Reg} (md : Mode) (v : Word) (s : State) (h : i ≠ 15) :
    readReg md i (flush v s) = readReg md i s := flush_get v s (phys_ne_r15 md h)

theorem readReg_setReg_self {i : Reg} (md : Mode) (v : Word) (s : State) (h : i ≠ 15) :
    readReg md i (setReg md i v s) = v := by rw [setReg_ne _ _ _ h, readReg_writeReg, if_pos rfl]

theorem readReg_setReg_ne {i j : Reg} (md : Mode) (v : Word) (s : State) (hj : j ≠ 15) (h : j ≠ i) :
    readReg md j (setReg md i v s) = readReg md j s := by
  by_cases hi : i = 15
  · subst hi; rw [setReg_15, readReg_flush _ _ _ hj]
  · rw [setReg_ne _ _ _ hi, readReg_writeReg, if_neg h]

/-! ### How an instruction ends -/

/-- An instruction in ARM state under way: the calls and program-counter writes it has made so far. -/
structure Track (targets : List Word) (data : List BusCall) (s u : State) : Prop where
  arm : u.cpsr.t = false
  calls : u.calls = s.calls ++ data ++ targets.flatMap (refillCalls u.mem)
  place : match targets.getLast? with
    | none => u.pc = s.pc ∧ u.pipe0 = s.pipe0 ∧ u.pipe1 = s.pipe1
    | some v => u.pc = wordAddr v + 8 ∧ u.nextFetchKind = .sequential ∧ u.pipe0 = u.mem.read32 (wordAddr v) ∧
        u.pipe1 = u.mem.read32 (wordAddr v + 4)

theorem Track.refl {s : State} (h : s.cpsr.t = false) : Track [] [] s s := ⟨h, by simp, rfl, rfl, rfl⟩

/-- A change of registers other than R15, status, SPSRs or the free count leaves the track as it is. -/
theorem Track.congr {targets : List Word} {data : List BusCall} {s u w : State} (h : Track targets data s u)
    (ht : w.cpsr.t = u.cpsr.t) (hc : w.calls = u.calls) (hm : w.mem = u.mem) (hp : w.pc = u.pc)
    (h0 : w.pipe0 = u.pipe0) (h1 : w.pipe1 = u.pipe1) (hk : w.nextFetchKind = u.nextFetchKind) :
    Track targets data s w := by
  refine ⟨ht ▸ h.arm, by rw [hc, hm]; exact h.calls, ?_⟩
  have := h.place
  rw [hp, h0, h1, hk, hm]
  exact this

theorem Track.reg {targets : List Word} {data : List BusCall} {s u : State} (h : Track targets data s u) (md : Mode)
    {i : Reg} (v : Word) (hi : i ≠ 15) : Track targets data s (writeReg md i v u) :=
  h.congr rfl rfl rfl (pc_writeReg md v u hi) rfl rfl rfl

theorem Track.cpsr {targets : List Word} {data : List BusCall} {s u : State} (h : Track targets data s u) (p : Psr)
    (hp : p.t = u.cpsr.t) : Track targets data s (u.withCpsr p) := h.congr hp rfl rfl rfl rfl rfl rfl

theorem Track.flush {targets : List Word} {data : List BusCall} {s u : State} (h : Track targets data s u) (v : Word) :
    Track (targets ++ [v]) data s (flush v u) := by
  rw [flush_arm _ h.arm]
  refine ⟨h.arm, ?_, ?_⟩
  · rw [refill_calls, h.calls, refill_mem]
    simp [refillCalls, List.flatMap_append]
  · simp

theorem Track.setReg {targets : List Word} {data : List BusCall} {s u : State} (h : Track targets data s u) (md : Mode)
    (i : Reg) (v : Word) : Track (targets ++ pcTarget i v) data s (setReg md i v u) := by
  by_cases hi : i = 15
  · subst hi; rw [setReg_15, show pcTarget 15 v = [v] from rfl]; exact h.flush v
  · rw [setReg_ne _ _ _ hi, pcTarget, if_neg hi, List.append_nil]; exact h.reg md v hi

/-- A data call made before any program-counter write. -/
theorem Track.call {data : List BusCall} {s u w : State} (h : Track [] data s u) (c : BusCall)
    (ht : w.cpsr.t = u.cpsr.t) (hc : w.calls = u.calls ++ [c]) (hp : w.pc = u.pc)
    (h0 : w.pipe0 = u.pipe0) (h1 : w.pipe1 = u.pipe1) : Track [] (data ++ [c]) s w := by
  obtain ⟨ha, hcl, hpl⟩ := h
  refine ⟨ht ▸ ha, ?_, ?_⟩
  · rw [hc, hcl]; simp
  · simpa [hp, h0, h1] using hpl

theorem Track.finish {targets : List Word} {data : List BusCall} {s u : State} {f : Bool} {k : AccessKind}
    (h : Track targets data s u) (hf : f = !targets.isEmpty) :
    ∃ t, finish f k u = .next t ∧ Ended targets k data s t ∧ t = if targets.isEmpty then advance k u else u := by
  subst hf
  cases hts : targets with
  | nil =>
    subst hts
    refine ⟨advance k u, rfl, ⟨by simpa using h.calls, ?_⟩, rfl⟩
    obtain ⟨hp, h0, h1⟩ := h.place
    exact ⟨by simp [hp], rfl, h0, h1⟩
  | cons v vs =>
    rw [hts] at h
    refine ⟨u, rfl, ⟨h.calls, ?_⟩, rfl⟩
    have hpl := h.place
    cases hg : (v :: vs).getLast? with
    | none => simp at hg
    | some w => rw [hg] at hpl; exact hpl

/-! ### Single transfers -/

theorem loadValue_fst (ld : LoadKind) (a : Word) (s : State) : (loadValue ld a s).1 = loadedWord ld a s.mem := by
  cases ld <;> rfl

theorem loadValue_snd (ld : LoadKind) (a : Word) (s : State) :
    (loadValue ld a s).2 = s.record (loadCall ld a s.mem) := by
  cases ld <;> rfl

theorem transferAddr_eq (ix : Indexing) (up : Bool) (base off : Word) :
    transferAddr ix up base off = if ix.p then (if up then base + off else base - off) else base := rfl

theorem writesBack_eq (ix : Indexing) : writesBack ix = (!ix.p || ix.w) := by cases ix <;> rfl

theorem finish_next {f : Bool} {k : AccessKind} {u : State} : finish f k u = .next (if f then u else advance k u) := rfl

/-- What the end of an instruction leaves of everything but R15, the slots and the fetch kind. -/
theorem ending_fields {b : Bool} {k : AccessKind} {u t : State} (h : t = if b then advance k u else u) :
    t.cpsr = u.cpsr ∧ t.spsr = u.spsr ∧ t.params = u.params ∧ t.inputs = u.inputs ∧ t.mem = u.mem ∧
      t.freeCount = u.freeCount ∧ (∀ p, p ≠ .r15 → t.regs.get p = u.regs.get p) := by
  subst h
  cases b
  · exact ⟨rfl, rfl, rfl, rfl, rfl, rfl, fun _ _ => rfl⟩
  · exact ⟨rfl, rfl, rfl, rfl, rfl, rfl, fun p hp => RegFile.get_set_ne _ _ hp⟩

theorem ending_readReg {b : Bool} {k : AccessKind} {u t : State} (h : t = if b then advance k u else u) (md : Mode)
    {i : Reg} (hi : i ≠ 15) : readReg md i t = readReg md i u :=
  (ending_fields h).2.2.2.2.2.2 _ (phys_ne_r15 md hi)

theorem ending_regsKept {b : Bool} {k : AccessKind} {s u t : State} {l : List PhysReg}
    (h : t = if b then advance k u else u) (hk : RegsKept l s u) : RegsKept l s t := fun p hp hn => by
  rw [(ending_fields h).2.2.2.2.2.2 p hp]; exact hk p hp hn

theorem pcTarget_isEmpty (i : Reg) (v : Word) : (pcTarget i v).isEmpty = !(i == 15) := by
  unfold pcTarget
  by_cases h : i = 15
  · simp only [if_pos h, beq_iff_eq.2 h]; rfl
  · simp only [if_neg h, beq_false_of_ne h]; rfl

theorem pcTargets_isEmpty (i j : Reg) (v w : Word) :
    (pcTarget i v ++ pcTarget j w).isEmpty = !(i == 15 || j == 15) := by
  rw [Bool.not_or, ← pcTarget_isEmpty i v, ← pcTarget_isEmpty j w]
  cases pcTarget i v <;> rfl

/-- The whole effect of a load whose alignment is right. -/
theorem loadTransfer_effect {ld : LoadKind} {ix : Indexing} {up : Bool} {rn rd : Reg} {off : Word} {k : AccessKind}
    {md : Mode} {s : State} (hT : s.cpsr.t = false)
    (ha : ld.misaligned (transferAddr ix up (readReg md rn s) off) = false) :
    ∃ t, loadTransfer ld ix up rn rd off k md s = .next t ∧ LoadEffect ld ix up rn rd off k md s t := by
  rw [transferAddr_eq] at ha
  unfold loadTransfer LoadEffect
  simp only [transferAddr_eq, transferTarget, ha, Bool.false_eq_true, if_false, loadValue_fst, loadValue_snd, ← writesBack_eq]
  generalize hv : loadedWord ld _ s.mem = v
  generalize hc : loadCall ld _ s.mem = call
  generalize htg : (if up = true then readReg md rn s + off else readReg md rn s - off) = target
  have h0 : Track [] [call] s (s.record call) := by
    simpa using (Track.refl hT).call call (w := s.record call) rfl rfl rfl rfl rfl
  have hk0 : RegsKept [] s (s.record call) := (RegsKept.refl [] s).of_regs rfl
  by_cases hw : writesBack ix = true
  · simp only [hw, if_true, Bool.true_and]
    obtain ⟨t, ht, he, hu⟩ := ((h0.setReg md rn target).setReg md rd v).finish (f := rd == 15 || rn == 15) (k := k)
      (by rw [List.nil_append, pcTargets_isEmpty, Bool.not_not, Bool.or_comm])
    obtain ⟨f1, f2, f3, f4, f5, f6, -⟩ := ending_fields hu
    have hT1 : (Machine.setReg md rn target (s.record call)).cpsr.t = false := by simpa using hT
    refine ⟨t, ht, fun hrd => ?_, fun _ hrn hne => ?_, ⟨?_, ?_, ?_, ?_⟩, ?_, fun a => ?_, ?_, ?_⟩
    · rw [ending_readReg hu md hrd, readReg_setReg_self _ _ _ hrd]
    · rw [ending_readReg hu md hrn, readReg_setReg_ne _ _ _ hrn hne, readReg_setReg_self _ _ _ hrn]
    · exact ending_regsKept hu ((hk0.setReg md rn target).setReg md rd v)
    · simpa using f2
    · simpa using f3
    · simpa using f4
    · simpa using f1
    · rw [f5]; simp
    · rw [f6, setReg_freeCount _ _ _ hT1, setReg_freeCount _ _ _ (by simpa using hT)]; rfl
    · simpa using he
  · simp only [hw, Bool.false_eq_true, if_false, Bool.false_and, Bool.or_false, List.nil_append]
    obtain ⟨t, ht, he, hu⟩ := (h0.setReg md rd v).finish (f := rd == 15) (k := k) (by simp [pcTarget_isEmpty])
    obtain ⟨f1, f2, f3, f4, f5, f6, -⟩ := ending_fields hu
    refine ⟨t, ht, fun hrd => ?_, fun h => absurd h (by simp), ⟨?_, ?_, ?_, ?_⟩, ?_, fun a => ?_, ?_, ?_⟩
    · rw [ending_readReg hu md hrd, readReg_setReg_self _ _ _ hrd]
    · exact ending_regsKept hu (hk0.setReg md rd v)
    · simpa using f2
    · simpa using f3
    · simpa using f4
    · simpa using f1
    · rw [f5]; simp
    · rw [f6, setReg_freeCount _ _ _ (by simpa using hT)]; rfl
    · simpa using he

theorem storeValue_regs (st : StoreKind) (a v : Word) (s : State) :
    (storeValue st a v s).regs = s.regs ∧ (storeValue st a v s).cpsr = s.cpsr ∧ (storeValue st a v s).spsr = s.spsr ∧
      (storeValue st a v s).params = s.params ∧ (storeValue st a v s).inputs = s.inputs ∧
      (storeValue st a v s).freeCount = s.freeCount ∧ (storeValue st a v s).pipe0 = s.pipe0 ∧
      (storeValue st a v s).pipe1 = s.pipe1 ∧ (storeValue st a v s).calls = s.calls ++ [storeCall st a v] := by
  cases st <;> exact ⟨rfl, rfl, rfl, rfl, rfl, rfl, rfl, rfl, rfl⟩

theorem word_setWidth16_byte (v : Word) : ∀ i : Nat, i < 2 →
    (v.setWidth 16).extractLsb' (8 * i) 8 = v.extractLsb' (8 * i) 8 := fun i hi => by
  apply BitVec.eq_of_getLsbD_eq
  intro j hj
  simp only [BitVec.getLsbD_extractLsb', BitVec.getLsbD_setWidth]
  have : 8 * i + j < 16 := by omega
  simp [this]

theorem Memory.read8_write16_byte (m : Memory) (a : Word) (v : BitVec 16) : ∀ i : Nat, i < 2 →
    (m.write16 a v).read8 (a + BitVec.ofNat 32 i) = v.extractLsb' (8 * i) 8 := fun i hi => by
  have h1 : a + 1 ≠ a := by bv_omega
  rw [Memory.read8_write16]
  match i, hi with
  | 0, _ => simp
  | 1, _ => simp

theorem Memory.read8_write32_byte (m : Memory) (a v : Word) : ∀ i : Nat, i < 4 →
    (m.write32 a v).read8 (a + BitVec.ofNat 32 i) = v.extractLsb' (8 * i) 8 := fun i hi => by
  rw [Memory.read8_write32]
  match i, hi with
  | 0, _ => simp
  | 1, _ => simp
  | 2, _ => simp
  | 3, _ => simp

/-- The bytes a store writes, and that it writes no other. -/
theorem storeValue_mem (st : StoreKind) (a v : Word) (s : State) :
    (∀ i : Nat, i < st.bytes →
        (storeValue st a v s).mem.read8 (st.address a + BitVec.ofNat 32 i) = v.extractLsb' (8 * i) 8) ∧
      MemKeptOutside (st.address a) st.bytes s (storeValue st a v s) := by
  cases st with
  | word => exact ⟨Memory.read8_write32_byte _ _ _, fun b hb => Memory.read8_write32_outside _ _ hb⟩
  | byte =>
    refine ⟨fun i hi => ?_, fun b hb => Memory.read8_write8_outside _ _ hb⟩
    obtain rfl : i = 0 := by simp only [StoreKind.bytes] at hi; omega
    show (s.mem.write8 a (v.setWidth 8)).read8 (a + 0#32) = _
    rw [Memory.read8_write8, BitVec.add_zero, if_pos rfl]
    apply BitVec.eq_of_getLsbD_eq
    intro j hj
    simp [BitVec.getLsbD_setWidth, BitVec.getLsbD_extractLsb']
  | half =>
    refine ⟨fun i hi => ?_, fun b hb => Memory.read8_write16_outside _ _ hb⟩
    exact (Memory.read8_write16_byte s.mem a (v.setWidth 16) i hi).trans (word_setWidth16_byte v i hi)

/-- The whole effect of a store whose alignment is right. -/
theorem storeTransfer_effect {st : StoreKind} {ix : Indexing} {up : Bool} {rn rd : Reg} {off : Word} {k : AccessKind}
    {md : Mode} {s : State} (hT : s.cpsr.t = false)
    (ha : st.misaligned (transferAddr ix up (readReg md rn s) off) = false) :
    ∃ t, storeTransfer st ix up rn rd off k md s = .next t ∧ StoreEffect st ix up rn rd off k md s t := by
  rw [transferAddr_eq] at ha
  unfold storeTransfer StoreEffect
  simp only [transferAddr_eq, transferTarget, ha, Bool.false_eq_true, if_false, ← writesBack_eq, storeSource,
    pcStoreValue]
  generalize hv : (if rd = 15 then s.pc - 8 + s.params.pcStoreOffset else readReg md rd s) = v
  generalize htg : (if up = true then readReg md rn s + off else readReg md rn s - off) = target
  generalize haa : (if ix.p = true then target else readReg md rn s) = a
  obtain ⟨g1, g2, g3, g4, g5, g6, g7, g8, g9⟩ := storeValue_regs st a v s
  obtain ⟨hb, ho⟩ := storeValue_mem st a v s
  have h0 : Track [] [storeCall st a v] s (storeValue st a v s) := by
    simpa using (Track.refl hT).call (storeCall st a v) (w := storeValue st a v s) (by rw [g2]) g9
      (by rw [State.pc, g1]; rfl) g7 g8
  have hk0 : RegsKept [] s (storeValue st a v s) := (RegsKept.refl [] s).of_regs g1
  by_cases hw : writesBack ix = true
  · simp only [hw, if_true, Bool.true_and]
    obtain ⟨t, ht, he, hu⟩ := (h0.setReg md rn target).finish (f := rn == 15) (k := k) (by simp [pcTarget_isEmpty])
    obtain ⟨f1, f2, f3, f4, f5, f6, -⟩ := ending_fields hu
    have hm : t.mem = (storeValue st a v s).mem := by simpa using f5
    refine ⟨t, ht, fun i hi => by rw [hm]; exact hb i hi, fun b hb => by rw [hm]; exact ho b hb, fun _ hrn => ?_,
      ⟨?_, ?_, ?_, ?_⟩, ?_, ?_, by simpa using he⟩
    · rw [ending_readReg hu md hrn, readReg_setReg_self _ _ _ hrn]
    · exact ending_regsKept hu (hk0.setReg md rn target)
    · simpa [g3] using f2
    · simpa [g4] using f3
    · simpa [g5] using f4
    · simpa [g2] using f1
    · rw [f6, setReg_freeCount _ _ _ (by rw [g2]; exact hT), g6]
  · simp only [hw, Bool.false_eq_true, if_false, Bool.false_and]
    obtain ⟨t, ht, he, hu⟩ := h0.finish (f := false) (k := k) rfl
    obtain ⟨f1, f2, f3, f4, f5, f6, -⟩ := ending_fields hu
    refine ⟨t, ht, fun i hi => by rw [f5]; exact hb i hi, fun b hb => by rw [f5]; exact ho b hb,
      fun h => absurd h (by simp), ⟨?_, ?_, ?_, ?_⟩, ?_, ?_, he⟩
    · exact ending_regsKept hu hk0
    · rw [f2, g3]
    · rw [f3, g4]
    · rw [f4, g5]
    · rw [f1, g2]
    · rw [f6, g6]

end Sys2Proof.Machine
end

