-- ==== Sys2Proof/Laws/Block.lean ====
section
/-!
SUPPORT. The block transfers: the places of the registers of a list, the words a block load reads and the words a block
store writes.
-/

namespace Sys2Proof.Machine

/-! ### Word addresses -/

theorem wordAddr_eq_shift (a : Word) : wordAddr a = (a >>> 2) <<< 2 := by
  apply BitVec.eq_of_getLsbD_eq
  intro i hi
  have hm : ∀ j : Nat, j < 32 → (0xFFFFFFFC : Word).getLsbD j = decide (2 ≤ j) := by decide
  rw [wordAddr, BitVec.getLsbD_and, hm i hi, BitVec.getLsbD_shiftLeft, BitVec.getLsbD_ushiftRight]
  by_cases h : i < 2
  · simp [h, hi]
  · have h2 : 2 + (i - 2) = i := by omega
    have h3 : 2 ≤ i := by omega
    simp [h, hi, h2, h3]

theorem wordAddr_toNat (a : Word) : (wordAddr a).toNat = a.toNat / 4 * 4 := by
  rw [wordAddr_eq_shift, BitVec.toNat_shiftLeft, BitVec.toNat_ushiftRight, Nat.shiftLeft_eq, Nat.shiftRight_eq_div_pow]
  have := a.isLt
  omega

theorem wordAddr_add (a : Word) (j : Nat) :
    wordAddr (a + BitVec.ofNat 32 (4 * j)) = wordAddr a + BitVec.ofNat 32 (4 * j) := by
  apply BitVec.eq_of_toNat_eq
  rw [wordAddr_toNat, BitVec.toNat_add, BitVec.toNat_add, wordAddr_toNat, BitVec.toNat_ofNat]
  have := a.isLt
  omega

/-- Bytes of words at two different places of a block are different bytes. -/
theorem slot_bytes_ne (a : Word) {j j' i i' : Nat} (hj : j < 16) (hj' : j' < 16) (h : j ≠ j') (hi : i < 4) (hi' : i' < 4) :
    wordAddr (a + BitVec.ofNat 32 (4 * j)) + BitVec.ofNat 32 i ≠
      wordAddr (a + BitVec.ofNat 32 (4 * j')) + BitVec.ofNat 32 i' := by
  intro e
  have e := congrArg BitVec.toNat e
  rw [wordAddr_add, wordAddr_add] at e
  simp only [BitVec.toNat_add, BitVec.toNat_ofNat] at e
  omega

/-! ### The registers of a list -/

theorem listRegs_length (list : BitVec 16) : (listRegs list).length = slotOf list 16 := by
  simp [listRegs, slotOf]

theorem slotOf_le (list : BitVec 16) : slotOf list 16 ≤ 16 := by
  unfold slotOf
  exact (List.length_filter_le _ _).trans (by simp)

theorem mem_listRegs (list : BitVec 16) (r : Reg) : r ∈ listRegs list ↔ list.getLsbD r.toNat = true := by
  simp only [listRegs, List.mem_map, List.mem_filter, List.mem_range]
  constructor
  · rintro ⟨i, ⟨hi, hb⟩, rfl⟩
    simpa [BitVec.toNat_ofNat, Nat.mod_eq_of_lt hi] using hb
  · intro h
    exact ⟨r.toNat, ⟨r.isLt, h⟩, by simp⟩

theorem listRegs_nodup (list : BitVec 16) : (listRegs list).Nodup := by
  unfold listRegs
  refine List.Nodup.map_on ?_ (List.Nodup.filter _ List.nodup_range)
  intro i hi j hj e
  have hi := List.mem_range.1 (List.mem_of_mem_filter hi)
  have hj := List.mem_range.1 (List.mem_of_mem_filter hj)
  have := congrArg BitVec.toNat e
  simp only [BitVec.toNat_ofNat] at this
  omega

/-- A register of the list stands at the place its number of lower registers says. -/
theorem listRegs_slot (list : BitVec 16) (r : Reg) (h : list.getLsbD r.toNat = true) :
    (listRegs list)[slotOf list r.toNat]? = some r := by
  have hr : List.range 16 = List.range r.toNat ++ (List.range' r.toNat (16 - r.toNat)) := by
    have h16 := r.isLt
    have ha := List.range'_append_1 (s := 0) (m := r.toNat) (n := 16 - r.toNat)
    rw [Nat.zero_add, show r.toNat + (16 - r.toNat) = 16 by omega] at ha
    rw [List.range_eq_range', List.range_eq_range', ha]
  have hs : List.range' r.toNat (16 - r.toNat) = r.toNat :: List.range' (r.toNat + 1) (15 - r.toNat) := by
    have := r.isLt
    rw [show 16 - r.toNat = (15 - r.toNat) + 1 by omega, List.range'_succ]
  unfold listRegs slotOf
  rw [hr, hs, List.filter_append, List.filter_cons, if_pos h, List.map_append, List.getElem?_append_right (by simp)]
  simp

theorem slotOf_lt (list : BitVec 16) (r : Reg) (h : list.getLsbD r.toNat = true) :
    slotOf list r.toNat < slotOf list 16 := by
  have := listRegs_slot list r h
  rw [← listRegs_length]
  exact (List.getElem?_eq_some_iff.1 this).1

/-! ### Block loads -/

/-- The word a block load reads at place `j`, `a` being where the first one stands. -/
def blockWord (m : Memory) (a : Word) (j : Nat) : Word := m.read32 (wordAddr (a + BitVec.ofNat 32 (4 * j)))

theorem next_place (a : Word) (j : Nat) : a + 4 + BitVec.ofNat 32 (4 * j) = a + BitVec.ofNat 32 (4 * (j + 1)) := by
  have h4 : (4 : Word).toNat = 4 := rfl
  apply BitVec.eq_of_toNat_eq
  simp only [BitVec.toNat_add, BitVec.toNat_ofNat, h4]
  omega

theorem blockAddr_succ (a : Word) (j : Nat) :
    wordAddr (a + 4 + BitVec.ofNat 32 (4 * j)) = wordAddr (a + BitVec.ofNat 32 (4 * (j + 1))) := by
  rw [next_place]

theorem blockWord_succ (m : Memory) (a : Word) (j : Nat) : blockWord m (a + 4) j = blockWord m a (j + 1) := by
  rw [blockWord, blockWord, blockAddr_succ]

/-- The calls of a block load: one for each place, the first of kind `k`. -/
def blockLoadCalls (m : Memory) (a : Word) (k : AccessKind) (n : Nat) : List BusCall :=
  (List.range n).map fun j => .load .word (wordAddr (a + BitVec.ofNat 32 (4 * j)))
    (if j = 0 then k else .sequential) (blockWord m a j)

theorem blockLoadCalls_succ (m : Memory) (a : Word) (k : AccessKind) (n : Nat) :
    blockLoadCalls m a k (n + 1) =
      .load .word (wordAddr a) k (m.read32 (wordAddr a)) :: blockLoadCalls m (a + 4) .sequential n := by
  unfold blockLoadCalls
  rw [List.range_succ_eq_map, List.map_cons, List.map_map]
  congr 1
  · simp [blockWord]
  · apply List.map_congr_left
    intro j _
    simp only [Function.comp_apply, blockWord_succ, blockAddr_succ, Nat.succ_ne_zero, if_false, ite_self]

/-- Everything a block load does before R15 is written. -/
theorem loadRegs_effect (md : Mode) (rs : List Reg) (a : Word) (k : AccessKind) (t : Option Word) (s : State)
    (hn : rs.Nodup) :
    (loadRegs md rs a k t s).1 =
        (match rs.idxOf? 15 with | some j => some (blockWord s.mem a j) | none => t) ∧
      (∀ j r, rs[j]? = some r → r ≠ 15 → readReg md r (loadRegs md rs a k t s).2 = blockWord s.mem a j) ∧
      (∀ p : PhysReg, (∀ r ∈ rs, p ≠ phys r md) ∨ p = .r15 →
        (loadRegs md rs a k t s).2.regs.get p = s.regs.get p) ∧
      (loadRegs md rs a k t s).2.calls = s.calls ++ blockLoadCalls s.mem a k rs.length ∧
      (loadRegs md rs a k t s).2.mem = s.mem ∧ (loadRegs md rs a k t s).2.cpsr = s.cpsr ∧
      (loadRegs md rs a k t s).2.spsr = s.spsr ∧ (loadRegs md rs a k t s).2.params = s.params ∧
      (loadRegs md rs a k t s).2.inputs = s.inputs ∧ (loadRegs md rs a k t s).2.freeCount = s.freeCount ∧
      (loadRegs md rs a k t s).2.pipe0 = s.pipe0 ∧ (loadRegs md rs a k t s).2.pipe1 = s.pipe1 := by
  induction rs generalizing a k t s with
  | nil => simp [loadRegs, blockLoadCalls]
  | cons r rs ih =>
    have hn' := List.nodup_cons.1 hn
    simp only [loadRegs]
    by_cases hr : r = 15
    · subst hr
      rw [if_pos rfl]
      obtain ⟨h1, h2, h3, h4, h5, h6, h7, h8, h9, h10, h11, h12⟩ :=
        ih (a + 4) .sequential (some (load32 (wordAddr a) k s).1) (load32 (wordAddr a) k s).2 hn'.2
      have hnone : rs.idxOf? 15 = none := List.idxOf?_eq_none_iff.2 hn'.1
      refine ⟨?_, ?_, ?_, ?_, h5, h6, h7, h8, h9, h10, h11, h12⟩
      · rw [h1, hnone]; simp [List.idxOf?_cons, blockWord]
      · intro j q hj hq
        cases j with
        | zero => simp only [List.getElem?_cons_zero, Option.some.injEq] at hj; exact absurd hj.symm hq
        | succ j =>
          rw [h2 j q (by simpa using hj) hq, load32_mem, blockWord_succ]
      · intro p hp
        rw [h3 p (hp.imp (fun h r hr => h r (List.mem_cons_of_mem _ hr)) id)]; rfl
      · rw [h4, load32_calls, load32_mem, List.length_cons, blockLoadCalls_succ, List.append_assoc]; rfl
    · rw [if_neg hr]
      obtain ⟨h1, h2, h3, h4, h5, h6, h7, h8, h9, h10, h11, h12⟩ :=
        ih (a + 4) .sequential t (writeReg md r (load32 (wordAddr a) k s).1 (load32 (wordAddr a) k s).2) hn'.2
      refine ⟨?_, ?_, ?_, ?_, h5, h6, h7, h8, h9, h10, h11, h12⟩
      · rw [h1, List.idxOf?_cons, show (r == 15) = false from beq_false_of_ne hr]
        cases rs.idxOf? 15 with
        | none => rfl
        | some j => exact congrArg some (blockWord_succ s.mem a j)
      · intro j q hj hq
        cases j with
        | zero =>
          simp only [List.getElem?_cons_zero, Option.some.injEq] at hj
          subst hj
          rw [readReg, h3 _ (.inl fun q hq e => hn'.1 (by rw [phys_inj md _ _ e]; exact hq))]
          simp [blockWord]
        | succ j => rw [h2 j q (by simpa using hj) hq, writeReg_mem, load32_mem, blockWord_succ]
      · intro p hp
        rw [h3 p (hp.imp (fun h r hr => h r (List.mem_cons_of_mem _ hr)) id), writeReg_regs, RegFile.get_set_ne]
        · rfl
        · rcases hp with h | h
          · exact h r (by simp)
          · rw [h]; exact (phys_ne_r15 md hr).symm
      · rw [h4, writeReg_calls, load32_calls, writeReg_mem, load32_mem, List.length_cons, blockLoadCalls_succ,
          List.append_assoc]; rfl

/-! ### Block stores -/

/-- Everything a block store does before the base is written back. -/
theorem storeRegs_effect (md : Mode) (rs : List Reg) (a : Word) (k : AccessKind) (s : State) (hl : rs.length ≤ 16) :
    (∀ j r, rs[j]? = some r →
        (storeRegs md rs a k s).mem.read32 (wordAddr (a + BitVec.ofNat 32 (4 * j))) = storeSource md r s) ∧
      (∀ b : Word, (∀ j i : Nat, j < rs.length → i < 4 →
          b ≠ wordAddr (a + BitVec.ofNat 32 (4 * j)) + BitVec.ofNat 32 i) →
        (storeRegs md rs a k s).mem.read8 b = s.mem.read8 b) ∧
      (storeRegs md rs a k s).calls = s.calls ++ (rs.zipIdx.map fun x =>
        .store .word (wordAddr (a + BitVec.ofNat 32 (4 * x.2))) (if x.2 = 0 then k else .sequential)
          (storeSource md x.1 s)) ∧
      (storeRegs md rs a k s).regs = s.regs ∧ (storeRegs md rs a k s).cpsr = s.cpsr ∧
      (storeRegs md rs a k s).spsr = s.spsr ∧ (storeRegs md rs a k s).params = s.params ∧
      (storeRegs md rs a k s).inputs = s.inputs ∧ (storeRegs md rs a k s).freeCount = s.freeCount ∧
      (storeRegs md rs a k s).pipe0 = s.pipe0 ∧ (storeRegs md rs a k s).pipe1 = s.pipe1 := by
  induction rs generalizing a k s with
  | nil => simp [storeRegs]
  | cons r rs ih =>
    have hl' : rs.length ≤ 15 := by rw [List.length_cons] at hl; omega
    obtain ⟨h1, h2, h3, h4, h5, h6, h7, h8, h9, h10, h11⟩ :=
      ih (a + 4) .sequential (store32 (wordAddr a) (storeSource md r s) k s) (by omega)
    have hout : ∀ i : Nat, i < 4 →
        (storeRegs md rs (a + 4) .sequential (store32 (wordAddr a) (storeSource md r s) k s)).mem.read8
          (wordAddr a + BitVec.ofNat 32 i) =
        (s.mem.write32 (wordAddr a) (storeSource md r s)).read8 (wordAddr a + BitVec.ofNat 32 i) := by
      intro i hi
      apply h2
      intro j i' hj hi'
      rw [blockAddr_succ]
      have := slot_bytes_ne a (j := 0) (j' := j + 1) (by omega) (by omega) (by omega) hi hi'
      simpa using this
    simp only [storeRegs]
    refine ⟨?_, ?_, ?_, h4, h5, h6, h7, h8, h9, h10, h11⟩
    · intro j q hj
      cases j with
      | zero =>
        simp only [List.getElem?_cons_zero, Option.some.injEq] at hj
        subst hj
        have e0 := hout 0 (by omega)
        have e1 := hout 1 (by omega)
        have e2 := hout 2 (by omega)
        have e3 := hout 3 (by omega)
        rw [Nat.mul_zero, BitVec.add_zero]
        refine Eq.trans ?_ (Memory.read32_write32_self s.mem (wordAddr a) (storeSource md r s))
        rw [BitVec.add_zero] at e0
        unfold Memory.read32
        rw [e0, show wordAddr a + 1 = wordAddr a + BitVec.ofNat 32 1 from rfl, e1,
          show wordAddr a + 2 = wordAddr a + BitVec.ofNat 32 2 from rfl, e2,
          show wordAddr a + 3 = wordAddr a + BitVec.ofNat 32 3 from rfl, e3]
      | succ j =>
        rw [← blockAddr_succ, h1 j q (by simpa using hj)]; rfl
    · intro b hb
      rw [h2 b, store32_mem, Memory.read8_write32_outside]
      · intro i hi
        have := hb 0 i (by simp) hi
        simpa using this
      · intro j i hj hi
        rw [blockAddr_succ]
        exact hb (j + 1) i (by simpa using hj) hi
    · rw [h3, store32_calls, List.append_assoc]
      congr 1
      rw [List.zipIdx_cons, List.map_cons, List.zipIdx_succ, List.map_map]
      simp only [List.singleton_append]
      congr 1
      · simp
      · apply List.map_congr_left
        rintro ⟨q, j⟩ _
        simp only [Function.comp_apply, blockAddr_succ]
        simp
        rfl

end Sys2Proof.Machine
end

