-- ==== Sys2Proof/Laws/Moves.lean ====
section
/-!
SUPPORT. What a sequence of moves leaves unchanged, said once, and what exception entry, the reset and the flush in both
states do field by field.
-/

namespace Sys2Proof.Machine

/-- The slots hold the two words before R15, R15 is a word address, the next fetch is sequential: the state a flush in ARM
state leaves (40_step_and_pipeline.md rule R126). -/
def Refilled (t : State) : Prop :=
  t.pipe0 = t.mem.read32 (t.pc - 8) ∧ t.pipe1 = t.mem.read32 (t.pc - 4) ∧ t.nextFetchKind = .sequential ∧
    t.pc.extractLsb' 0 2 = 0

theorem wordAddr_low (a : Word) : (wordAddr a).extractLsb' 0 2 = 0 := by
  apply BitVec.eq_of_getLsbD_eq
  intro i hi
  unfold wordAddr
  rcases (by omega : i = 0 ∨ i = 1) with rfl | rfl <;> simp

theorem wordAddr_add8_low (a : Word) : (wordAddr a + 8).extractLsb' 0 2 = 0 := by
  apply BitVec.eq_of_toNat_eq
  rw [BitVec.extractLsb'_toNat, BitVec.toNat_add, wordAddr_toNat]
  simp

theorem refilled_refill (a : Word) (s : State) : Refilled (refill (wordAddr a) s) := by
  refine ⟨?_, ?_, rfl, wordAddr_add8_low a⟩
  · show s.mem.read32 (wordAddr a) = s.mem.read32 (wordAddr a + 8 - 8)
    congr 1; bv_omega
  · show s.mem.read32 (wordAddr a + 4) = s.mem.read32 (wordAddr a + 8 - 4)
    congr 1; bv_omega

/-- Everything moves leave unchanged. -/
structure Moved (md : Mode) (st fl : Bool) (s : State) (b : Bool) (u : State) : Prop where
  control : ControlKept s u
  flags : fl = false → FlagsKept s u
  spsr : u.spsr = s.spsr
  params : u.params = s.params
  inputs : u.inputs = s.inputs
  mem : st = false → u.mem = s.mem
  wf : s.mem.wf = true → u.mem.wf = true
  regs : ∀ p, p ≠ .r15 → (∀ j, p ≠ phys j md) → u.regs.get p = s.regs.get p
  running : b = false → u.pc = s.pc ∧ u.pipe0 = s.pipe0 ∧ u.pipe1 = s.pipe1
  flushed : b = true → s.cpsr.t = false → Refilled u
  calls : ∃ rest, u.calls = s.calls ++ rest

theorem Moves.moved {md : Mode} {st fl b : Bool} {s u : State} (h : Moves md st fl s b u) : Moved md st fl s b u := by
  induction h with
  | refl => exact ⟨⟨rfl, rfl, rfl, rfl⟩, fun _ => ⟨rfl, rfl, rfl, rfl⟩, rfl, rfl, rfl, fun _ => rfl, id, fun _ _ _ => rfl,
      fun _ => ⟨rfl, rfl, rfl⟩, nofun, [], by simp⟩
  | reg i v hi _ ih =>
    refine ⟨ih.control, ih.flags, ih.spsr, ih.params, ih.inputs, ih.mem, ih.wf, fun p hp hn => ?_, fun hb => ?_,
      fun hb ht => ?_, ih.calls⟩
    · show (RegFile.set _ _ _).get p = _
      rw [RegFile.get_set_ne _ _ (hn i)]; exact ih.regs p hp hn
    · rw [pc_writeReg _ _ _ hi]; exact ih.running hb
    · obtain ⟨h1, h2, h3, h4⟩ := ih.flushed hb ht
      unfold Refilled
      rw [pc_writeReg _ _ _ hi]
      exact ⟨h1, h2, h3, h4⟩
  | flags n z c v hf _ ih =>
    exact ⟨ih.control, fun e => by simp [e] at hf, ih.spsr, ih.params, ih.inputs, ih.mem, ih.wf, ih.regs, ih.running,
      ih.flushed, ih.calls⟩
  | draw _ ih => exact ⟨ih.control, ih.flags, ih.spsr, ih.params, ih.inputs, ih.mem, ih.wf, ih.regs, ih.running,
      ih.flushed, ih.calls⟩
  | load n a k v _ ih =>
    obtain ⟨r, hr⟩ := ih.calls
    exact ⟨ih.control, ih.flags, ih.spsr, ih.params, ih.inputs, ih.mem, ih.wf, ih.regs, ih.running, ih.flushed, r ++ [_],
      by rw [← List.append_assoc, ← hr]; rfl⟩
  | store8 a v k hs _ ih =>
    obtain ⟨r, hr⟩ := ih.calls
    exact ⟨ih.control, ih.flags, ih.spsr, ih.params, ih.inputs, fun e => by simp [e] at hs,
      fun hw => Memory.wf_write8 (ih.wf hw) _ _, ih.regs, ih.running, nofun, r ++ [_], by rw [← List.append_assoc, ← hr]; rfl⟩
  | store16 a v k hs _ ih =>
    obtain ⟨r, hr⟩ := ih.calls
    exact ⟨ih.control, ih.flags, ih.spsr, ih.params, ih.inputs, fun e => by simp [e] at hs,
      fun hw => Memory.wf_write16 (ih.wf hw) _ _, ih.regs, ih.running, nofun, r ++ [_], by rw [← List.append_assoc, ← hr]; rfl⟩
  | store32 a v k hs _ ih =>
    obtain ⟨r, hr⟩ := ih.calls
    exact ⟨ih.control, ih.flags, ih.spsr, ih.params, ih.inputs, fun e => by simp [e] at hs,
      fun hw => Memory.wf_write32 (ih.wf hw) _ _, ih.regs, ih.running, nofun, r ++ [_], by rw [← List.append_assoc, ← hr]; rfl⟩
  | @flush b t target _ ih =>
    refine ⟨?_, fun hf => ?_, by simpa using ih.spsr, by simpa using ih.params, by simpa using ih.inputs,
      by simpa using ih.mem, by simpa using ih.wf, fun p hp hn => ?_, nofun, fun _ ht => ?_, ?_⟩
    · unfold ControlKept; rw [flush_cpsr]; exact ih.control
    · unfold FlagsKept; rw [flush_cpsr]; exact ih.flags hf
    · rw [flush_get _ _ hp]; exact ih.regs p hp hn
    · rw [flush_arm _ (ih.control.2.2.1.trans ht)]; exact refilled_refill _ _
    · obtain ⟨r, hr⟩ := ih.calls
      unfold Machine.flush
      split
      · exact ⟨r, hr⟩
      · refine ⟨r ++ refillCalls t.mem target, ?_⟩
        rw [← List.append_assoc, ← hr]
        show (_ ++ [_]) ++ [_] = _
        rw [List.append_assoc]; rfl

/-- The same of the end of an instruction. -/
theorem Finished.moved {md : Mode} {st fl : Bool} {s t : State} (h : Finished md st fl s t) :
    ∃ b u k, Moved md st fl s b u ∧ t = if b then u else advance k u := by
  obtain ⟨b, u, k, hu, ht⟩ := h
  exact ⟨b, u, k, hu.moved, ht⟩

/-! ### Exception entry -/

/-- Entry writes what `Entered` lists and nothing else. -/
theorem takeException_entered (x : Exc) (lr : Word) (s : State) :
    Entered x.mode x.vector lr x.setsF s (takeException x lr s) := by
  unfold takeException
  have hT : (State.cpsr { ((s.withSpsr x.mode s.cpsr).withCpsr (s.cpsr.entered x)) with
      regs := ((s.withSpsr x.mode s.cpsr).withCpsr (s.cpsr.entered x)).regs.set (lrReg (some x.mode)) lr }).t = false := rfl
  dsimp only
  rw [flush_arm _ hT]
  have h14 : phys 14 x.mode.mode = lrReg (some x.mode) := by cases x <;> rfl
  have hne : phys 14 x.mode.mode ≠ .r15 := phys_ne_r15 _ (by decide)
  refine ⟨?_, ?_, rfl, ?_, ?_, fun _ => rfl, rfl, rfl, rfl, ?_, rfl, rfl, rfl, rfl⟩
  · show (s.spsr.set x.mode s.cpsr).get x.mode = _; simp
  · intro d hd; show (s.spsr.set x.mode s.cpsr).get d = _; rw [SpsrFile.get_set, if_neg hd]
  · show ((s.regs.set (lrReg (some x.mode)) lr).set .r15 _).get _ = _
    rw [RegFile.get_set_ne _ _ hne, h14]; simp
  · intro p hp hn
    show ((s.regs.set (lrReg (some x.mode)) lr).set .r15 _).get _ = _
    rw [RegFile.get_set_ne _ _ hp, RegFile.get_set_ne _ _ (by rw [← h14]; simpa using hn)]
  · simp [refill, load32, State.record, refillCalls, State.withPc, State.withSpsr, State.withCpsr]

theorem takeException_mem (x : Exc) (lr : Word) (s : State) : (takeException x lr s).mem = s.mem := rfl

/-- The vectors are word addresses. -/
theorem Exc.wordAddr_vector (x : Exc) : wordAddr x.vector = x.vector := by cases x <;> rfl

theorem takeException_refilled (x : Exc) (lr : Word) (s : State) : Refilled (takeException x lr s) :=
  refilled_refill x.vector _

/-! ### Reset -/

/-- Every field of the state after the reset operation, but for R14_svc, SPSR_svc and the flags, which take free
values. -/
theorem resetCore_fields (s : State) :
    (resetCore s).cpsr.m = Mode.supervisor.bits ∧ (resetCore s).cpsr.i = true ∧ (resetCore s).cpsr.f = true ∧
      (resetCore s).cpsr.t = false ∧ (resetCore s).pc = 8 ∧ (resetCore s).mem = s.mem ∧
      (resetCore s).params = s.params ∧ (resetCore s).inputs = s.inputs ∧
      (resetCore s).calls = s.calls ++ refillCalls s.mem 0 ∧ Refilled (resetCore s) :=
  ⟨rfl, rfl, rfl, rfl, rfl, rfl, rfl, rfl,
    by
      show (s.calls ++ [_]) ++ [_] = _
      rw [List.append_assoc]; rfl,
    refilled_refill 0 _⟩

end Sys2Proof.Machine
end

