-- ==== Sys2Proof/Laws/Instructions.lean ====
section
/-!
SUPPORT. Facts of single families: a data-processing instruction as its shared handler, the products and the effect of a
multiply, the target of a branch, the addresses of a block transfer, the bits MSR writes, the flush that enters Thumb
state.
-/

namespace Sys2Proof.Machine

/-! ### Data processing -/

theorem exec_dataProcessing (op : AluOp) (c : Cond) (sf : Bool) (rn rd : Reg) (o : Operand2) (s : State) :
    exec (Instr.dataProcessing op c sf rn rd o) s =
      gate c s fun md => dataProc op (sf || op.isCompare) rn rd o md s := by
  cases op <;> simp only [Instr.dataProcessing, AluOp.isCompare, Bool.or_false, Bool.or_true] <;> rfl

/-- Where no refusal applies, a data-processing instruction is the handler's result. -/
theorem exec_dataProcessing_allowed {op : AluOp} {c : Cond} {sf : Bool} {rn rd : Reg} {o : Operand2} {md : Mode} {s : State}
    (h : Ready c md s) (hx : pcInRegisterShift op.readsRn rn o = false) (h2 : Allows (reservedBit7 o) s)
    (h15 : Allows (op.isCompare && rd == 15) s) :
    exec (Instr.dataProcessing op c sf rn rd o) s = dataProcResult op (sf || op.isCompare) rn rd o md s := by
  rw [exec_dataProcessing, gate_ready h, dataProc, if_neg (by simp [hx]), unlessStrict_allows h2, unlessStrict_allows h15]

/-! ### Flush into Thumb state -/

theorem flush_thumb_fields {s : State} (v : Word) (h : s.cpsr.t = true) :
    (flush v s).pc = v &&& 0xFFFFFFFE ∧ (flush v s).nextFetchKind = .nonSequential ∧ (flush v s).calls = s.calls := by
  rw [flush_thumb _ h]; exact ⟨rfl, rfl, rfl⟩

/-! ### Branches -/

theorem branchTarget_eq (off : BitVec 24) (s : State) :
    branchTarget off s = BitVec.ofInt 32 (s.pc.toInt + 4 * off.toInt) := by
  apply BitVec.eq_of_toInt_eq
  rw [branchTarget, BitVec.toInt_add, BitVec.toInt_ofInt]
  have : ((off ++ 0b00#2).signExtend 32).toInt = 4 * off.toInt := by
    rw [BitVec.toInt_signExtend_of_le (by omega)]
    rw [BitVec.toInt_eq_toNat_bmod, BitVec.toInt_eq_toNat_bmod, BitVec.toNat_append]
    have := off.isLt
    have e : off.toNat <<< 2 ||| (0b00#2).toNat = 4 * off.toNat := by
      simp [Nat.shiftLeft_eq]; omega
    rw [e, Int.bmod_def, Int.bmod_def]
    push_cast
    split <;> split <;> omega
  rw [this]

/-! ### Multiplies -/

theorem mulFlags_fields (sf top z : Bool) (s : State) :
    (mulFlags sf top z s).regs = s.regs ∧ (mulFlags sf top z s).spsr = s.spsr ∧ (mulFlags sf top z s).mem = s.mem ∧
    (mulFlags sf top z s).params = s.params ∧ (mulFlags sf top z s).inputs = s.inputs ∧
    (mulFlags sf top z s).calls = s.calls ∧ (mulFlags sf top z s).pipe0 = s.pipe0 ∧ (mulFlags sf top z s).pipe1 = s.pipe1 ∧
    (mulFlags sf top z s).cpsr.t = s.cpsr.t ∧ (mulFlags sf top z s).nextFetchKind = s.nextFetchKind ∧
    MulFlags sf top z s (mulFlags sf top z s) := by
  unfold mulFlags
  cases sf
  · exact ⟨rfl, rfl, rfl, rfl, rfl, rfl, rfl, rfl, rfl, rfl, ⟨rfl, rfl, rfl, rfl⟩, rfl, fun _ => ⟨⟨rfl, rfl, rfl, rfl⟩, rfl⟩,
      fun h => absurd h (by simp), fun _ => ⟨rfl, rfl⟩⟩
  · simp only [if_true]
    cases hp : s.params.mulCPolicy
    · exact ⟨rfl, rfl, rfl, rfl, rfl, rfl, rfl, rfl, rfl, rfl, ⟨rfl, rfl, rfl, rfl⟩, rfl, fun h => absurd h (by simp),
        fun _ => ⟨rfl, rfl⟩, fun _ => ⟨rfl, rfl⟩⟩
    · exact ⟨rfl, rfl, rfl, rfl, rfl, rfl, rfl, rfl, rfl, rfl, ⟨rfl, rfl, rfl, rfl⟩, rfl, fun h => absurd h (by simp),
        fun _ => ⟨rfl, rfl⟩, fun h => absurd (hp.symm.trans h) (by simp)⟩

theorem mulFlags_congr {sf top z : Bool} {s t u : State} (h : MulFlags sf top z s t) (hc : u.cpsr = t.cpsr)
    (hf : u.freeCount = t.freeCount) : MulFlags sf top z s u := by
  unfold MulFlags ControlKept FlagsKept at *
  rw [hc, hf]; exact h

theorem mulResult_effect {sf : Bool} {rd : Reg} {r : Word} {md : Mode} {s : State} (hT : s.cpsr.t = false) :
    ∃ t, mulResult sf rd r md s = .next t ∧ MulEffect sf rd r md s t := by
  unfold mulResult MulEffect
  obtain ⟨g1, g2, g3, g4, g5, g6, g7, g8, g9, g10, g11⟩ := mulFlags_fields sf (r.getLsbD 31) (r == 0) s
  generalize mulFlags sf (r.getLsbD 31) (r == 0) s = u at *
  have h0 : Track [] [] s u := (Track.refl hT).congr g9 g6 g3 (by rw [State.pc, g1]; rfl) g7 g8 g10
  obtain ⟨t, ht, he, hu⟩ := (h0.setReg md rd r).finish (f := rd == 15) (k := s.params.nextFetchKind.multiply) (by simp [pcTarget_isEmpty])
  obtain ⟨f1, f2, f3, f4, f5, f6, -⟩ := ending_fields hu
  refine ⟨t, ht, fun hrd => ?_, mulFlags_congr g11 (by simpa using f1) ?_, ⟨?_, ?_, ?_, ?_⟩, fun a => ?_, by simpa using he⟩
  · rw [ending_readReg hu md hrd, readReg_setReg_self _ _ _ hrd]
  · rw [f6, setReg_freeCount _ _ _ (by rw [g9]; exact hT)]
  · exact ending_regsKept hu (RegsKept.setReg (l := []) (fun p _ _ => by rw [g1]) md rd _)
  · rw [f2, setReg_spsr, g2]
  · rw [f3, setReg_params, g4]
  · rw [f4, setReg_inputs, g5]
  · rw [f5, setReg_mem, g3]

theorem mullResult_effect {sf : Bool} {rdHi rdLo : Reg} {r : BitVec 64} {md : Mode} {s : State} (hT : s.cpsr.t = false) :
    ∃ t, mullResult sf rdHi rdLo r md s = .next t ∧ MullEffect sf rdHi rdLo r md s t := by
  unfold mullResult MullEffect
  obtain ⟨g1, g2, g3, g4, g5, g6, g7, g8, g9, g10, g11⟩ := mulFlags_fields sf (r.getLsbD 63) (r == 0) s
  generalize mulFlags sf (r.getLsbD 63) (r == 0) s = u at *
  have h0 : Track [] [] s u := (Track.refl hT).congr g9 g6 g3 (by rw [State.pc, g1]; rfl) g7 g8 g10
  have hTu : u.cpsr.t = false := by rw [g9]; exact hT
  obtain ⟨t, ht, he, hu⟩ := ((h0.setReg md rdLo (r.extractLsb' 0 32)).setReg md rdHi (r.extractLsb' 32 32)).finish
    (f := rdHi == 15 || rdLo == 15) (k := s.params.nextFetchKind.multiplyLong)
    (by rw [List.nil_append, pcTargets_isEmpty, Bool.not_not, Bool.or_comm])
  obtain ⟨f1, f2, f3, f4, f5, f6, -⟩ := ending_fields hu
  refine ⟨t, ht, fun hrd => ?_, fun hlo hne => ?_, mulFlags_congr g11 (by simpa using f1) ?_, ⟨?_, ?_, ?_, ?_⟩, fun a => ?_, by simpa using he⟩
  · rw [ending_readReg hu md hrd, readReg_setReg_self _ _ _ hrd]
  · rw [ending_readReg hu md hlo, readReg_setReg_ne _ _ _ hlo hne, readReg_setReg_self _ _ _ hlo]
  · rw [f6, setReg_freeCount _ _ _ (by simpa using hTu), setReg_freeCount _ _ _ hTu]
  · exact ending_regsKept hu ((RegsKept.setReg (l := []) (fun p _ _ => by rw [g1]) md rdLo _).setReg md rdHi _)
  · rw [f2, setReg_spsr, setReg_spsr, g2]
  · rw [f3, setReg_params, setReg_params, g4]
  · rw [f4, setReg_inputs, setReg_inputs, g5]
  · rw [f5, setReg_mem, setReg_mem, g3]

theorem unsignedProduct_eq (rs rm : Reg) (md : Mode) (s : State) :
    unsignedProduct rs rm md s = BitVec.ofNat 64 ((readReg md rm s).toNat * (readReg md rs s).toNat) := by
  apply BitVec.eq_of_toNat_eq
  rw [unsignedProduct, BitVec.toNat_mul, BitVec.toNat_setWidth, BitVec.toNat_setWidth, BitVec.toNat_ofNat]
  have h1 := (readReg md rm s).isLt
  have h2 := (readReg md rs s).isLt
  rw [Nat.mod_eq_of_lt (Nat.lt_of_lt_of_le h1 (by decide)), Nat.mod_eq_of_lt (a := (readReg md rs s).toNat) (Nat.lt_of_lt_of_le h2 (by decide))]

theorem signedProduct_eq (rs rm : Reg) (md : Mode) (s : State) :
    signedProduct rs rm md s = BitVec.ofInt 64 ((readReg md rm s).toInt * (readReg md rs s).toInt) := by
  apply BitVec.eq_of_toInt_eq
  rw [signedProduct, BitVec.toInt_mul, BitVec.toInt_signExtend_of_le (by omega), BitVec.toInt_signExtend_of_le (by omega), BitVec.toInt_ofInt]

theorem accumulator_eq (hi lo : Reg) (md : Mode) (s : State) :
    accumulator hi lo md s = BitVec.ofNat 64 ((readReg md hi s).toNat * 2 ^ 32 + (readReg md lo s).toNat) := by
  apply BitVec.eq_of_toNat_eq
  rw [accumulator, BitVec.toNat_append, BitVec.toNat_ofNat]
  have h1 := (readReg md hi s).isLt
  have h2 := (readReg md lo s).isLt
  rw [Nat.shiftLeft_eq, Nat.mul_comm, ← Nat.two_pow_add_eq_or_of_lt h2, Nat.mul_comm, Nat.mod_eq_of_lt (by omega)]

/-! ### Block transfers -/

theorem blockStart_slot (m : BlockMode) (base : Word) (list : BitVec 16) (j : Nat) :
    wordAddr (blockStart m base (blockBytes list) + BitVec.ofNat 32 (4 * j)) = slotAddr m base list j := by
  cases m <;> simp only [slotAddr, blockStart, blockBytes, listRegs_length]

theorem blockBase_eq (m : BlockMode) (base : Word) (list : BitVec 16) :
    blockNewBase m base (blockBytes list) = blockBase m base list := by
  unfold blockBase blockNewBase blockBytes
  rw [listRegs_length]
  cases m <;> rfl

/-! ### MSR -/

/-- The bits MSR selects: the flags by bit 3 of the field mask, I, F, T and the mode by bit 0. -/
theorem Psr.merged_fields (p : Psr) (fmask : BitVec 4) (w : Word) :
    p.merged (msrMask fmask) w =
      { n := if fmask.getLsbD 3 then w.getLsbD 31 else p.n
        z := if fmask.getLsbD 3 then w.getLsbD 30 else p.z
        c := if fmask.getLsbD 3 then w.getLsbD 29 else p.c
        v := if fmask.getLsbD 3 then w.getLsbD 28 else p.v
        i := if fmask.getLsbD 0 then w.getLsbD 7 else p.i
        f := if fmask.getLsbD 0 then w.getLsbD 6 else p.f
        t := if fmask.getLsbD 0 then w.getLsbD 5 else p.t
        m := if fmask.getLsbD 0 then w.extractLsb' 0 5 else p.m } := by
  obtain ⟨h31, h30, h29, h28, h7, h6, h5, hm⟩ := Psr.toWord_bits p
  have hbit : ∀ i, i < 32 → ((p.toWord &&& ~~~msrMask fmask) ||| (w &&& msrMask fmask)).getLsbD i =
      if (msrMask fmask).getLsbD i then w.getLsbD i else p.toWord.getLsbD i := by
    intro i hi
    rw [BitVec.getLsbD_or, BitVec.getLsbD_and, BitVec.getLsbD_and, BitVec.getLsbD_not]
    cases (msrMask fmask).getLsbD i <;> simp [hi]
  have m0 : ∀ i, i < 8 → (msrMask fmask).getLsbD i = fmask.getLsbD 0 := by clear * -; revert fmask; decide
  have m3 : ∀ i, i < 4 → (msrMask fmask).getLsbD (28 + i) = fmask.getLsbD 3 := by clear * -; revert fmask; decide
  simp only [Psr.merged, Psr.ofWord, Psr.mk.injEq]
  refine ⟨?_, ?_, ?_, ?_, ?_, ?_, ?_, ?_⟩
  · rw [hbit 31 (by omega), show (msrMask fmask).getLsbD 31 = _ from m3 3 (by omega), h31]
  · rw [hbit 30 (by omega), show (msrMask fmask).getLsbD 30 = _ from m3 2 (by omega), h30]
  · rw [hbit 29 (by omega), show (msrMask fmask).getLsbD 29 = _ from m3 1 (by omega), h29]
  · rw [hbit 28 (by omega), show (msrMask fmask).getLsbD 28 = _ from m3 0 (by omega), h28]
  · rw [hbit 7 (by omega), m0 7 (by omega), h7]
  · rw [hbit 6 (by omega), m0 6 (by omega), h6]
  · rw [hbit 5 (by omega), m0 5 (by omega), h5]
  · apply BitVec.eq_of_getLsbD_eq
    intro j hj
    rw [BitVec.getLsbD_extractLsb', Nat.zero_add, hbit j (by omega), m0 j (by omega), ← hm]
    simp only [hj, decide_true, Bool.true_and]
    split <;> rw [BitVec.getLsbD_extractLsb'] <;> simp [hj]

end Sys2Proof.Machine
end

