-- ==== Sys2Proof/Laws/PerInstr.lean ====
section
/-!
SUPPORT. The family `CondField`, one lemma per constructor: the word of an instruction has its condition in bits 31:28
(30_encoding.md rule R81).
-/

namespace Sys2Proof.Laws

/-- The top four bits of a word that begins with a condition. -/
theorem top_append {n m : Nat} (a : BitVec n) (b : BitVec m) (k : Nat) :
    (a ++ b).extractLsb' (k + m) 4 = a.extractLsb' k 4 := by
  apply BitVec.eq_of_getLsbD_eq
  intro i hi
  simp only [BitVec.getLsbD_extractLsb', BitVec.getLsbD_append, hi, decide_true, Bool.true_and]
  rw [if_neg (by omega)]
  congr 1
  omega

theorem cond_whole (c : Cond) : c.bits.extractLsb' 0 4 = c.bits := by cases c <;> rfl

theorem cond_encodeDp (c : Cond) (op : BitVec 4) (s : Bool) (rn rd : Reg) (o : Operand2) :
    field (encodeDp c op s rn rd o) 28 4 = c.bits := by
  unfold encodeDp field
  repeat refine (top_append _ _ _).trans ?_
  exact cond_whole c

theorem cond_encodeSdt (c : Cond) (ix : Indexing) (up b l : Bool) (rn rd : Reg) (off : SdtOffset) :
    field (encodeSdt c ix up b l rn rd off) 28 4 = c.bits := by
  unfold encodeSdt field
  repeat refine (top_append _ _ _).trans ?_
  exact cond_whole c

theorem cond_encodeBdt (c : Cond) (m : BlockMode) (s wb l : Bool) (rn : Reg) (list : BitVec 16) :
    field (encodeBdt c m s wb l rn list) 28 4 = c.bits := by
  unfold encodeBdt field
  repeat refine (top_append _ _ _).trans ?_
  exact cond_whole c

theorem cond_encodeB (c : Cond) (l : Bool) (offset24 : BitVec 24) :
    field (encodeB c l offset24) 28 4 = c.bits := by
  unfold encodeB field
  repeat refine (top_append _ _ _).trans ?_
  exact cond_whole c

theorem cond_encodeSwp (c : Cond) (b : Bool) (rn rd rm : Reg) :
    field (encodeSwp c b rn rd rm) 28 4 = c.bits := by
  unfold encodeSwp field
  repeat refine (top_append _ _ _).trans ?_
  exact cond_whole c

theorem cond_encodeMul (c : Cond) (bit22 a s : Bool) (rd rn rs rm : Reg) :
    field (encodeMul c bit22 a s rd rn rs rm) 28 4 = c.bits := by
  unfold encodeMul field
  repeat refine (top_append _ _ _).trans ?_
  exact cond_whole c

theorem cond_encodeMull (c : Cond) (u a s : Bool) (rdHi rdLo rs rm : Reg) :
    field (encodeMull c u a s rdHi rdLo rs rm) 28 4 = c.bits := by
  unfold encodeMull field
  repeat refine (top_append _ _ _).trans ?_
  exact cond_whole c

theorem cond_encodeHReg (c : Cond) (ix : Indexing) (up l : Bool) (sh : BitVec 2) (rn rd rm : Reg) :
    field (encodeHReg c ix up l sh rn rd rm) 28 4 = c.bits := by
  unfold encodeHReg field
  repeat refine (top_append _ _ _).trans ?_
  exact cond_whole c

theorem cond_encodeHImm (c : Cond) (ix : Indexing) (up l : Bool) (sh : BitVec 2) (rn rd : Reg) (off : BitVec 8) :
    field (encodeHImm c ix up l sh rn rd off) 28 4 = c.bits := by
  unfold encodeHImm field
  repeat refine (top_append _ _ _).trans ?_
  exact cond_whole c

/-- The condition stands in bits 31:28. -/
def CondField.Statement (i : Instr) : Prop := field (encode i) 28 4 = i.cond.bits

theorem CondField.bx (c : Cond) (rn : Reg) :
    CondField.Statement (.bx c rn) := by
  unfold Statement encode field
  repeat refine (top_append _ _ _).trans ?_
  exact cond_whole c

theorem CondField.ldm (c : Cond) (m : BlockMode) (forceUser wb : Bool) (rn : Reg) (list : BitVec 16) :
    CondField.Statement (.ldm c m forceUser wb rn list) := cond_encodeBdt _ _ _ _ _ _ _

theorem CondField.stm (c : Cond) (m : BlockMode) (forceUser wb : Bool) (rn : Reg) (list : BitVec 16) :
    CondField.Statement (.stm c m forceUser wb rn list) := cond_encodeBdt _ _ _ _ _ _ _

theorem CondField.b (c : Cond) (offset24 : BitVec 24) :
    CondField.Statement (.b c offset24) := cond_encodeB _ _ _

theorem CondField.bl (c : Cond) (offset24 : BitVec 24) :
    CondField.Statement (.bl c offset24) := cond_encodeB _ _ _

theorem CondField.swi (c : Cond) (comment24 : BitVec 24) :
    CondField.Statement (.swi c comment24) := by
  unfold Statement encode field
  repeat refine (top_append _ _ _).trans ?_
  exact cond_whole c

theorem CondField.und (c : Cond) (ignoredHi : BitVec 20) (ignoredLo : BitVec 4) :
    CondField.Statement (.und c ignoredHi ignoredLo) := by
  unfold Statement encode field
  repeat refine (top_append _ _ _).trans ?_
  exact cond_whole c

theorem CondField.ldrt (c : Cond) (up : Bool) (rn rd : Reg) (off : SdtOffset) :
    CondField.Statement (.ldrt c up rn rd off) := cond_encodeSdt _ _ _ _ _ _ _ _

theorem CondField.ldrbt (c : Cond) (up : Bool) (rn rd : Reg) (off : SdtOffset) :
    CondField.Statement (.ldrbt c up rn rd off) := cond_encodeSdt _ _ _ _ _ _ _ _

theorem CondField.strt (c : Cond) (up : Bool) (rn rd : Reg) (off : SdtOffset) :
    CondField.Statement (.strt c up rn rd off) := cond_encodeSdt _ _ _ _ _ _ _ _

theorem CondField.strbt (c : Cond) (up : Bool) (rn rd : Reg) (off : SdtOffset) :
    CondField.Statement (.strbt c up rn rd off) := cond_encodeSdt _ _ _ _ _ _ _ _

theorem CondField.ldr (c : Cond) (ix : Indexing) (up : Bool) (rn rd : Reg) (off : SdtOffset) :
    CondField.Statement (.ldr c ix up rn rd off) := cond_encodeSdt _ _ _ _ _ _ _ _

theorem CondField.ldrb (c : Cond) (ix : Indexing) (up : Bool) (rn rd : Reg) (off : SdtOffset) :
    CondField.Statement (.ldrb c ix up rn rd off) := cond_encodeSdt _ _ _ _ _ _ _ _

theorem CondField.str (c : Cond) (ix : Indexing) (up : Bool) (rn rd : Reg) (off : SdtOffset) :
    CondField.Statement (.str c ix up rn rd off) := cond_encodeSdt _ _ _ _ _ _ _ _

theorem CondField.strb (c : Cond) (ix : Indexing) (up : Bool) (rn rd : Reg) (off : SdtOffset) :
    CondField.Statement (.strb c ix up rn rd off) := cond_encodeSdt _ _ _ _ _ _ _ _

theorem CondField.swp (c : Cond) (rn rd rm : Reg) :
    CondField.Statement (.swp c rn rd rm) := cond_encodeSwp _ _ _ _ _

theorem CondField.swpb (c : Cond) (rn rd rm : Reg) :
    CondField.Statement (.swpb c rn rd rm) := cond_encodeSwp _ _ _ _ _

theorem CondField.mul (c : Cond) (bit22 s : Bool) (rd rn rs rm : Reg) :
    CondField.Statement (.mul c bit22 s rd rn rs rm) := cond_encodeMul _ _ _ _ _ _ _ _

theorem CondField.mla (c : Cond) (bit22 s : Bool) (rd rn rs rm : Reg) :
    CondField.Statement (.mla c bit22 s rd rn rs rm) := cond_encodeMul _ _ _ _ _ _ _ _

theorem CondField.umull (c : Cond) (s : Bool) (rdHi rdLo rs rm : Reg) :
    CondField.Statement (.umull c s rdHi rdLo rs rm) := cond_encodeMull _ _ _ _ _ _ _ _

theorem CondField.umlal (c : Cond) (s : Bool) (rdHi rdLo rs rm : Reg) :
    CondField.Statement (.umlal c s rdHi rdLo rs rm) := cond_encodeMull _ _ _ _ _ _ _ _

theorem CondField.smull (c : Cond) (s : Bool) (rdHi rdLo rs rm : Reg) :
    CondField.Statement (.smull c s rdHi rdLo rs rm) := cond_encodeMull _ _ _ _ _ _ _ _

theorem CondField.smlal (c : Cond) (s : Bool) (rdHi rdLo rs rm : Reg) :
    CondField.Statement (.smlal c s rdHi rdLo rs rm) := cond_encodeMull _ _ _ _ _ _ _ _

theorem CondField.strhReg (c : Cond) (ix : Indexing) (up : Bool) (rn rd rm : Reg) :
    CondField.Statement (.strhReg c ix up rn rd rm) := cond_encodeHReg _ _ _ _ _ _ _ _

theorem CondField.ldrhReg (c : Cond) (ix : Indexing) (up : Bool) (rn rd rm : Reg) :
    CondField.Statement (.ldrhReg c ix up rn rd rm) := cond_encodeHReg _ _ _ _ _ _ _ _

theorem CondField.ldrsbReg (c : Cond) (ix : Indexing) (up : Bool) (rn rd rm : Reg) :
    CondField.Statement (.ldrsbReg c ix up rn rd rm) := cond_encodeHReg _ _ _ _ _ _ _ _

theorem CondField.ldrshReg (c : Cond) (ix : Indexing) (up : Bool) (rn rd rm : Reg) :
    CondField.Statement (.ldrshReg c ix up rn rd rm) := cond_encodeHReg _ _ _ _ _ _ _ _

theorem CondField.reservedStoreSh10Reg (c : Cond) (ix : Indexing) (up : Bool) (rn rd rm : Reg) :
    CondField.Statement (.reservedStoreSh10Reg c ix up rn rd rm) := cond_encodeHReg _ _ _ _ _ _ _ _

theorem CondField.reservedStoreSh11Reg (c : Cond) (ix : Indexing) (up : Bool) (rn rd rm : Reg) :
    CondField.Statement (.reservedStoreSh11Reg c ix up rn rd rm) := cond_encodeHReg _ _ _ _ _ _ _ _

theorem CondField.reservedSh00Reg (c : Cond) (ix : Indexing) (up load : Bool) (rn rd rm : Reg) :
    CondField.Statement (.reservedSh00Reg c ix up load rn rd rm) := cond_encodeHReg _ _ _ _ _ _ _ _

theorem CondField.strhImm (c : Cond) (ix : Indexing) (up : Bool) (rn rd : Reg) (off : BitVec 8) :
    CondField.Statement (.strhImm c ix up rn rd off) := cond_encodeHImm _ _ _ _ _ _ _ _

theorem CondField.ldrhImm (c : Cond) (ix : Indexing) (up : Bool) (rn rd : Reg) (off : BitVec 8) :
    CondField.Statement (.ldrhImm c ix up rn rd off) := cond_encodeHImm _ _ _ _ _ _ _ _

theorem CondField.ldrsbImm (c : Cond) (ix : Indexing) (up : Bool) (rn rd : Reg) (off : BitVec 8) :
    CondField.Statement (.ldrsbImm c ix up rn rd off) := cond_encodeHImm _ _ _ _ _ _ _ _

theorem CondField.ldrshImm (c : Cond) (ix : Indexing) (up : Bool) (rn rd : Reg) (off : BitVec 8) :
    CondField.Statement (.ldrshImm c ix up rn rd off) := cond_encodeHImm _ _ _ _ _ _ _ _

theorem CondField.reservedStoreSh10Imm (c : Cond) (ix : Indexing) (up : Bool) (rn rd : Reg) (off : BitVec 8) :
    CondField.Statement (.reservedStoreSh10Imm c ix up rn rd off) := cond_encodeHImm _ _ _ _ _ _ _ _

theorem CondField.reservedStoreSh11Imm (c : Cond) (ix : Indexing) (up : Bool) (rn rd : Reg) (off : BitVec 8) :
    CondField.Statement (.reservedStoreSh11Imm c ix up rn rd off) := cond_encodeHImm _ _ _ _ _ _ _ _

theorem CondField.reservedSh00Imm (c : Cond) (ix : Indexing) (up load : Bool) (rn rd : Reg) (off : BitVec 8) :
    CondField.Statement (.reservedSh00Imm c ix up load rn rd off) := cond_encodeHImm _ _ _ _ _ _ _ _

theorem CondField.mrs (c : Cond) (spsr : Bool) (rd : Reg) (sbz : BitVec 12) :
    CondField.Statement (.mrs c spsr rd sbz) := by
  unfold Statement encode field
  repeat refine (top_append _ _ _).trans ?_
  exact cond_whole c

theorem CondField.msrReg (c : Cond) (spsr : Bool) (fmask : BitVec 4) (sbz : BitVec 8) (rm : Reg) :
    CondField.Statement (.msrReg c spsr fmask sbz rm) := by
  unfold Statement encode field
  repeat refine (top_append _ _ _).trans ?_
  exact cond_whole c

theorem CondField.msrImm (c : Cond) (spsr : Bool) (fmask rot : BitVec 4) (imm8 : BitVec 8) :
    CondField.Statement (.msrImm c spsr fmask rot imm8) := by
  unfold Statement encode field
  repeat refine (top_append _ _ _).trans ?_
  exact cond_whole c

theorem CondField.and (c : Cond) (s : Bool) (rn rd : Reg) (o : Operand2) :
    CondField.Statement (.and c s rn rd o) := cond_encodeDp _ _ _ _ _ _

theorem CondField.eor (c : Cond) (s : Bool) (rn rd : Reg) (o : Operand2) :
    CondField.Statement (.eor c s rn rd o) := cond_encodeDp _ _ _ _ _ _

theorem CondField.sub (c : Cond) (s : Bool) (rn rd : Reg) (o : Operand2) :
    CondField.Statement (.sub c s rn rd o) := cond_encodeDp _ _ _ _ _ _

theorem CondField.rsb (c : Cond) (s : Bool) (rn rd : Reg) (o : Operand2) :
    CondField.Statement (.rsb c s rn rd o) := cond_encodeDp _ _ _ _ _ _

theorem CondField.add (c : Cond) (s : Bool) (rn rd : Reg) (o : Operand2) :
    CondField.Statement (.add c s rn rd o) := cond_encodeDp _ _ _ _ _ _

theorem CondField.adc (c : Cond) (s : Bool) (rn rd : Reg) (o : Operand2) :
    CondField.Statement (.adc c s rn rd o) := cond_encodeDp _ _ _ _ _ _

theorem CondField.sbc (c : Cond) (s : Bool) (rn rd : Reg) (o : Operand2) :
    CondField.Statement (.sbc c s rn rd o) := cond_encodeDp _ _ _ _ _ _

theorem CondField.rsc (c : Cond) (s : Bool) (rn rd : Reg) (o : Operand2) :
    CondField.Statement (.rsc c s rn rd o) := cond_encodeDp _ _ _ _ _ _

theorem CondField.tst (c : Cond) (rn rd : Reg) (o : Operand2) :
    CondField.Statement (.tst c rn rd o) := cond_encodeDp _ _ _ _ _ _

theorem CondField.teq (c : Cond) (rn rd : Reg) (o : Operand2) :
    CondField.Statement (.teq c rn rd o) := cond_encodeDp _ _ _ _ _ _

theorem CondField.cmp (c : Cond) (rn rd : Reg) (o : Operand2) :
    CondField.Statement (.cmp c rn rd o) := cond_encodeDp _ _ _ _ _ _

theorem CondField.cmn (c : Cond) (rn rd : Reg) (o : Operand2) :
    CondField.Statement (.cmn c rn rd o) := cond_encodeDp _ _ _ _ _ _

theorem CondField.orr (c : Cond) (s : Bool) (rn rd : Reg) (o : Operand2) :
    CondField.Statement (.orr c s rn rd o) := cond_encodeDp _ _ _ _ _ _

theorem CondField.mov (c : Cond) (s : Bool) (rn rd : Reg) (o : Operand2) :
    CondField.Statement (.mov c s rn rd o) := cond_encodeDp _ _ _ _ _ _

theorem CondField.bic (c : Cond) (s : Bool) (rn rd : Reg) (o : Operand2) :
    CondField.Statement (.bic c s rn rd o) := cond_encodeDp _ _ _ _ _ _

theorem CondField.mvn (c : Cond) (s : Bool) (rn rd : Reg) (o : Operand2) :
    CondField.Statement (.mvn c s rn rd o) := cond_encodeDp _ _ _ _ _ _

theorem CondField.reservedDp (c : Cond) (op : BitVec 2) (rn rd : Reg) (o : Operand2) :
    CondField.Statement (.reservedDp c op rn rd o) := cond_encodeDp _ _ _ _ _ _

theorem CondField.cdpMcrMrc (c : Cond) (ignored : BitVec 24) :
    CondField.Statement (.cdpMcrMrc c ignored) := by
  unfold Statement encode field
  repeat refine (top_append _ _ _).trans ?_
  exact cond_whole c

theorem CondField.ldcStc (c : Cond) (ignored : BitVec 25) :
    CondField.Statement (.ldcStc c ignored) := by
  unfold Statement encode field
  repeat refine (top_append _ _ _).trans ?_
  exact cond_whole c

end Sys2Proof.Laws
end

