-- ==== Sys2Proof/Tests/Slice0.lean ====
section
/-!
SUPPORT. The model's own tests: the smoke test of WellFormed, one word written out bit by bit for each constructor, one or
two single steps for each instruction with the results of 95_test_vectors.md, and, for every statement with hypotheses, a
concrete case that meets them.
-/

namespace Sys2Proof.Tests

open Sys2Proof.Machine

/-! ### The small states of the tests (95_test_vectors.md, conventions) -/

/-- The data image at 0x1000. -/
def image : Memory :=
  [(0x1000, 0x11), (0x1001, 0x22), (0x1002, 0x33), (0x1003, 0x44), (0x1004, 0x55), (0x1005, 0x66), (0x1006, 0x77),
    (0x1007, 0x88), (0x1008, 0x99), (0x1009, 0xAA), (0x100A, 0xBB), (0x100B, 0xCC), (0x100C, 0x01), (0x100D, 0xFF),
    (0x100E, 0x80), (0x100F, 0x7F)]

/-- An instruction at 0x100 executes: R15 = 0x108, CPSR as given, the listed registers of its mode. -/
def machine (cpsr : Word) (regs : List (Reg × Word)) : State :=
  regs.foldl (fun s r => writeReg ((Mode.ofBits (cpsr.extractLsb' 0 5)).getD .user) r.1 r.2 s)
    { State.reset with
      regs := { RegFile.const 0 with r15 := 0x108 }, cpsr := Psr.ofWord cpsr, mem := image, calls := [] }

/-- The same with the default arguments of 00_scope.md rule R4. -/
def strict (s : State) : State := { s with params := .specDefault }

/-- The state before the step that executes a word at 0x100. -/
def atFetch (w : Word) (s : State) : State := { s with pipe0 := w }

/-- The next state, if there is one. -/
def nextOf : Result → Option State
  | .next t => some t
  | .fault _ => none
  | .refused _ => none

/-- The refusal, if there is one. -/
def refusalOf : Result → Option Refusal
  | .next _ => none
  | .fault _ => none
  | .refused r => some r

/-- The state after a word is executed. -/
def ran (w : Word) (s : State) : Option State := nextOf (exec (decode w) s)

/-- Why a word is refused. -/
def refusedBy (w : Word) (s : State) : Option Refusal := refusalOf (exec (decode w) s)

/-- R0 and NZCV. -/
def r0Flags (t : State) : Word × BitVec 4 := (readReg .system 0 t, t.cpsr.flags)

/-- R0 and R1. -/
def r0r1 (t : State) : Word × Word := (readReg .system 0 t, readReg .system 1 t)

/-! ### WellFormed: an ill-formed term for each check, refused -/

theorem test_wf_operand2_lowBits : Instr.wellFormed (.and .al false 1 0 (.shiftReg 0 true .lsr 2)) = false := by decide
theorem test_wf_operand2_bit22 : Instr.wellFormed (.sub .al false 1 0 (.shiftReg 3 true .lsr 2)) = false := by decide
theorem test_wf_operand2_multiply : Instr.wellFormed (.and .al false 1 0 (.shiftReg 3 true .lsl 2)) = false := by decide
theorem test_wf_operand2_good : Instr.wellFormed (.mov .al false 1 0 (.shiftReg 3 true .lsl 2)) = true := by decide
theorem test_wf_reservedDp_mrs : Instr.wellFormed (.reservedDp .al 0 15 0 (.shiftImm 0 .lsl 0)) = false := by decide
theorem test_wf_reservedDp_msr : Instr.wellFormed (.reservedDp .al 1 9 15 (.shiftImm 0 .lsl 0)) = false := by decide
theorem test_wf_reservedDp_half : Instr.wellFormed (.reservedDp .al 1 9 0 (.shiftReg 0 true .lsr 0)) = false := by decide
theorem test_wf_sh00_swap : Instr.wellFormed (.reservedSh00Reg .al .offset false false 2 0 1) = false := by decide
theorem test_wf_sh00_multiply : Instr.wellFormed (.reservedSh00Imm .al .postIndexed true true 2 0 0x11) = false := by
  decide
theorem test_wf_sdt_t_variant :
    Instr.wellFormed (.ldr .al .postIndexedW true 1 0 (.imm 4)) = false ∧
      Instr.wellFormed (.strb .al .postIndexedW true 1 0 (.imm 4)) = false := by decide
theorem test_wf_mrs : Instr.wellFormed (.mrs .al true 0 0x090) = false := by decide
theorem test_wf_msr_half : Instr.wellFormed (.msrReg .al true 9 0x09 0) = false := by decide
theorem test_wf_msr_bx : Instr.wellFormed (.msrReg .al false 15 0xF1 14) = false := by decide
/-- The word of an ill-formed term is another instruction's: here BX. -/
theorem test_wf_taken : decode (encode (.msrReg .al false 15 0xF1 14)) = .bx .al 14 := by decide

/-! ### Decoding: each constructor's word, field by field from the formats of 30_encoding.md -/

theorem test_decode_branch :
    decode 0b1110_000100101111111111110001_1110 = .bx .al 14 ∧
    decode 0b0001_101_0_111111111111111111111110 = .b .ne 0xFFFFFE ∧
    decode 0b1110_101_1_000000000000000000111110 = .bl .al 0x3E := by decide

theorem test_decode_block :
    decode 0b1110_100_0_1_0_1_1_1101_0000001000100001 = .ldm .al .ia false true 13 0x0221 ∧
    decode 0b1110_100_1_0_1_0_0_1101_1000000000000001 = .stm .al .db true false 13 0x8001 := by decide

theorem test_decode_trap :
    decode 0b1110_1111_000100100011010001010110 = .swi .al 0x123456 ∧
    decode 0b1110_011_11111111000000001111_1_0000 = .und .al 0xFF00F 0 ∧
    decode 0b0000_1110_000100000000000000010000 = .cdpMcrMrc .eq 0x100010 ∧
    decode 0b1110_110_0100100000000000000000001 = .ldcStc .al 0x0900001 := by decide

theorem test_decode_word :
    decode 0b1110_01_1_1_1_0_0_1_0001_0000_00010_00_0_0010 = .ldr .al .offset true 1 0 (.reg 2 .lsl 2) ∧
    decode 0b1110_01_0_1_0_0_1_0_0001_0000_000000000100 = .str .al .preIndexed false 1 0 (.imm 4) ∧
    decode 0b1110_01_0_0_1_1_0_1_0001_0000_000000000001 = .ldrb .al .postIndexed true 1 0 (.imm 1) ∧
    decode 0b1110_01_0_1_1_1_0_0_0001_0000_000000000001 = .strb .al .offset true 1 0 (.imm 1) := by decide

theorem test_decode_user :
    decode 0b1110_01_0_0_1_0_1_1_0001_0000_000000000100 = .ldrt .al true 1 0 (.imm 4) ∧
    decode 0b1110_01_0_0_1_1_1_1_0001_0000_000000000001 = .ldrbt .al true 1 0 (.imm 1) ∧
    decode 0b1110_01_0_0_1_0_1_0_0001_0000_000000000100 = .strt .al true 1 0 (.imm 4) ∧
    decode 0b1110_01_0_0_0_1_1_0_0001_0000_000000000100 = .strbt .al false 1 0 (.imm 4) := by decide

theorem test_decode_swap :
    decode 0b1110_00010_0_00_0010_0000_00001001_0001 = .swp .al 2 0 1 ∧
    decode 0b1110_00010_1_00_0010_0000_00001001_0001 = .swpb .al 2 0 1 := by decide

theorem test_decode_multiply :
    decode 0b1110_00000_0_0_1_0000_0101_0010_1001_0001 = .mul .al false true 0 5 2 1 ∧
    decode 0b1110_00000_1_1_0_0000_0011_0010_1001_0001 = .mla .al true false 0 3 2 1 ∧
    decode 0b1110_00001_0_0_0_0001_0000_0011_1001_0010 = .umull .al false 1 0 3 2 ∧
    decode 0b1110_00001_0_1_1_0001_0000_0011_1001_0010 = .umlal .al true 1 0 3 2 ∧
    decode 0b1110_00001_1_0_0_0001_0000_0011_1001_0010 = .smull .al false 1 0 3 2 ∧
    decode 0b1110_00001_1_1_0_0001_0000_0011_1001_0010 = .smlal .al false 1 0 3 2 := by decide

theorem test_decode_halfReg :
    decode 0b1110_000_0_0_0_0_0_0001_0000_0000_1_01_1_0010 = .strhReg .al .postIndexed false 1 0 2 ∧
    decode 0b1110_000_1_1_0_0_1_0001_0000_0000_1_01_1_0010 = .ldrhReg .al .offset true 1 0 2 ∧
    decode 0b1110_000_1_1_0_1_1_0001_0000_0000_1_10_1_0010 = .ldrsbReg .al .preIndexed true 1 0 2 ∧
    decode 0b1110_000_0_0_0_1_1_0001_0000_0000_1_11_1_0010 = .ldrshReg .al .postIndexedW false 1 0 2 ∧
    decode 0b1110_000_1_1_0_0_0_0001_0000_0000_1_10_1_0010 = .reservedStoreSh10Reg .al .offset true 1 0 2 ∧
    decode 0b1110_000_1_1_0_0_0_0001_0000_0000_1_11_1_0010 = .reservedStoreSh11Reg .al .offset true 1 0 2 ∧
    decode 0b1110_000_1_1_0_0_1_0000_0000_0000_1_00_1_0000 = .reservedSh00Reg .al .offset true true 0 0 0 := by decide

theorem test_decode_halfImm :
    decode 0b1110_000_1_1_1_0_0_0001_0000_1111_1_01_1_1110 = .strhImm .al .offset true 1 0 0xFE ∧
    decode 0b1110_000_0_1_1_0_1_0001_0000_0000_1_01_1_0010 = .ldrhImm .al .postIndexed true 1 0 2 ∧
    decode 0b1110_000_1_0_1_1_1_0001_0000_0000_1_10_1_0011 = .ldrsbImm .al .preIndexed false 1 0 3 ∧
    decode 0b1110_000_1_1_1_0_1_0001_0000_0000_1_11_1_0110 = .ldrshImm .al .offset true 1 0 6 ∧
    decode 0b1110_000_1_1_1_0_0_0001_0000_0000_1_10_1_0000 = .reservedStoreSh10Imm .al .offset true 1 0 0 ∧
    decode 0b1110_000_1_1_1_0_0_0001_0000_0000_1_11_1_0000 = .reservedStoreSh11Imm .al .offset true 1 0 0 ∧
    decode 0b1110_000_1_1_1_0_1_0001_0000_0000_1_00_1_0000 = .reservedSh00Imm .al .offset true true 1 0 0 := by decide

theorem test_decode_psr :
    decode 0b1110_00010_1_001111_0000_000000000000 = .mrs .al true 0 0 ∧
    decode 0b1110_00010_0_10_1001_1111_00000011_0000 = .msrReg .al false 9 3 0 ∧
    decode 0b1110_00110_0_10_1000_1111_0010_00001111 = .msrImm .al false 8 2 15 := by decide

theorem test_decode_logical :
    decode 0b1110_00_0_0000_0_0001_0000_00010_00_0_0010 = .and .al false 1 0 (.shiftImm 2 .lsl 2) ∧
    decode 0b1110_00_0_0001_1_0001_0000_00010_01_0_0010 = .eor .al true 1 0 (.shiftImm 2 .lsr 2) ∧
    decode 0b1110_00_1_1000_1_0001_0000_0001_00000010 = .tst .al 1 0 (.imm 1 2) ∧
    decode 0b1110_00_0_1001_1_0001_0000_0011_0_11_1_0010 = .teq .al 1 0 (.shiftReg 3 false .ror 2) ∧
    decode 0b1110_00_0_1100_1_0001_0000_00000_00_0_0010 = .orr .al true 1 0 (.shiftImm 0 .lsl 2) ∧
    decode 0b1110_00_0_1101_0_0000_0000_0011_1_01_1_0001 = .mov .al false 0 0 (.shiftReg 3 true .lsr 1) ∧
    decode 0b1110_00_0_1110_1_0001_0000_00000_10_0_0010 = .bic .al true 1 0 (.shiftImm 0 .asr 2) ∧
    decode 0b1110_00_1_1111_1_0000_0000_0000_00000000 = .mvn .al true 0 0 (.imm 0 0) := by decide

theorem test_decode_arithmetic :
    decode 0b1110_00_1_0010_1_1110_1111_0000_00000100 = .sub .al true 14 15 (.imm 0 4) ∧
    decode 0b1110_00_1_0011_1_0001_0000_0000_00000000 = .rsb .al true 1 0 (.imm 0 0) ∧
    decode 0b1110_00_0_0100_0_0001_0000_0011_0_00_1_0010 = .add .al false 1 0 (.shiftReg 3 false .lsl 2) ∧
    decode 0b1110_00_0_0101_1_0001_0000_00000_00_0_0010 = .adc .al true 1 0 (.shiftImm 0 .lsl 2) ∧
    decode 0b1110_00_0_0110_1_0001_0000_00000_00_0_0010 = .sbc .al true 1 0 (.shiftImm 0 .lsl 2) ∧
    decode 0b1110_00_0_0111_1_0001_0000_00000_00_0_0010 = .rsc .al true 1 0 (.shiftImm 0 .lsl 2) ∧
    decode 0b1110_00_0_1010_1_0001_1111_00000_00_0_0010 = .cmp .al 1 15 (.shiftImm 0 .lsl 2) ∧
    decode 0b1110_00_0_1011_1_0001_0000_00000_11_0_0010 = .cmn .al 1 0 (.shiftImm 0 .ror 2) ∧
    decode 0b1110_00_1_1001_0_0000_0000_0000_00000000 = .reservedDp .al 1 0 0 (.imm 0 0) := by decide

/-- 95_test_vectors.md section 2.1: words a neighbouring row could take. -/
theorem test_classify_neighbours :
    classify 0xE12FFF3E = .registerToPsr ∧ classify 0xE6000010 = .undefined ∧ classify 0xE6000000 = .singleDataTransfer ∧
    classify 0xE1900090 = .halfwordTransferRegister ∧ classify 0xE3200000 = .dataProcessing ∧
    classify 0xE16F0F10 = .dataProcessing ∧ classify 0xED900000 = .undefined := by decide

/-- Three bytes are no instruction; four are, least significant byte first, and the rest is given back. -/
theorem test_decodeBytes :
    decodeBytes [0x1E, 0xFF, 0x2F] = .error .fewerThanFourBytes ∧
    decodeBytes [0x1E, 0xFF, 0x2F, 0xE1, 0x00] = .ok (.bx .al 14, [0x00]) := ⟨rfl, rfl⟩

theorem test_encode :
    encode (.ldr .al .offset true 1 0 (.imm 4)) = 0xE5910004 ∧ encode (.mov .al true 0 0 (.imm 4 0xFF)) = 0xE3B004FF ∧
    encode (.stm .al .db false true 13 0x0221) = 0xE92D0221 ∧ encode (.msrImm .al false 8 2 15) = 0xE328F20F := by decide

/-! ### Data processing (95_test_vectors.md section 2.4) -/

theorem test_and : (ran 0xE0110002 (machine 0x3000001F [(1, 0xFF00FF00), (2, 0x0FF00FF0)])).map r0Flags =
    some (0x0F000F00, 0b0011) := by decide
theorem test_eor : (ran 0xE0310002 (machine 0x1F [(1, 0xFFFFFFFF), (2, 0xFFFFFFFF)])).map r0Flags = some (0, 0b0100) := by
  decide
theorem test_sub : (ran 0xE0510002 (machine 0x1F [(1, 0x80000000), (2, 1)])).map r0Flags =
    some (0x7FFFFFFF, 0b0011) := by decide
theorem test_sub_borrow : (ran 0xE0510002 (machine 0x1F [(1, 0), (2, 1)])).map r0Flags =
    some (0xFFFFFFFF, 0b1000) := by decide
theorem test_rsb : (ran 0xE2710000 (machine 0x1F [(1, 0x80000000)])).map r0Flags = some (0x80000000, 0b1001) := by decide
theorem test_add : (ran 0xE0910002 (machine 0x1F [(1, 0x7FFFFFFF), (2, 1)])).map r0Flags =
    some (0x80000000, 0b1001) := by decide
theorem test_add_pc : (ran 0xE28F0004 (machine 0x1F [])).map r0Flags = some (0x10C, 0) := by decide
theorem test_adc : (ran 0xE0B10002 (machine 0x2000001F [(1, 0xFFFFFFFF)])).map r0Flags = some (0, 0b0110) := by decide
theorem test_sbc : (ran 0xE0D10002 (machine 0x1F [(1, 5), (2, 5)])).map r0Flags = some (0xFFFFFFFF, 0b1000) := by decide
theorem test_rsc : (ran 0xE0F10002 (machine 0x1F [(1, 1), (2, 3)])).map r0Flags = some (1, 0b0010) := by decide
theorem test_tst : (ran 0xE1110002 (machine 0x3000001F [(1, 0xF0), (2, 0x0F)])).map r0Flags = some (0, 0b0111) := by decide
theorem test_teq : (ran 0xE1310002 (machine 0x2000001F [(1, 0x55), (2, 0x55)])).map r0Flags = some (0, 0b0110) := by decide
theorem test_cmp : (ran 0xE1510002 (machine 0x1F [(1, 0x80000000), (2, 0x7FFFFFFF)])).map r0Flags =
    some (0, 0b0011) := by decide
theorem test_cmn : (ran 0xE1710002 (machine 0x1F [(1, 0x7FFFFFFF), (2, 1)])).map r0Flags = some (0, 0b1001) := by decide
theorem test_orr : (ran 0xE1910002 (machine 0x1F [(1, 0x80000000), (2, 1)])).map r0Flags =
    some (0x80000001, 0b1000) := by decide
theorem test_mov : (ran 0xE3B004FF (machine 0x1F [])).map r0Flags = some (0xFF000000, 0b1010) := by decide
theorem test_mov_shift : (ran 0xE1A003B1 (machine 0x1F [(1, 0x100), (3, 4)])).map r0Flags = some (0x10, 0) := by decide
theorem test_bic : (ran 0xE1D10002 (machine 0x1F [(1, 0xFFFFFFFF), (2, 0xFFFFFFFF)])).map r0Flags =
    some (0, 0b0100) := by decide
theorem test_mvn : (ran 0xE3F00000 (machine 0x2000001F [])).map r0Flags = some (0xFFFFFFFF, 0b1010) := by decide
theorem test_reservedDp : (ran 0xE3200000 (machine 0x1F [])).map (fun t => (t.pc, t.cpsr.toWord)) =
    some (0x10C, 0x1F) := by decide
theorem test_reservedDp_strict : refusedBy 0xE3200000 (strict (machine 0x1F [])) = some (.unpredictable .u3) := by decide
theorem test_movs_pc :
    (ran 0xE1B0F00E ((machine 0x80000093 [(14, 0x200)]).withSpsr .svc (Psr.ofWord 0x30000010))).map
      (fun t => (t.pc, t.cpsr.toWord)) = some (0x208, 0x30000010) := by decide
theorem test_movs_pc_user : refusedBy 0xE1B0F00E (machine 0x10 [(14, 0x200)]) = some .noSavedStatusRegister := by decide

/-! ### Branches (section 2.5) -/

theorem test_b : (ran 0xEAFFFFFE (machine 0x1F [])).map (fun t => (t.pc, t.calls)) =
    some (0x108, [.load .word 0x100 .nonSequential 0, .load .word 0x104 .sequential 0]) := by decide
theorem test_bl : (ran 0xEB00003E (machine 0x92 [(14, 0x2222)])).map
    (fun t => (readReg .irq 14 t, readReg .system 14 t, t.pc)) = some (0x104, 0, 0x208) := by decide
theorem test_bx : (ran 0xE12FFF1E (machine 0x1F [(14, 0x201)])).map (fun t => (t.cpsr.toWord, t.pc)) =
    some (0x3F, 0x200) := by decide

/-! ### Multiplies (section 2.6) -/

theorem test_mul : (ran 0xE0100291 (machine 0x3000001F [(1, 0xFFFFFFFF), (2, 1)])).map r0Flags =
    some (0xFFFFFFFF, 0b1011) := by decide
theorem test_mla : (ran 0xE0303291 (machine 0x3000001F [(1, 2), (2, 3), (3, 0xFFFFFFFA)])).map r0Flags =
    some (0, 0b0111) := by decide
theorem test_umull : (ran 0xE0910392 (machine 0x1F [(2, 0x80000000), (3, 0xFFFFFFFF)])).map r0r1 =
    some (0x80000000, 0x7FFFFFFF) := by decide
theorem test_umlal : (ran 0xE0B10392 (machine 0x1F [(0, 0xFFFFFFFF), (1, 0xFFFFFFFF), (2, 1), (3, 1)])).map
    (fun t => (r0r1 t, t.cpsr.flags)) = some ((0, 0), 0b0100) := by decide
theorem test_smull : (ran 0xE0D10392 (machine 0x3000001F [(2, 0x80000000), (3, 0x7FFFFFFF)])).map
    (fun t => (r0r1 t, t.cpsr.flags)) = some ((0x80000000, 0xC0000000), 0b1011) := by decide
theorem test_smlal : (ran 0xE0F10392 (machine 0x1F [(1, 0x80000000), (2, 0xFFFFFFFF), (3, 1)])).map r0r1 =
    some (0xFFFFFFFF, 0x7FFFFFFF) := by decide

/-! ### Word and byte transfers (section 2.7) -/

theorem test_ldr : (ran 0xE5910000 (machine 0x1F [(1, 0x1003)])).map r0r1 = some (0x33221144, 0x1003) := by decide
theorem test_ldr_preIndexed_same : (ran 0xE5B11004 (machine 0x1F [(1, 0x1000)])).map r0r1 = some (0, 0x88776655) := by
  decide
theorem test_ldrb : (ran 0xE5D10003 (machine 0x1F [(1, 0x1008)])).map r0r1 = some (0xCC, 0x1008) := by decide
theorem test_str : (ran 0xE5210004 (machine 0x1F [(0, 0xDEADBEEF), (1, 0x1008)])).map
    (fun t => (readReg .system 1 t, t.mem.read32 0x1004, t.mem.read32 0x1008)) =
    some (0x1004, 0xDEADBEEF, 0xCCBBAA99) := by decide
theorem test_str_pc : (ran 0xE581F000 (machine 0x1F [(1, 0x1000)])).map (fun t => t.mem.read32 0x1000) =
    some 0x10C := by decide
theorem test_strb : (ran 0xE5C10001 (machine 0x1F [(0, 0xDEADBEEF), (1, 0x1000)])).map (fun t => t.mem.read32 0x1000) =
    some 0x4433EF11 := by decide
theorem test_ldrt : (ran 0xE4B10004 (machine 0x1F [(1, 0x1000)])).map r0r1 = some (0x44332211, 0x1004) := by decide
theorem test_ldrbt : (ran 0xE4F10001 (machine 0x1F [(1, 0x100F)])).map r0r1 = some (0x7F, 0x1010) := by decide
theorem test_strt : (ran 0xE4A10004 (machine 0x1F [(0, 0xDEADBEEF), (1, 0x1000)])).map
    (fun t => (readReg .system 1 t, t.mem.read32 0x1000)) = some (0x1004, 0xDEADBEEF) := by decide
theorem test_strbt : (ran 0xE4E10004 (machine 0x1F [(0, 0x12345678), (1, 0x1001)])).map
    (fun t => (readReg .system 1 t, t.mem.read32 0x1000)) = some (0x1005, 0x44337811) := by decide

/-! ### Halfword transfers (section 2.8) -/

theorem test_ldrhReg : (ran 0xE19100B2 (machine 0x1F [(1, 0x1000), (2, 4)])).map r0r1 = some (0x6655, 0x1000) := by decide
theorem test_ldrhImm : (ran 0xE17100B2 (machine 0x1F [(1, 0x1008)])).map r0r1 = some (0x8877, 0x1006) := by decide
theorem test_ldrsbReg : (ran 0xE19100D2 (machine 0x1F [(1, 0x1000), (2, 7)])).map r0r1 = some (0xFFFFFF88, 0x1000) := by
  decide
theorem test_ldrsbImm : (ran 0xE1F100D2 (machine 0x1F [(1, 0x100C)])).map r0r1 = some (0xFFFFFF80, 0x100E) := by decide
theorem test_ldrshReg : (ran 0xE11100F2 (machine 0x1F [(1, 0x1010), (2, 2)])).map r0r1 = some (0x7F80, 0x1010) := by decide
theorem test_ldrshImm : (ran 0xE1D100F6 (machine 0x1F [(1, 0x1000)])).map r0r1 = some (0xFFFF8877, 0x1000) := by decide
theorem test_strhReg : (ran 0xE00100B2 (machine 0x1F [(0, 0x1234), (1, 0x1006), (2, 4)])).map
    (fun t => (readReg .system 1 t, t.mem.read32 0x1004)) = some (0x1002, 0x12346655) := by decide
theorem test_strhImm : (ran 0xE1C100B2 (machine 0x1F [(0, 0xDEADBEEF), (1, 0x1000)])).map (fun t => t.mem.read32 0x1000) =
    some 0xBEEF2211 := by decide
theorem test_odd_halfword : refusedBy 0xE1D100B1 (machine 0x1F [(1, 0x1000)]) = some .misalignedHalfword ∧
    refusedBy 0xE1C100B1 (machine 0x1F [(1, 0x1000)]) = some .misalignedHalfword := by decide
theorem test_reserved_halfword :
    ([0xE1D10090, 0xE1900090, 0xE1C100D0, 0xE1C100F0, 0xE18100D2, 0xE18100F2] : List Word).map
      (fun w => refusedBy w (machine 0x1F [(1, 0x1000)])) = List.replicate 6 (some .reservedHalfwordForm) := by decide

/-! ### Block transfers and swaps (sections 2.9, 2.10) -/

theorem test_ldm : (ran 0xE8BD0221 (machine 0x1F [(13, 0x1000)])).map
    (fun t => (readReg .system 0 t, readReg .system 5 t, readReg .system 9 t, readReg .system 13 t)) =
    some (0x44332211, 0x88776655, 0xCCBBAA99, 0x100C) := by decide
/-- `LDMIA R15!, {R0, R15}`: the write-back is the last write (47_block_data_transfer.md rule R269). -/
theorem test_ldm_base_pc : (ran 0xE8BF8001 (machine 0x1F [])).map (fun t => t.pc) = some 0x118 := by decide
theorem test_stm : (ran 0xE92D0221 (machine 0x1F [(0, 0xA0), (5, 0xA5), (9, 0xA9), (13, 0x1010)])).map
    (fun t => (t.mem.read32 0x1004, t.mem.read32 0x1008, t.mem.read32 0x100C, readReg .system 13 t)) =
    some (0xA0, 0xA5, 0xA9, 0x1004) := by decide
theorem test_block_force_user : refusedBy 0xE8FD0221 (machine 0x1F [(13, 0x1000)]) = some .unsupportedForceUser := by decide
theorem test_swp : (ran 0xE1020091 (machine 0x1F [(1, 0xDEADBEEF), (2, 0x1005)])).map
    (fun t => (readReg .system 0 t, t.mem.read32 0x1004)) = some (0x55887766, 0xDEADBEEF) := by decide
theorem test_swpb : (ran 0xE1420091 (machine 0x1F [(1, 0xDEADBEEF), (2, 0x1005)])).map
    (fun t => (readReg .system 0 t, t.mem.read32 0x1004)) = some (0x66, 0x8877EF55) := by decide

/-! ### Traps (section 2.11) -/

/-- CPSR, the SPSR and R14 of a mode, R15. -/
def entry (e : ExcMode) (t : State) : Word × Word × Word × Word :=
  (t.cpsr.toWord, (t.spsr.get e).toWord, readReg e.mode 14 t, t.pc)

theorem test_swi : (ran 0xEF000042 (machine 0x60000010 [])).map (entry .svc) =
    some (0x60000093, 0x60000010, 0x104, 0x10) := by decide
theorem test_und : (ran 0xE7F000F0 (machine 0x60000010 [])).map (entry .und) =
    some (0x6000009B, 0x60000010, 0x104, 0x0C) := by decide
theorem test_cdpMcrMrc : (ran 0xEE100F10 (machine 0x60000010 [])).map (entry .und) =
    some (0x6000009B, 0x60000010, 0x104, 0x0C) := by decide
theorem test_ldcStc : (ran 0xEC900000 (machine 0x60000010 [])).map (entry .und) =
    some (0x6000009B, 0x60000010, 0x104, 0x0C) := by decide

/-! ### Status-register transfer (section 2.12) -/

theorem test_mrs : (ran 0xE14F0000 ((machine 0x93 []).withSpsr .svc (Psr.ofWord 0x900000D0))).map
    (readReg .system 0) = some 0x900000D0 := by decide
theorem test_msrReg : (ran 0xE12FF000 (machine 0x1F [(0, 0xFFFFFFDF)])).map (fun t => t.cpsr.toWord) =
    some 0xF00000DF := by decide
theorem test_msrReg_refused :
    refusedBy 0xE129F000 (machine 0x10 [(0, 0xF0000010)]) = some .userModePrivilegedWrite ∧
    refusedBy 0xE121F000 (machine 0x1F [(0, 0x3F)]) = some .stateBitChangeByMsr ∧
    refusedBy 0xE121F000 (machine 0x1F [(0, 0x14)]) = some .invalidMode := by decide
theorem test_msrImm : (ran 0xE368F20F ((machine 0xD1 []).withSpsr .fiq (Psr.ofWord 0x10))).map
    (fun t => (t.spsr.fiq.toWord, t.cpsr.toWord)) = some (0xF0000010, 0xD1) := by decide

/-! ### Steps (sections 2.2, 2.13, 2.15) -/

theorem test_condition_fails : (ran 0x10810002 (machine 0x4000001F [(0, 0xAAAAAAAA), (1, 1), (2, 2)])).map
    (fun t => (readReg .system 0 t, t.pc, t.nextFetchKind)) = some (0xAAAAAAAA, 0x10C, .nonSequential) := by decide
theorem test_condition_reserved : refusedBy 0xF0810002 (strict (machine 0x1F [])) = some .reservedCondition := by decide
theorem test_step : (nextOf (step (atFetch 0xE3A00001 (machine 0x6000001F [])))).map
    (fun t => (readReg .system 0 t, t.pc, t.calls)) =
    some (1, 0x10C, [.load .word 0x108 .sequential 0]) := by decide
theorem test_step_irq :
    (nextOf (step (atFetch 0xE3A00001 { machine 0x6000005F [] with inputs := [⟨false, true, true⟩] }))).map
      (fun t => (entry .irq t, readReg .system 0 t)) = some ((0x600000D2, 0x6000005F, 0x104, 0x20), 0) := by decide
theorem test_step_fiq :
    (nextOf (step (atFetch 0xE3A00001 { machine 0x6000001F [] with inputs := [⟨false, true, true⟩] }))).map
      (entry .fiq) = some (0x600000D1, 0x6000001F, 0x104, 0x24) := by decide
theorem test_step_masked :
    (nextOf (step (atFetch 0xE3A00001 { machine 0x600000DF [] with inputs := [⟨false, true, true⟩] }))).map
      (readReg .system 0) = some 1 := by decide
theorem test_step_reset :
    (nextOf (step { machine 0xF000003F [(1, 7)] with inputs := [⟨true, true, true⟩] })).map
      (fun t => (t.cpsr.m, t.cpsr.i, t.cpsr.f, t.cpsr.t, t.pc, readReg .system 1 t)) =
      some (0b10011, true, true, false, 8, 7) := by decide
/-- An instruction placed after reset is the one the first step runs. -/
theorem test_withFetchWord :
    (nextOf (step (State.reset.withFetchWord 32 0xE3A00001))).map (fun t => (readReg .system 0 t, t.mem.read32 0)) =
    some (1, 0xE3A00001) := by decide
theorem test_decodeTableWord : decodeTableWord 32 0xE12FFF1E = some (.bx .al 14) ∧ decodeTableWord 64 0 = none := by decide

/-! ### Cases that meet the hypotheses of the statements

One theorem for each statement that has hypotheses, on one small state: System mode, ARM state, under the arguments the
model resets to (`sample`) and under the default arguments of the spec (`strict sample`). -/

/-- The state of the cases. -/
def sample : State :=
  machine 0x1F [(0, 0xDEADBEEF), (1, 0x1004), (2, 2), (3, 3), (13, 0x1000), (14, 0x200)]

/-- The same in Supervisor mode, with a saved User-mode status. -/
def sampleSvc : State := (machine 0x93 [(0, 0x10), (14, 0x201)]).withSpsr .svc (Psr.ofWord 0x10)

theorem ready_sample : Ready .al .system sample ∧ Ready .al .system (strict sample) :=
  ⟨⟨rfl, rfl, rfl⟩, ⟨rfl, rfl, rfl⟩⟩

theorem ready_svc : Ready .al .supervisor sampleSvc ∧ Ready .al .supervisor (strict sampleSvc) :=
  ⟨⟨rfl, rfl, rfl⟩, ⟨rfl, rfl, rfl⟩⟩

theorem ready_user : Ready .ne .user (machine 0x10 []) := ⟨rfl, rfl, rfl⟩

/-- 95_test_vectors.md section 2.3: each clause of the shifter at the ends of its range (1, 31, 32, 33, 255 places). -/
theorem case_BarrelShifter :
    (1 ≤ 31 ∧ 31 ≤ 32 ∧ 31 < 32 ∧ shiftBy .lsl 3 31 = (0x80000000, true) ∧ shiftBy .lsr 0x80000000 31 = (1, false)
      ∧ shiftBy .asr 0x80000000 31 = (0xFFFFFFFF, false) ∧ shiftBy .ror 0x80000001 31 = (3, false)) ∧
    (1 ≤ 32 ∧ 32 ≤ 32 ∧ shiftBy .lsl 1 32 = (0, true) ∧ shiftBy .lsr 0x80000000 32 = (0, true)
      ∧ shiftBy .asr 0x80000001 32 = (0xFFFFFFFF, true) ∧ shiftBy .ror 0x80000001 32 = (0x80000001, true)) ∧
    (1 ≤ 33 ∧ 32 < 33 ∧ shiftBy .lsl 0xFFFFFFFF 33 = (0, false) ∧ shiftBy .lsr 0xFFFFFFFF 33 = (0, false)
      ∧ shiftBy .asr 0x80000000 33 = (0xFFFFFFFF, true) ∧ shiftBy .ror 3 33 = (0x80000001, true)) ∧
    shiftBy .lsl 0x80000001 1 = (2, true) ∧ shiftBy .asr 0x7FFFFFFF 255 = (0, false) ∧
    shiftRrx 2 true = (0x80000001, false) := by decide

/-- Amounts 0 and not 0, rotations 0 and not 0. -/
theorem case_ShiftAmountsAndImmediates :
    (1 : BitVec 5) ≠ 0 ∧ (0x100 : Word).toNat % 256 = 0 ∧ (0x101 : Word).toNat % 256 ≠ 0 ∧ (0 : Nat) < 32 ∧ 31 < 32 ∧
    shiftByReg .lsl 0x80000001 0x100 true = (0x80000001, true) ∧ shiftByReg .lsl 0x80000001 0x101 false = (2, true) ∧
    immOperand 4 0xFF false = (0xFF000000, true) ∧ immOperand 0 0xFF true = (0xFF, true) := by decide

theorem case_AluOperationTable :
    AluOp.and ∈ [AluOp.and, .eor, .tst, .teq, .orr, .mov, .bic, .mvn] ∧ AluOp.cmn ∈ [AluOp.add, .cmn] ∧
    AluOp.cmp ∈ [AluOp.sub, .cmp] := by decide

/-- The two ends of the banked range. -/
theorem case_BanksDoNotMix : 8 ≤ (8 : Reg).toNat ∧ (8 : Reg).toNat ≤ 14 ∧ 8 ≤ (14 : Reg).toNat ∧ (14 : Reg).toNat ≤ 14 := by
  decide

/-- An address outside the bytes a store writes, at both ends, across the top of the address space. -/
theorem case_LittleEndianMemory :
    (∀ i : Nat, i < 4 → (0x1FFF : Word) ≠ 0x2000 + BitVec.ofNat 32 i) ∧
    (∀ i : Nat, i < 4 → (2 : Word) ≠ 0xFFFFFFFE + BitVec.ofNat 32 i) ∧
    (∀ i : Nat, i < 2 → (0 : Word) ≠ 0xFFFFFFFE + BitVec.ofNat 32 i) := by decide

/-- Two ways to one canonical memory. -/
theorem case_MemoryFormIsCanonical :
    Memory.wf image = true ∧ ((Memory.write8 image 0x2000 1).write8 0x2000 0).wf = true ∧
    (Memory.write8 image 0x2000 1).write8 0x2000 0 = image := by decide

theorem case_MisalignedWordLoadRotates : (0 : Nat) < 4 ∧ 3 < 4 ∧ (loadRotated 0x1003 .nonSequential sample).1 = 0x33221144 := by
  decide

theorem case_FlushRefillsThePipeline : sample.cpsr.t = false ∧ (machine 0x3F []).cpsr.t = true := by decide

theorem case_FailedConditionOnlyAdvances :
    Mode.ofBits (machine 0x4000001F []).cpsr.m = some .system ∧ (decode 0x10810002).cond ≠ .nv ∧
    condPassed (decode 0x10810002).cond (machine 0x4000001F []).cpsr = false := by decide

/-- The reserved condition under both policies. -/
theorem case_ReservedConditionPolicy :
    Mode.ofBits sample.cpsr.m = some .system ∧ (decode 0xF0810002).cond = .nv ∧
    sample.params.condNvPolicy = .never ∧ (strict sample).params.condNvPolicy = .refuse := by decide

theorem case_StepRunsTheDecodedInstruction :
    sample.nextInput.reset = false ∧ Mode.ofBits sample.cpsr.m = some .system ∧ sample.cpsr.t = false ∧
    sampleInterrupts sample.nextInput sample.cpsr = none ∧
    decode (atFetch 0xE3A00001 sample).pipe0 = .mov .al false 0 0 (.imm 0 1) := by decide

/-- No mode, and Thumb state. -/
theorem case_StepEntryChecks :
    (machine 0x14 []).nextInput.reset = false ∧ Mode.ofBits (machine 0x14 []).cpsr.m = none ∧
    (machine 0x3F []).nextInput.reset = false ∧ Mode.ofBits (machine 0x3F []).cpsr.m = some .system ∧
    (machine 0x3F []).cpsr.t = true := by decide

/-- FIQ and IRQ together, IRQ with FIQ masked, both masked. -/
theorem case_InterruptSampling :
    let both : List StepInput := [⟨false, true, true⟩]
    let a := { machine 0x1F [] with inputs := both }
    let b := { machine 0x5F [] with inputs := both }
    let c := { machine 0xDF [] with inputs := both }
    (a.nextInput.reset = false ∧ Mode.ofBits a.cpsr.m = some .system ∧ a.cpsr.t = false ∧
      a.nextInput.fiq = true ∧ a.cpsr.f = false) ∧
    (b.nextInput.fiq = true ∧ b.cpsr.f = true ∧ b.nextInput.irq = true ∧ b.cpsr.i = false ∧ b.cpsr.t = false) ∧
    (c.cpsr.f = true ∧ c.cpsr.i = true ∧ Mode.ofBits c.cpsr.m = some .system ∧ c.cpsr.t = false) := by decide

theorem case_ResetOperation :
    (State.nextInput { sample with inputs := [⟨true, false, false⟩] }).reset = true ∧ ExcMode.fiq ≠ .svc := by decide

/-- `MOVS PC, R14`: in a mode with no SPSR; with a saved mode that is none; with ARM state and with Thumb state saved. -/
theorem case_ExceptionReturn :
    (AluOp.isCompare .mov = false ∧ pcInRegisterShift (AluOp.readsRn .mov) 0 (.shiftImm 0 .lsl 14) = false ∧
      Allows (reservedBit7 (.shiftImm 0 .lsl 14)) (strict sample)) ∧
    (Ready .al .system sample ∧ Mode.excMode .system = none) ∧
    (Ready .al .supervisor (machine 0x93 []) ∧ Mode.excMode .supervisor = some .svc ∧
      Mode.ofBits ((machine 0x93 []).spsr.get .svc).m = none) ∧
    (Ready .al .supervisor sampleSvc ∧ (Mode.ofBits (sampleSvc.spsr.get .svc).m).isSome = true ∧
      (sampleSvc.spsr.get .svc).t = false) ∧
    Ready .al .supervisor (sampleSvc.withSpsr .svc (Psr.ofWord 0x30)) ∧
      (Mode.ofBits ((sampleSvc.withSpsr .svc (Psr.ofWord 0x30)).spsr.get .svc).m).isSome = true ∧
      ((sampleSvc.withSpsr .svc (Psr.ofWord 0x30)).spsr.get .svc).t = true :=
  ⟨⟨rfl, rfl, .inl rfl⟩, ⟨ready_sample.1, rfl⟩, ⟨⟨rfl, rfl, rfl⟩, rfl, rfl⟩, ⟨ready_svc.1, rfl, rfl⟩, ⟨rfl, rfl, rfl⟩, rfl, rfl⟩

/-- The state right after entry, for a trap and for an interrupt taken in System mode, and where the return leads. -/
theorem case_HandlersReturn :
    Mode.ofBits sample.cpsr.m = some .system ∧ sample.cpsr.t = false ∧ sample.pc.extractLsb' 0 2 = 0 ∧
    (∀ x ∈ [Exc.swi, .undefined, .irq, .fiq], ∃ v : State,
      v.cpsr.m = (takeException x (sample.pc - 4) sample).cpsr.m ∧ v.cpsr.t = false ∧
      v.spsr.get x.mode = (takeException x (sample.pc - 4) sample).spsr.get x.mode ∧
      readReg x.mode.mode 14 v = readReg x.mode.mode 14 (takeException x (sample.pc - 4) sample)) ∧
    (ran 0xE1B0F00E (takeException .swi (sample.pc - 4) sample)).map (fun t => (t.cpsr.toWord, t.pc)) = some (0x1F, 0x10C) ∧
    (ran 0xE25EF004 (takeException .fiq (sample.pc - 4) sample)).map (fun t => (t.cpsr.toWord, t.pc)) =
      some (0x1F, 0x108) := by
  refine ⟨by decide, by decide, by decide, fun x hx => ⟨takeException x (sample.pc - 4) sample, rfl, ?_, rfl, rfl⟩,
    by decide, by decide⟩
  fin_cases hx <;> decide

theorem case_TrapsEnterTheirHandler : Ready .ne .user (machine 0x10 []) ∧ Ready .al .supervisor sampleSvc :=
  ⟨ready_user, ready_svc.1⟩

/-- Every operand form with no refusal, under the strict arguments too; the reserved bit 7 under the others. -/
theorem case_DataProcessingToRegister :
    Ready .al .system (strict sample) ∧ Ready .al .system sample ∧ AluOp.isCompare .add = false ∧
    AluOp.isCompare .mov = false ∧ (0 : Reg) ≠ 15 ∧
    pcInRegisterShift (AluOp.readsRn .add) 15 (.imm 0 4) = false ∧ Allows (reservedBit7 (.imm 0 4)) (strict sample) ∧
    pcInRegisterShift (AluOp.readsRn .mov) 15 (.shiftReg 3 false .lsl 2) = false ∧
    Allows (reservedBit7 (.shiftReg 3 false .lsl 2)) (strict sample) ∧
    Allows (reservedBit7 (.shiftReg 3 true .lsl 2)) sample :=
  ⟨ready_sample.2, ready_sample.1, rfl, rfl, by decide, rfl, .inl rfl, rfl, .inl rfl, .inr rfl⟩

theorem case_ComparisonsWriteFlagsOnly :
    Ready .al .system (strict sample) ∧ Ready .al .system sample ∧ AluOp.tst ∈ [AluOp.tst, .teq, .cmp, .cmn] ∧
    pcInRegisterShift true 1 (.shiftReg 3 false .lsl 2) = false ∧
    Allows (reservedBit7 (.shiftReg 3 false .lsl 2)) (strict sample) ∧
    Allows (reservedBit7 (.shiftReg 3 false .lsl 2)) sample ∧ Allows ((0 : Reg) == 15) (strict sample) ∧
    Allows ((15 : Reg) == 15) sample :=
  ⟨ready_sample.2, ready_sample.1, by decide, rfl, .inl rfl, .inl rfl, .inl rfl, .inr rfl⟩

theorem case_DataProcessingToPc :
    AluOp.isCompare .sub = false ∧ Ready .al .system (strict sample) ∧
    pcInRegisterShift (AluOp.readsRn .sub) 14 (.imm 0 4) = false ∧ Allows (reservedBit7 (.imm 0 4)) (strict sample) :=
  ⟨rfl, ready_sample.2, rfl, .inl rfl⟩

/-- R15 in each of the three places (95_test_vectors.md section 2.4). -/
theorem case_PcInRegisterShiftIsRefused :
    Ready .al .system sample ∧
    ([0xE1A0031F, 0xE1A00F11, 0xE08F0311] : List Word).map (fun w => refusedBy w sample) =
      List.replicate 3 (some .pcInRegisterShift) ∧ AluOp.add ≠ .mov ∧ AluOp.add ≠ .mvn :=
  ⟨ready_sample.1, by decide, by decide, by decide⟩

theorem case_ReservedDataProcessingAdvances :
    Ready .al .system sample ∧ sample.params.strictUnpredictable = false := ⟨ready_sample.1, rfl⟩

theorem case_BranchesReachTheirTarget : Ready .al .system sample ∧ Ready .ne .user (machine 0x10 []) :=
  ⟨ready_sample.1, ready_user⟩

/-- Both states BX can enter: R14 = 0x200 and, in Supervisor mode, R14 = 0x201. -/
theorem case_BranchAndExchange :
    (Ready .al .system (strict sample) ∧
      Allows ((14 : Reg) == 15 || (readReg .system 14 (strict sample)).extractLsb' 0 2 == 0b10#2) (strict sample) ∧
      (readReg .system 14 (strict sample)).getLsbD 0 = false) ∧
    Ready .al .supervisor (strict sampleSvc) ∧
      Allows ((14 : Reg) == 15 || (readReg .supervisor 14 (strict sampleSvc)).extractLsb' 0 2 == 0b10#2)
        (strict sampleSvc) ∧
      (readReg .supervisor 14 (strict sampleSvc)).getLsbD 0 = true :=
  ⟨⟨ready_sample.2, .inl rfl, rfl⟩, ready_svc.2, .inl rfl, rfl⟩

theorem case_MultiplyAndAccumulate :
    (Ready .al .system (strict sample) ∧ Allows false (strict sample) ∧
      Allows ((0 : Reg) == 1 || (0 : Reg) == 15 || (1 : Reg) == 15 || (2 : Reg) == 15) (strict sample) ∧
      Allows ((0 : Reg) == 1 || (0 : Reg) == 15 || (1 : Reg) == 15 || (2 : Reg) == 15 || (3 : Reg) == 15)
        (strict sample)) ∧
    Ready .al .system sample ∧ Allows true sample ∧
      Allows ((0 : Reg) == 0 || (0 : Reg) == 15 || (0 : Reg) == 15 || (2 : Reg) == 15) sample :=
  ⟨⟨ready_sample.2, .inl rfl, .inl rfl, .inl rfl⟩, ready_sample.1, .inr rfl, .inr rfl⟩

theorem case_LongMultiplies :
    Ready .al .system (strict sample) ∧
    Allows ((1 : Reg) == 0 || (2 : Reg) == 1 || (2 : Reg) == 0 || (1 : Reg) == 15 || (0 : Reg) == 15 || (3 : Reg) == 15
      || (2 : Reg) == 15) (strict sample) := ⟨ready_sample.2, .inl rfl⟩

/-- Loads pre-indexed and post-indexed, a load of R15, and, where the arguments allow it, a base that is Rd. -/
theorem case_WordAndByteLoads :
    (Ready .al .system (strict sample) ∧
      Allows (unpredictableU8 .preIndexed 1 0 (sdtOffsetReg (.reg 2 .lsl 2))) (strict sample) ∧
      Allows (unpredictableU8 .postIndexed 1 0 (sdtOffsetReg (.reg 2 .lsl 2))) (strict sample) ∧
      Allows ((0 : Reg) == 15) (strict sample)) ∧
    Allows (unpredictableU8 .offset 1 15 (sdtOffsetReg (.imm 4))) (strict sample) ∧
    Ready .al .system sample ∧ Allows (unpredictableU8 .preIndexed 1 1 (sdtOffsetReg (.imm 4))) sample ∧
    Allows ((15 : Reg) == 15) sample :=
  ⟨⟨ready_sample.2, .inl rfl, .inl rfl, .inl rfl⟩, .inl rfl, ready_sample.1, .inr rfl, .inr rfl⟩

/-- Stores likewise; a store of R15. -/
theorem case_WordAndByteStores :
    (Ready .al .system (strict sample) ∧
      Allows (unpredictableU8 .preIndexed 1 0 (sdtOffsetReg (.imm 4))) (strict sample) ∧
      Allows (unpredictableU8 .postIndexed 1 0 (sdtOffsetReg (.imm 4))) (strict sample) ∧
      Allows ((0 : Reg) == 15) (strict sample)) ∧
    Allows (unpredictableU8 .offset 1 15 (sdtOffsetReg (.imm 4))) (strict sample) ∧
    Ready .al .system sample ∧ Allows (unpredictableU8 .preIndexed 15 15 (sdtOffsetReg (.imm 4))) sample ∧
    Allows ((15 : Reg) == 15) sample :=
  ⟨⟨ready_sample.2, .inl rfl, .inl rfl, .inl rfl⟩, .inl rfl, ready_sample.1, .inr rfl, .inr rfl⟩

/-- An even address by register and by immediate (R1 = 0x1004, R2 = 2). -/
theorem case_HalfwordAndSignedLoads :
    Ready .al .system (strict sample) ∧
    Allows (Indexing.preIndexed == .postIndexedW || (0 : Reg) == 15) (strict sample) ∧
    Allows (unpredictableU8 .preIndexed 1 0 (some 2)) (strict sample) ∧
    oddAddress .preIndexed true 1 (readReg .system 2 (strict sample)) .system (strict sample) = false ∧
    Allows (unpredictableU8 .preIndexed 1 0 none) (strict sample) ∧
    oddAddress .preIndexed true 1 ((2 : BitVec 8).setWidth 32) .system (strict sample) = false :=
  ⟨ready_sample.2, .inl rfl, .inl rfl, rfl, .inl rfl, rfl⟩

/-- The same, and a store of R15 where the arguments allow it. -/
theorem case_HalfwordStores :
    (Ready .al .system (strict sample) ∧
      Allows (Indexing.preIndexed == .postIndexedW || (0 : Reg) == 15) (strict sample) ∧
      Allows (unpredictableU8 .preIndexed 1 0 (some 2)) (strict sample) ∧
      oddAddress .preIndexed true 1 (readReg .system 2 (strict sample)) .system (strict sample) = false ∧
      Allows (unpredictableU8 .preIndexed 1 0 none) (strict sample) ∧
      oddAddress .preIndexed true 1 ((2 : BitVec 8).setWidth 32) .system (strict sample) = false) ∧
    Ready .al .system sample ∧ Allows (Indexing.offset == .postIndexedW || (15 : Reg) == 15) sample ∧
      Allows (unpredictableU8 .offset 1 15 none) sample ∧
      oddAddress .offset true 1 ((2 : BitVec 8).setWidth 32) .system sample = false :=
  ⟨⟨ready_sample.2, .inl rfl, .inl rfl, rfl, .inl rfl, rfl⟩, ready_sample.1, .inr rfl, .inl rfl, rfl⟩

/-- An odd address by register and by immediate (R3 = 3). -/
theorem case_OddHalfwordAddressIsRefused :
    Ready .al .system (strict sample) ∧
    Allows (Indexing.preIndexed == .postIndexedW || (0 : Reg) == 15) (strict sample) ∧
    Allows (unpredictableU8 .preIndexed 1 0 (some 3)) (strict sample) ∧
    oddAddress .preIndexed true 1 (readReg .system 3 (strict sample)) .system (strict sample) = true ∧
    Allows (unpredictableU8 .preIndexed 1 0 none) (strict sample) ∧
    oddAddress .preIndexed true 1 ((1 : BitVec 8).setWidth 32) .system (strict sample) = true :=
  ⟨ready_sample.2, .inl rfl, .inl rfl, rfl, .inl rfl, rfl⟩

theorem case_ReservedHalfwordFormsAreRefused :
    Ready .al .system sample ∧ Ready .al .system (strict sample) ∧ Ready .ne .user (machine 0x10 []) :=
  ⟨ready_sample.1, ready_sample.2, ready_user⟩

/-- A list without the base, R15 in it, under the strict arguments; the empty list, the base in the list and R15 as base
under the others. -/
theorem case_LoadMultiple :
    (Ready .al .system (strict sample) ∧ Allows ((0x8221 : BitVec 16) == 0) (strict sample) ∧
      Allows (true && (0x8221 : BitVec 16).getLsbD (13 : Reg).toNat) (strict sample) ∧
      Allows ((13 : Reg) == 15) (strict sample)) ∧
    Ready .al .system sample ∧ Allows ((0 : BitVec 16) == 0) sample ∧
      Allows (true && (0x8000 : BitVec 16).getLsbD (15 : Reg).toNat) sample ∧ Allows ((15 : Reg) == 15) sample :=
  ⟨⟨ready_sample.2, .inl rfl, .inl rfl, .inl rfl⟩, ready_sample.1, .inr rfl, .inr rfl, .inr rfl⟩

/-- The same for STM, in User mode. -/
theorem case_StoreMultiple :
    Ready .ne .user (machine 0x10 []) ∧ Allows ((0xE000 : BitVec 16) == 0) (machine 0x10 []) ∧
    Allows (true && (0xE000 : BitVec 16).getLsbD (13 : Reg).toNat) (machine 0x10 []) ∧
    Allows ((13 : Reg) == 15) (machine 0x10 []) := ⟨ready_user, .inl rfl, .inr rfl, .inl rfl⟩

theorem case_ForceUserBitIsRefused : Ready .al .supervisor sampleSvc ∧ Ready .ne .user (machine 0x10 []) :=
  ⟨ready_svc.1, ready_user⟩

theorem case_SwapsReadThenWrite :
    Ready .al .system (strict sample) ∧
    Allows ((2 : Reg) == 15 || (0 : Reg) == 15 || (1 : Reg) == 15 || (2 : Reg) == 0 || (2 : Reg) == 1) (strict sample) :=
  ⟨ready_sample.2, .inl rfl⟩

/-- A mode without an SPSR and one with it. -/
theorem case_MrsCopiesTheStatusRegister :
    (Ready .al .system (strict sample) ∧ Allows ((0 : Reg) == 15 || (0 : BitVec 12) != 0) (strict sample) ∧
      Mode.excMode .system = none) ∧
    Ready .al .supervisor (strict sampleSvc) ∧
      Allows ((0 : Reg) == 15 || (0 : BitVec 12) != 0) (strict sampleSvc) ∧ Mode.excMode .supervisor = some .svc :=
  ⟨⟨ready_sample.2, .inl rfl, rfl⟩, ready_svc.2, .inl rfl, rfl⟩

theorem case_MsrWritesSpsr :
    (Ready .al .system (strict sample) ∧ Allows ((0 : Reg) == 15 || (0 : BitVec 8) != 0) (strict sample) ∧
      Mode.excMode .system = none) ∧
    Ready .al .supervisor (strict sampleSvc) ∧
      Allows ((0 : Reg) == 15 || (0 : BitVec 8) != 0) (strict sampleSvc) ∧ Mode.excMode .supervisor = some .svc :=
  ⟨⟨ready_sample.2, .inl rfl, rfl⟩, ready_svc.2, .inl rfl, rfl⟩

/-- Each case of a write of CPSR: User mode, T, no mode, a valid write, and no control byte at all. -/
theorem case_MsrWritesCpsr :
    ((9 : BitVec 4).getLsbD 0 = true ∧ Ready .ne .user (machine 0x10 [])) ∧
    (Ready .al .supervisor (strict sampleSvc) ∧ Mode.supervisor ≠ .user ∧
      Allows ((0 : Reg) == 15 || (0 : BitVec 8) != 0) (strict sampleSvc)) ∧
    (0x3F : Word).getLsbD 5 = true ∧
    ((0x14 : Word).getLsbD 5 = false ∧ Mode.ofBits ((0x14 : Word).extractLsb' 0 5) = none) ∧
    ((0xF00000D3 : Word).getLsbD 5 = false ∧ (Mode.ofBits ((0xF00000D3 : Word).extractLsb' 0 5)).isSome = true) ∧
    (8 : BitVec 4).getLsbD 0 = false :=
  ⟨⟨rfl, ready_user⟩, ⟨ready_svc.2, by decide, .inl rfl⟩, rfl, ⟨rfl, rfl⟩, ⟨rfl, rfl⟩, rfl⟩

/-- One form of each of the fifteen classes, with the premises of its clause. -/
theorem case_UnpredictableFormsAreRefused :
    Ready .al .system (strict sample) ∧ (strict sample).params.strictUnpredictable = true ∧
    ([0xE0400291, 0xE1A00391, 0xE3200000, 0xE12FFF1F, 0xE89D0000, 0xE8BD2000, 0xE89F0001, 0xE5B11004, 0xE0F100B2, 0xE1000091,
      0xE0000190, 0xE10F0001, 0xE129F030, 0xE5D1F000, 0xE151F002] : List Word).map (fun w => refusedBy w (strict sample)) =
    [ClassU.u1, .u2, .u3, .u4, .u5, .u6, .u7, .u8, .u9, .u10, .u11, .u12, .u13, .u14, .u15].map
      (fun u => some (.unpredictable u)) :=
  ⟨ready_sample.2, rfl, by decide⟩

/-- A step from User mode that stays there, and one that leaves it. -/
theorem case_UserModeIsLeftOnlyByExceptions :
    Mode.ofBits (atFetch 0xEF000000 (machine 0x10 [])).cpsr.m = some .user ∧
    (nextOf (step (atFetch 0xE3A00001 (machine 0x10 [])))).map (fun t => Mode.ofBits t.cpsr.m) = some (some .user) ∧
    (nextOf (step (atFetch 0xEF000000 (machine 0x10 [])))).map (fun t => (Mode.ofBits t.cpsr.m, t.pc)) =
      some (some .supervisor, 0x10) := by decide

/-- I changed by a trap and by MSR, T by BX and by a return. -/
theorem case_ControlBitsChangeOnlyAsListed :
    (ran 0xEF000000 (machine 0x10 [])).map (fun t => t.cpsr.i) = some true ∧
    (ran 0xE321F0D3 sample).map (fun t => (t.cpsr.i, t.cpsr.f)) = some (true, true) ∧
    (ran 0xE12FFF1E sampleSvc).map (fun t => t.cpsr.t) = some true ∧
    (ran 0xE1B0F00E (sampleSvc.withSpsr .svc (Psr.ofWord 0x30))).map (fun t => t.cpsr.t) = some true := by decide

theorem case_FlagsChangeOnlyAsListed :
    (decode 0xE0810002).setsFlags = false ∧ (decode 0xE0810002).restores = false ∧ (decode 0xE0810002).writesPsr = false ∧
    (ran 0xE0810002 (machine 0xF000001F [(1, 0xFFFFFFFF), (2, 1)])).map r0Flags = some (0, 0b1111) := by decide

/-- An SPSR changed by entry and by MSR. -/
theorem case_SavedStatusChangesOnlyAsListed :
    (ran 0xEF000000 sample).map (fun t => (t.spsr.get .svc).toWord) = some 0x1F ∧ (sample.spsr.get .svc).toWord = 0 ∧
    (ran 0xE161F000 (writeReg .supervisor 0 0x1F sampleSvc)).map (fun t => (t.spsr.get .svc).toWord) = some 0x1F ∧
    (sampleSvc.spsr.get .svc).toWord = 0x10 := by decide

theorem case_MemoryChangesOnlyByStores :
    (decode 0xE5910000).stores = false ∧ (ran 0xE5910000 sample).map (fun t => t.mem) = some image := by decide

/-- A banked register of another mode, and the traps' own link registers. -/
theorem case_OtherBanksAreOutOfReach :
    (∀ j : Reg, PhysReg.r13Svc ≠ phys j .system) ∧ (∀ j : Reg, PhysReg.r8Fiq ≠ phys j .system) ∧
    (decode 0xEF000000).traps = true ∧ PhysReg.r13Svc ≠ .r14Svc ∧ PhysReg.r13Svc ≠ .r14Und ∧
    (ran 0xEF000000 sample).isSome = true := by decide

/-- A step that moves on and a step that refills, both in ARM state. -/
theorem case_PipelineAfterEveryStep :
    (nextOf (step (atFetch 0xE3A00001 sample))).map (fun t => (t.cpsr.t, t.pc)) = some (false, 0x10C) ∧
    (nextOf (step (atFetch 0xEAFFFFFE sample))).map (fun t => (t.cpsr.t, t.pc)) = some (false, 0x108) := by decide

/-- A step that executes a load and a step that takes an interrupt. -/
theorem case_StepCallsBeginWithTheFetch :
    (nextOf (step (atFetch 0xE5910000 sample))).map (fun t => t.calls) =
      some [.load .word 0x108 .sequential 0, .load .word 0x1004 .nonSequential 0x88776655] ∧
    (nextOf (step { sample with inputs := [⟨false, false, true⟩] })).map (fun t => t.calls) =
      some (refillCalls image 0x18) := by decide

theorem case_EveryStepKeepsTheInvariant :
    (atFetch 0xE3A00001 sample).Inv ∧ (nextOf (step (atFetch 0xE3A00001 sample))).isSome = true := ⟨⟨rfl, rfl, rfl⟩, rfl⟩

theorem case_DecodeOfEncode :
    Instr.wellFormed (.mov .al false 1 0 (.shiftReg 3 true .lsl 2)) = true ∧
    Instr.wellFormed (.reservedSh00Reg .al .offset true true 0 0 0) = true := by decide

theorem case_DecoderIsTotal :
    (0xE0810002 : Word) &&& 0x0FFFFFF0 = (0x1081000F : Word) &&& 0x0FFFFFF0 ∧
    (0xEE000000 : Word) &&& 0x0C000000 = 0x0C000000 ∧ (0xEE000000 : Word) &&& 0x0F000000 ≠ 0x0F000000 := by decide

end Sys2Proof.Tests
end

section
/-!
PROOFS. Class U with `STRICT_UNPREDICTABLE` (00_scope.md rule R8): an instruction whose condition passes is refused under
the number of the first class U form its operands are of.
-/

namespace Sys2Proof.Machine

/-! ### The first and the second test behind the gate -/

/-- Of the form tested first. -/
theorem gate_unlessStrict_first {c : Cond} {md : Mode} {s : State} {u : ClassU} {f : Mode → Bool} {k : Mode → Result}
    (hr : Ready c md s) (hs : s.params.strictUnpredictable = true) (hf : f md = true) :
    gate c s (fun m => unlessStrict u (f m) s (k m)) = .refused (.unpredictable u) :=
  (gate_ready hr _).trans (unlessStrict_refused _ hs hf)

/-- Not of the form tested first, of the form tested second. -/
theorem gate_unlessStrict_second {c : Cond} {md : Mode} {s : State} {u v : ClassU} {f g : Mode → Bool}
    {k : Mode → Result} (hr : Ready c md s) (hs : s.params.strictUnpredictable = true) (hf : f md = false)
    (hg : g md = true) :
    gate c s (fun m => unlessStrict u (f m) s (unlessStrict v (g m) s (k m))) = .refused (.unpredictable v) :=
  (gate_ready hr _).trans ((unlessStrict_allowed _ (.inr hf)).trans (unlessStrict_refused _ hs hg))

/-! ### The model's tests of operands, as the table of class U words them -/

theorem writesBack_iff (ix : Indexing) : writesBack ix = true ↔ ix.p = false ∨ ix.w = true := by
  cases ix <;> decide

theorem unpredictableU8_iff {ix : Indexing} {rn rd : Reg} {rm : Option Reg} :
    unpredictableU8 ix rn rd rm = true ↔
      rm = some 15 ∨ ((ix.p = false ∨ ix.w = true) ∧ (rn = 15 ∨ rn = rd)) ∨ (ix.p = false ∧ rm = some rn) := by
  simp [unpredictableU8, writesBack_iff, or_assoc]

theorem unpredictableU9_iff {ix : Indexing} {rd : Reg} :
    unpredictableU9 ix rd = true ↔ ix = .postIndexedW ∨ rd = 15 := by
  simp [unpredictableU9]

theorem swapUnpredictable_iff {rn rd rm : Reg} :
    swapUnpredictable rn rd rm = true ↔ rn = 15 ∨ rd = 15 ∨ rm = 15 ∨ rn = rd ∨ rn = rm := by
  simp [swapUnpredictable, or_assoc]

theorem mulUnpredictable_iff {accumulates : Bool} {rd rn rs rm : Reg} :
    mulUnpredictable accumulates rd rn rs rm = true ↔
      rd = rm ∨ rd = 15 ∨ rm = 15 ∨ rs = 15 ∨ (accumulates = true ∧ rn = 15) := by
  simp [mulUnpredictable, or_assoc]

theorem mullUnpredictable_iff {hi lo rs rm : Reg} :
    mullUnpredictable hi lo rs rm = true ↔
      hi = lo ∨ rm = hi ∨ rm = lo ∨ hi = 15 ∨ lo = 15 ∨ rs = 15 ∨ rm = 15 := by
  simp [mullUnpredictable, or_assoc]

/-- R15 as a named register, or a field that should be zero and is not (U12, U13). -/
theorem pcOrNonzeroField_iff {n : Nat} {r : Reg} {sbz : BitVec n} :
    (r == 15 || sbz != 0) = true ↔ r = 15 ∨ sbz ≠ 0 := by
  simp

theorem comparison_isCompare_readsRn :
    ∀ op ∈ [AluOp.tst, .teq, .cmp, .cmn], op.isCompare = true ∧ op.readsRn = true := by decide

/-! ### Data processing and block transfers, whose class U tests stand behind another refusal -/

/-- Past the refusal X4, a data-processing instruction is its two class U tests and the handler's result. -/
theorem exec_dataProcessing_legal {op : AluOp} {c : Cond} {sf : Bool} {rn rd : Reg} {o : Operand2} {md : Mode}
    {s : State} (hr : Ready c md s) (hx : pcInRegisterShift op.readsRn rn o = false) :
    exec (Instr.dataProcessing op c sf rn rd o) s =
      unlessStrict .u2 (reservedBit7 o) s (unlessStrict .u15 (op.isCompare && rd == 15) s
        (dataProcResult op (sf || op.isCompare) rn rd o md s)) := by
  rw [exec_dataProcessing, gate_ready hr, dataProc, if_neg (by simp [hx])]

/-- With S = 0, what the class U tests of a block transfer refuse, LDM and STM refuse. -/
theorem exec_blockTransfer_refused {c : Cond} {md : Mode} {s : State} {wb : Bool} {rn : Reg} {list : BitVec 16}
    {r : Refusal} (hr : Ready c md s) (h : ∀ k, unlessBlockStrict wb rn list s k = .refused r) (m : BlockMode) :
    exec (.ldm c m false wb rn list) s = .refused r ∧ exec (.stm c m false wb rn list) s = .refused r :=
  ⟨(gate_ready hr _).trans (h _), (gate_ready hr _).trans (h _)⟩

section Block
variable {wb : Bool} {rn : Reg} {list : BitVec 16} {s : State}

theorem unlessBlockStrict_emptyList (hs : s.params.strictUnpredictable = true) (k : Result) :
    unlessBlockStrict wb rn 0 s k = .refused (.unpredictable .u5) :=
  unlessStrict_refused _ hs rfl

theorem unlessBlockStrict_baseInList (hs : s.params.strictUnpredictable = true) (hb : list.getLsbD rn.toNat = true)
    (k : Result) : unlessBlockStrict true rn list s k = .refused (.unpredictable .u6) := by
  have hne : (list == 0) = false := beq_false_of_ne (by rintro rfl; simp at hb)
  rw [unlessBlockStrict, unlessStrict_allowed _ (.inr hne), unlessStrict_refused _ hs (by simp [hb])]

theorem unlessBlockStrict_pcBase (hs : s.params.strictUnpredictable = true) (hne : list ≠ 0)
    (hb : wb = true → list.getLsbD 15 = false) (k : Result) :
    unlessBlockStrict wb 15 list s k = .refused (.unpredictable .u7) := by
  have hin : (wb && list.getLsbD (15 : Reg).toNat) = false := by
    cases wb
    · rfl
    · exact hb rfl
  rw [unlessBlockStrict, unlessStrict_allowed _ (.inr (beq_false_of_ne hne)), unlessStrict_allowed _ (.inr hin),
    unlessStrict_refused _ hs (beq_self_eq_true _)]

end Block

/-! ### The statement -/

/-- Settles O46: behind the gate each meaning is a chain of class U tests, and the premises of a clause say that the tests
before its class do not apply and that its own does. -/
theorem unpredictableFormsAreRefused : Obligations.UnpredictableFormsAreRefused := by
  intro c md s hr hs
  refine ⟨?u1, ?u2, ?u3, ?u4, ?u5, ?u6, ?u7, ?u8, ?u8User, ?u8HalfReg, ?u8HalfImm, ?u9Reg, ?u9Imm, ?u10, ?u11Mul, ?u11Mla,
    ?u11Long, ?u12, ?u13, ?u14, ?u14User, ?u15⟩
  case u1 => exact fun _ _ _ _ _ => ⟨gate_unlessStrict_first hr hs rfl, gate_unlessStrict_first hr hs rfl⟩
  case u2 =>
    intro op sf rn rd rs ty rm hx
    exact (exec_dataProcessing_legal hr hx).trans (unlessStrict_refused _ hs rfl)
  case u3 => exact fun _ _ _ _ => gate_unlessStrict_first hr hs rfl
  case u4 =>
    intro rn h
    exact gate_unlessStrict_first hr hs (by simpa using h)
  case u5 => exact fun m _ _ => exec_blockTransfer_refused hr (unlessBlockStrict_emptyList hs) m
  case u6 => exact fun m _ _ h => exec_blockTransfer_refused hr (unlessBlockStrict_baseInList hs h) m
  case u7 => exact fun m _ _ hne h => exec_blockTransfer_refused hr (unlessBlockStrict_pcBase hs hne h) m
  case u8 =>
    intro ix up rn rd off h
    have hf : unpredictableU8 ix rn rd (sdtOffsetReg off) = true := unpredictableU8_iff.2 h
    refine ⟨?_, ?_, ?_, ?_⟩ <;> exact gate_unlessStrict_first hr hs hf
  case u8User =>
    intro up rn rd off h
    have hf : unpredictableU8 .postIndexedW rn rd (sdtOffsetReg off) = true :=
      unpredictableU8_iff.2 (by simpa [Indexing.p, or_assoc] using h)
    refine ⟨?_, ?_, ?_, ?_⟩ <;> exact gate_unlessStrict_first hr hs hf
  case u8HalfReg =>
    intro ix up rn rd rm h
    have hf : unpredictableU8 ix rn rd (some rm) = true := unpredictableU8_iff.2 (by simpa using h)
    refine ⟨?_, ?_, ?_, ?_⟩ <;> exact gate_unlessStrict_first hr hs hf
  case u8HalfImm =>
    intro ix up rn rd imm hwb h
    have hf : unpredictableU8 ix rn rd none = true := unpredictableU8_iff.2 (.inr (.inl ⟨hwb, h⟩))
    refine ⟨?_, ?_, ?_, ?_⟩ <;> exact gate_unlessStrict_first hr hs hf
  case u9Reg =>
    intro ix up rn rd rm h8 h
    refine ⟨?_, ?_, ?_, ?_⟩ <;> exact gate_unlessStrict_second hr hs h8 (unpredictableU9_iff.2 h)
  case u9Imm =>
    intro ix up rn rd imm h8 h
    refine ⟨?_, ?_, ?_, ?_⟩ <;> exact gate_unlessStrict_second hr hs h8 (unpredictableU9_iff.2 h)
  case u10 =>
    intro rn rd rm h
    refine ⟨?_, ?_⟩ <;> exact gate_unlessStrict_first hr hs (swapUnpredictable_iff.2 h)
  case u11Mul =>
    intro sf rd rn rs rm h
    exact gate_unlessStrict_second hr hs rfl (mulUnpredictable_iff.2 (by simpa using h))
  case u11Mla =>
    intro sf rd rn rs rm h
    exact gate_unlessStrict_second hr hs rfl (mulUnpredictable_iff.2 (by simpa using h))
  case u11Long =>
    intro sf hi lo rs rm h
    refine ⟨?_, ?_, ?_, ?_⟩ <;> exact gate_unlessStrict_first hr hs (mullUnpredictable_iff.2 h)
  case u12 => exact fun _ _ _ h => gate_unlessStrict_first hr hs (pcOrNonzeroField_iff.2 h)
  case u13 => exact fun _ _ _ _ h => gate_unlessStrict_first hr hs (pcOrNonzeroField_iff.2 h)
  case u14 =>
    intro ix up rn off h8
    refine ⟨?_, ?_⟩ <;> exact gate_unlessStrict_second hr hs h8 rfl
  case u14User =>
    intro up rn off h8
    refine ⟨?_, ?_⟩ <;> exact gate_unlessStrict_second hr hs h8 rfl
  case u15 =>
    intro op rn o hop hx h7
    obtain ⟨hc, hn⟩ := comparison_isCompare_readsRn op hop
    rw [exec_dataProcessing_legal hr (by rw [hn, hx]), unlessStrict_allowed _ (.inr h7),
      unlessStrict_refused _ hs (by simp [hc])]

end Sys2Proof.Machine
end

section
/-!
PROOFS. The state (10_state.md): the register banks, the layout of a status register and the reset values; what every step
leaves of the pipeline and of the invariant; which instructions can change a status register or another mode's bank.
-/

namespace Sys2Proof.Machine

/-! ### Register banks (10_state.md rules R10, R12, R13) -/

/-- The name that reaches a physical register, in whichever mode it is reached. -/
def PhysReg.name : PhysReg → Reg
  | .r0 => 0 | .r1 => 1 | .r2 => 2 | .r3 => 3 | .r4 => 4 | .r5 => 5 | .r6 => 6 | .r7 => 7
  | .r8Usr => 8 | .r9Usr => 9 | .r10Usr => 10 | .r11Usr => 11 | .r12Usr => 12
  | .r8Fiq => 8 | .r9Fiq => 9 | .r10Fiq => 10 | .r11Fiq => 11 | .r12Fiq => 12
  | .r13Usr => 13 | .r13Fiq => 13 | .r13Irq => 13 | .r13Svc => 13 | .r13Abt => 13 | .r13Und => 13
  | .r14Usr => 14 | .r14Fiq => 14 | .r14Irq => 14 | .r14Svc => 14 | .r14Abt => 14 | .r14Und => 14
  | .r15 => 15

theorem phys_name (md : Mode) : ∀ i : Reg, (phys i md).name = i := by
  cases md <;> decide

/-- One name in two modes reaches one register exactly when both modes select one bank for it. -/
theorem phys_modes_iff (md md' : Mode) : ∀ i : Reg,
    phys i md = phys i md' ↔
      i.toNat ≤ 7 ∨ i.toNat = 15 ∨ (8 ≤ i.toNat ∧ i.toNat ≤ 12 ∧ (md = .fiq ↔ md' = .fiq)) ∨
        (13 ≤ i.toNat ∧ i.toNat ≤ 14 ∧ md.excMode = md'.excMode) := by
  cases md <;> cases md' <;> decide

/-- Settles O6: a physical register has one name, and for one name the banks decide. -/
theorem registerBanks : Obligations.RegisterBanks := by
  intro i j md md'
  constructor
  · intro h
    have hij : i = j := by rw [← phys_name md i, h, phys_name]
    subst hij
    exact ⟨rfl, (phys_modes_iff md md' i).1 h⟩
  · rintro ⟨rfl, hb⟩
    exact (phys_modes_iff md md' i).2 hb

/-! ### The layout of a status register (10_state.md rules R20, R25) -/

theorem Psr.toWord_reserved (p : Psr) {k : Nat} (h8 : 8 ≤ k) (h28 : k < 28) : p.toWord.getLsbD k = false := by
  show @BitVec.getLsbD (1 + 1 + 1 + 1 + 20 + 1 + 1 + 1 + 5) (_ ++ 0#20 ++ _ ++ _ ++ _ ++ _) k = false
  rw [BitVec.getLsbD_append, if_neg (by omega), BitVec.getLsbD_append, if_neg (by omega), BitVec.getLsbD_append,
    if_neg (by omega), BitVec.getLsbD_append, if_neg (by omega), BitVec.getLsbD_append, if_pos (by omega),
    BitVec.getLsbD_zero]

/-- Every bit of a status register read as a word. -/
theorem Psr.toWord_getLsbD (p : Psr) {k : Nat} (hk : k < 32) :
    p.toWord.getLsbD k =
      if k < 5 then p.m.getLsbD k else if k = 5 then p.t else if k = 6 then p.f else if k = 7 then p.i
      else if k < 28 then false else if k = 28 then p.v else if k = 29 then p.c else if k = 30 then p.z else p.n := by
  obtain ⟨h31, h30, h29, h28, h7, h6, h5, hm⟩ := Psr.toWord_bits p
  split_ifs with hlow h h h hres h h h
  · simp [← hm, hlow]
  · rw [h, h5]
  · rw [h, h6]
  · rw [h, h7]
  · exact Psr.toWord_reserved p (by omega) hres
  · rw [h, h28]
  · rw [h, h29]
  · rw [h, h30]
  · rw [show k = 31 by omega, h31]

theorem psrMask_getLsbD : ∀ k, k < 32 → psrMask.getLsbD k = decide (k < 8 ∨ 28 ≤ k) := by decide

theorem Psr.toWord_ofWord (w : Word) : (Psr.ofWord w).toWord = w &&& psrMask := by
  apply BitVec.eq_of_getLsbD_eq
  intro k hk
  rw [Psr.toWord_getLsbD _ hk, BitVec.getLsbD_and, psrMask_getLsbD k hk, Bool.and_comm]
  split_ifs with hlow h h h hres h h h
  · simp [Psr.ofWord, hlow, show k < 8 by omega]
  · subst h; rfl
  · subst h; rfl
  · subst h; rfl
  · rw [decide_eq_false (by omega), Bool.false_and]
  · subst h; rfl
  · subst h; rfl
  · subst h; rfl
  · obtain rfl : k = 31 := by omega
    rfl

/-- `set_flags`, then `flags`: the nibble is read back. -/
theorem Psr.flags_setFlags (p : Psr) (f : Word) : (p.setFlags f).flags = f.extractLsb' 0 4 := by
  apply BitVec.eq_of_getLsbD_eq
  intro k hk
  show @BitVec.getLsbD (1 + 1 + 1 + 1) (_ ++ _ ++ _ ++ _) k = _
  rw [BitVec.getLsbD_extractLsb', decide_eq_true hk, BitVec.getLsbD_append, BitVec.getLsbD_append,
    BitVec.getLsbD_append]
  match k, hk with
  | 0, _ => simp [Psr.setFlags]
  | 1, _ => simp [Psr.setFlags]
  | 2, _ => simp [Psr.setFlags]
  | 3, _ => simp [Psr.setFlags]

theorem Psr.setFlags_nibble (p : Psr) (f : Word) : p.setFlags (f &&& 0xF) = p.setFlags f := by
  simp [Psr.setFlags]

theorem belowFlags_getLsbD : ∀ k, k < 32 → (0x0FFFFFFF : Word).getLsbD k = decide (k < 28) := by decide

/-- `set_flags` leaves bits 27:0 alone. -/
theorem Psr.toWord_setFlags (p : Psr) (f : Word) :
    (p.setFlags f).toWord &&& 0x0FFFFFFF = p.toWord &&& 0x0FFFFFFF := by
  apply BitVec.eq_of_getLsbD_eq
  intro k hk
  rw [BitVec.getLsbD_and, BitVec.getLsbD_and, belowFlags_getLsbD k hk]
  by_cases h28 : k < 28
  · rw [Psr.toWord_getLsbD _ hk, Psr.toWord_getLsbD _ hk]
    simp only [h28, if_true, Psr.setFlags]
  · simp only [h28, decide_false, Bool.and_false]

/-- Settles O8: reading back masks, and the flag nibble is one of the four fields `set_flags` writes. -/
theorem reservedStatusBits : Obligations.ReservedStatusBits :=
  ⟨Psr.toWord_ofWord, Psr.ofWord_toWord, Psr.toWord_ofWord 0xFFFFFFFF,
    fun p f => ⟨Psr.flags_setFlags p f, (Psr.setFlags_nibble p f).symm, Psr.toWord_setFlags p f⟩⟩

/-! ### The state after reset (10_state.md rules R40, R41) -/

/-- Settles O19: the fields are those `State.reset` lists, and CPSR read as a word is 0xD3. -/
theorem resetValues : Obligations.ResetValues :=
  ⟨rfl, rfl, rfl, rfl, rfl, rfl, rfl, rfl, by decide⟩

/-- Settles O56: Supervisor mode, R15 = 8 in ARM state, no memory cell listed. -/
theorem resetMeetsTheInvariant : Obligations.ResetMeetsTheInvariant :=
  ⟨by decide, by decide, Memory.wf_nil⟩

/-! ### What an instruction built by moves keeps -/

section Finished
variable {md : Mode} {st fl : Bool} {s t : State}

theorem Finished.control (h : Finished md st fl s t) : ControlKept s t := by
  obtain ⟨b, u, k, hu, rfl⟩ := h.moved
  cases b <;> exact hu.control

theorem Finished.flags (h : Finished md st fl s t) (hf : fl = false) : FlagsKept s t := by
  obtain ⟨b, u, k, hu, rfl⟩ := h.moved
  cases b <;> exact hu.flags hf

theorem Finished.spsr (h : Finished md st fl s t) : t.spsr = s.spsr := by
  obtain ⟨b, u, k, hu, rfl⟩ := h.moved
  cases b <;> exact hu.spsr

theorem Finished.wf (h : Finished md st fl s t) (hw : s.mem.wf = true) : t.mem.wf = true := by
  obtain ⟨b, u, k, hu, rfl⟩ := h.moved
  cases b <;> exact hu.wf hw

theorem Finished.regs (h : Finished md st fl s t) {p : PhysReg} (hp : ∀ j, p ≠ phys j md) :
    t.regs.get p = s.regs.get p := by
  have h15 : p ≠ .r15 := fun e => hp 15 (e.trans (phys_15 md).symm)
  obtain ⟨b, u, k, hu, rfl⟩ := h.moved
  have hmoves := hu.regs p h15 hp
  cases b
  · exact (RegFile.get_set_ne _ _ h15).trans hmoves
  · exact hmoves

end Finished

/-! ### The pipeline after an instruction and after a step -/

/-- The program counter and the slots after an instruction: moved on by a word in ARM state, the slots as they were;
refilled in ARM state; or at an even address in Thumb state. -/
inductive PipelineLeft (s : State) : State → Prop where
  | advanced {t : State} : s.cpsr.t = false → t.cpsr.t = false → t.pipe0 = s.pipe0 → t.pipe1 = s.pipe1 →
      t.pc = s.pc + 4 → PipelineLeft s t
  | refilled {t : State} : t.cpsr.t = false → Refilled t → PipelineLeft s t
  | thumb {t : State} : t.cpsr.t = true → t.pc.getLsbD 0 = false → PipelineLeft s t

theorem PipelineLeft.flush (s u : State) (v : Word) : PipelineLeft s (flush v u) := by
  cases ht : u.cpsr.t
  · rw [flush_arm v ht]
    exact .refilled ht (refilled_refill v u)
  · rw [flush_thumb v ht]
    exact .thumb ht (by simp)

theorem PipelineLeft.finished {md : Mode} {st fl : Bool} {s t : State} (h : Finished md st fl s t)
    (hs : s.cpsr.t = false) : PipelineLeft s t := by
  obtain ⟨-, -, hT, -⟩ := h.control
  have ht : t.cpsr.t = false := hT.trans hs
  obtain ⟨b, u, k, hu, rfl⟩ := h.moved
  cases b with
  | true => exact .refilled ht (hu.flushed rfl hs)
  | false =>
    obtain ⟨hpc, h0, h1⟩ := hu.running rfl
    exact .advanced hs ht h0 h1 (congrArg (· + 4) hpc)

theorem exec_pipelineLeft {i : Instr} {s t : State} (h : exec i s = .next t) (hs : s.cpsr.t = false) :
    PipelineLeft s t := by
  cases exec_shape h with
  | failed => exact .advanced hs hs rfl rfl rfl
  | built _ _ hf => exact .finished hf hs
  | exchanged => exact .flush s _ _
  | trapped => exact .refilled rfl (takeException_refilled _ _ _)
  | returned => exact .flush s _ _
  | wroteSpsr => exact .advanced hs hs rfl rfl rfl
  | wroteCpsr _ _ _ _ _ _ _ ht => exact .advanced hs (ht.trans hs) rfl rfl rfl

/-- A step moves the pipeline on from the fetch, or refills it, or leaves it at an even address in Thumb state. -/
theorem step_pipelineLeft {s t : State} (h : step s = .next t) : PipelineLeft (fetchShift (beginStep s)) t := by
  rcases step_cases h with ⟨_, rfl⟩ | ⟨_, hs, _, ⟨x, _, rfl⟩ | ⟨_, he⟩⟩
  · exact .flush _ _ _
  · exact .flush _ _ _
  · exact exec_pipelineLeft he hs

/-- Settles O53: a step that stays in ARM state leaves the pipeline moved on or refilled. -/
theorem pipelineAfterEveryStep : Obligations.PipelineAfterEveryStep := by
  intro s t h ht
  cases step_pipelineLeft h with
  | advanced _ _ h0 h1 hpc => exact .inl ⟨h0, h1, hpc⟩
  | refilled _ hr => exact .inr hr
  | thumb hT => exact absurd (ht.symm.trans hT) (by decide)

/-! ### The invariant -/

theorem add4_wordAligned {a : Word} (h : a.extractLsb' 0 2 = 0#2) : (a + 4).extractLsb' 0 2 = 0#2 := by
  have h := congrArg BitVec.toNat h
  apply BitVec.eq_of_toNat_eq
  simp only [BitVec.extractLsb'_toNat, Nat.shiftRight_zero, BitVec.toNat_add, BitVec.toNat_ofNat,
    show (4 : Word).toNat = 4 from rfl] at h ⊢
  omega

theorem PipelineLeft.pcAligned {s t : State} (h : PipelineLeft s t) (hs : s.pcAligned = true) : t.pcAligned = true := by
  unfold State.pcAligned at hs ⊢
  cases h with
  | advanced hT ht _ _ hpc =>
    rw [hT] at hs
    rw [ht, hpc]
    exact beq_iff_eq.2 (add4_wordAligned (beq_iff_eq.1 hs))
  | refilled ht hr =>
    obtain ⟨-, -, -, hlow⟩ := hr
    rw [ht]
    exact beq_iff_eq.2 hlow
  | thumb ht heven => rw [ht, heven]; rfl

theorem modeValid_of_ofBits {s : State} {md : Mode} (h : Mode.ofBits s.cpsr.m = some md) : s.modeValid = true :=
  Option.isSome_iff_exists.2 ⟨md, h⟩

theorem modeValid_congr {s t : State} (h : t.cpsr.m = s.cpsr.m) : t.modeValid = s.modeValid := by
  rw [State.modeValid, State.modeValid, h]

theorem takeException_modeValid (x : Exc) (lr : Word) (s : State) : (takeException x lr s).modeValid = true :=
  modeValid_of_ofBits (Mode.ofBits_bits x.mode.mode)

theorem exec_modeValid {i : Instr} {s t : State} (h : exec i s = .next t) (hs : s.modeValid = true) :
    t.modeValid = true := by
  cases exec_shape h with
  | failed => exact hs
  | built _ _ hf =>
    obtain ⟨-, -, -, hm⟩ := hf.control
    exact (modeValid_congr hm).trans hs
  | exchanged => exact (modeValid_congr (by simp)).trans hs
  | trapped => exact takeException_modeValid _ _ _
  | returned _ _ _ _ _ hm => exact modeValid_of_ofBits (by simpa using hm)
  | wroteSpsr => exact hs
  | wroteCpsr _ _ _ _ _ _ _ _ hm => exact modeValid_of_ofBits hm

theorem exec_memWf {i : Instr} {s t : State} (h : exec i s = .next t) (hs : s.mem.wf = true) : t.mem.wf = true := by
  cases exec_shape h with
  | failed => exact hs
  | built _ _ hf => exact hf.wf hs
  | exchanged => rw [flush_mem]; exact hs
  | trapped => exact hs
  | returned => rw [flush_mem]; exact hs
  | wroteSpsr => exact hs
  | wroteCpsr => exact hs

/-- A step leaves a valid mode whatever it began in: the reset and the entry of an interrupt set one, and an instruction
runs in one only. -/
theorem step_modeValid {s t : State} (h : step s = .next t) : t.modeValid = true := by
  rcases step_cases h with ⟨_, rfl⟩ | ⟨_, _, ⟨md, hm⟩, ⟨x, _, rfl⟩ | ⟨_, he⟩⟩
  · exact modeValid_of_ofBits (Mode.ofBits_bits .supervisor)
  · exact takeException_modeValid _ _ _
  · exact exec_modeValid he (modeValid_of_ofBits hm)

theorem step_memWf {s t : State} (h : step s = .next t) (hs : s.mem.wf = true) : t.mem.wf = true := by
  rcases step_cases h with ⟨_, rfl⟩ | ⟨_, _, _, ⟨x, _, rfl⟩ | ⟨_, he⟩⟩
  · exact hs
  · exact hs
  · exact exec_memWf he hs

/-- Settles O55: each of the three parts is kept by every step. -/
theorem everyStepKeepsTheInvariant : Obligations.EveryStepKeepsTheInvariant := by
  rintro s t ⟨-, hpc, hmem⟩ h
  exact ⟨step_modeValid h, (step_pipelineLeft h).pcAligned hpc, step_memWf h hmem⟩

/-! ### Who changes CPSR (10_state.md rules R21 to R23) -/

/-- Where neither I nor F changed, a change of one of them has any explanation. -/
theorem masksKept_explained {s t : State} {P : Prop} (hi : t.cpsr.i = s.cpsr.i) (hf : t.cpsr.f = s.cpsr.f) :
    t.cpsr.i ≠ s.cpsr.i ∨ t.cpsr.f ≠ s.cpsr.f → P :=
  fun h => (h.elim (· hi) (· hf)).elim

/-- Settles O48: of the shapes an instruction can have, BX writes T alone, an MSR keeps T and in User mode the whole
control byte, and only traps and restores are left. -/
theorem controlBitsChangeOnlyAsListed : Obligations.ControlBitsChangeOnlyAsListed := by
  intro i s t h
  cases exec_shape h with
  | failed => exact ⟨masksKept_explained rfl rfl, fun hc => absurd rfl hc⟩
  | built _ _ hf =>
    obtain ⟨hi, hf, ht, -⟩ := hf.control
    exact ⟨masksKept_explained hi hf, fun hc => absurd ht hc⟩
  | exchanged _ _ hbx =>
    exact ⟨masksKept_explained (by simp) (by simp), fun _ => .inl ⟨_, _, hbx⟩⟩
  | trapped htr => exact ⟨fun _ => .inl htr, fun _ => .inr (.inl htr)⟩
  | returned _ hr => exact ⟨fun _ => .inr (.inl hr), fun _ => .inr (.inr hr)⟩
  | wroteSpsr => exact ⟨masksKept_explained rfl rfl, fun hc => absurd rfl hc⟩
  | wroteCpsr fmask w _ hw _ hm huser ht =>
    refine ⟨fun hc => .inr (.inr ⟨hw, fun hu => ?_⟩), fun hc => absurd ht hc⟩
    have hmd := Option.some.inj (hm.symm.trans hu)
    obtain ⟨hi, hf, -, -⟩ := Psr.merged_control s.cpsr fmask w (huser hmd)
    exact masksKept_explained hi hf hc

/-- Settles O49: without a flag-setting form, a restore or an MSR, what is left keeps CPSR, writes T alone, or is a trap,
which keeps the flags. -/
theorem flagsChangeOnlyAsListed : Obligations.FlagsChangeOnlyAsListed := by
  intro i s t h hset hres hpsr
  cases exec_shape h with
  | failed => exact ⟨rfl, rfl, rfl, rfl⟩
  | built _ _ hf => exact hf.flags hset
  | exchanged => unfold FlagsKept; rw [flush_cpsr]; exact ⟨rfl, rfl, rfl, rfl⟩
  | trapped => exact ⟨rfl, rfl, rfl, rfl⟩
  | returned _ hr => exact absurd (hres.symm.trans hr) (by decide)
  | wroteSpsr _ _ hw => exact absurd (hpsr.symm.trans hw) (by decide)
  | wroteCpsr _ _ _ hw => exact absurd (hpsr.symm.trans hw) (by decide)

/-! ### Who changes an SPSR (10_state.md rule R27) -/

theorem mode_of_excMode {md : Mode} {e : ExcMode} (h : md.excMode = some e) : md = e.mode := by
  cases md <;> cases h <;> rfl

/-- Settles O50: exception entry copies CPSR into the SPSR of the mode entered, MSR writes that of the current mode, and
no other shape writes one. -/
theorem savedStatusChangesOnlyAsListed : Obligations.SavedStatusChangesOnlyAsListed := by
  intro i s t e h hne
  cases exec_shape h with
  | failed => exact absurd rfl hne
  | built _ _ hf => exact absurd (by rw [hf.spsr]) hne
  | exchanged => exact absurd (by rw [flush_spsr]; rfl) hne
  | @trapped x htr _ hx =>
    obtain ⟨hcopied, hothers, -⟩ := takeException_entered x (s.pc - 4) s
    by_cases he : e = x.mode
    · subst he
      exact .inl ⟨htr, hx.imp (congrArg Exc.mode) (congrArg Exc.mode), hcopied⟩
    · exact absurd (hothers e he) hne
  | returned => exact absurd (by rw [flush_spsr]; rfl) hne
  | @wroteSpsr md d p _ hw _ hm hd =>
    by_cases he : e = d
    · rw [he]
      exact .inr ⟨hw, mode_of_excMode hd ▸ hm⟩
    · exact absurd ((SpsrFile.get_set s.spsr d e p).trans (if_neg he)) hne
  | wroteCpsr => exact absurd rfl hne

/-! ### Other banks (10_state.md rules R13, R15) -/

/-- The link register a trap writes. -/
theorem trap_link {x : Exc} (h : x = .swi ∨ x = .undefined) :
    phys 14 x.mode.mode = .r14Svc ∨ phys 14 x.mode.mode = .r14Und := by
  rcases h with rfl | rfl
  · exact .inl rfl
  · exact .inr rfl

/-- Settles O52: moves write the bank of the current mode, a flush and an advance R15 alone, and exception entry the link
register of the mode entered. -/
theorem otherBanksAreOutOfReach : Obligations.OtherBanksAreOutOfReach := by
  intro i s t md p h hmd hp htrap
  have h15 : p ≠ .r15 := fun e => hp 15 (e.trans (phys_15 md).symm)
  cases exec_shape h with
  | failed => exact RegFile.get_set_ne _ _ h15
  | built hm _ hf =>
    obtain rfl := Option.some.inj (hm.symm.trans hmd)
    exact hf.regs hp
  | exchanged => exact flush_get _ _ h15
  | @trapped x htr _ hx =>
    obtain ⟨-, -, -, -, hregs, -⟩ := takeException_entered x (s.pc - 4) s
    obtain ⟨hsvc, hund⟩ := htrap htr
    refine hregs p h15 fun hmem => ?_
    have hlink := List.mem_singleton.1 hmem
    exact (trap_link hx).elim (fun e => hsvc (hlink.trans e)) (fun e => hund (hlink.trans e))
  | returned => exact flush_get _ _ h15
  | wroteSpsr => exact RegFile.get_set_ne _ _ h15
  | wroteCpsr => exact RegFile.get_set_ne _ _ h15

end Sys2Proof.Machine
end

section
/-!
PROOFS. Memory (20_memory.md): the little-endian reads and writes, the canonical form, the rotated word load, which
instructions can change memory, and the calls of a step in order.
-/

namespace Sys2Proof.Machine

/-! ### Little-endian words (20_memory.md rules R54, R55) -/

/-- A halfword read inside a stored word answers that half. -/
theorem Memory.read16_write32_half (m : Memory) (a v : Word) {j : Nat} (hj : j < 2) :
    (m.write32 a v).read16 (a + BitVec.ofNat 32 (2 * j)) = v.extractLsb' (16 * j) 16 := by
  have hnext : a + BitVec.ofNat 32 (2 * j) + 1 = a + BitVec.ofNat 32 (2 * j + 1) := by
    rw [BitVec.add_assoc, BitVec.ofNat_add]
    rfl
  rw [Memory.read16, hnext, Memory.read8_write32_byte m a v (2 * j + 1) (by omega),
    Memory.read8_write32_byte m a v (2 * j) (by omega),
    BitVec.extractLsb'_append_extractLsb'_eq_extractLsb' (by omega), show 8 * (2 * j) = 16 * j by omega]

/-- Settles O9: the reads are the appended bytes by definition, the writes are read back byte by byte, and the two wider
reads of a stored word put its bytes together again. -/
theorem littleEndianMemory : Obligations.LittleEndianMemory := fun m a b v h x =>
  ⟨rfl, rfl, Memory.read8_write8 m a b x, Memory.read8_write16_byte m a h, Memory.read8_write16_outside m h,
    Memory.read8_write32_byte m a v, Memory.read8_write32_outside m v, fun _ => Memory.read16_write32_half m a v,
    Memory.read32_write32_self m a v⟩

/-- Settles O10: a write erases and inserts in order, and of two canonical memories that read alike the first cells
agree, so the rest do. -/
theorem memoryFormIsCanonical : Obligations.MemoryFormIsCanonical := by
  refine ⟨fun m a v h x hm => ⟨Memory.wf_write8 hm a x, Memory.wf_write16 hm a h, Memory.wf_write32 hm a v⟩,
    fun m m' hm hm' hread => Memory.wfFrom_ext hm hm' fun a ha => ?_⟩
  simpa only [Memory.read8, BitVec.toNat_ofNat, Nat.mod_eq_of_lt ha] using hread (BitVec.ofNat 32 a)

/-! ### The rotated word load (20_memory.md rule R57) -/

/-- The appended byte is the lowest. -/
theorem append_byte_lowest {n : Nat} (x : BitVec n) (b : Byte) : (x ++ b).extractLsb' 0 8 = b := by
  rw [BitVec.extractLsb'_append_eq_of_add_le (by decide), BitVec.extractLsb'_eq_self]

/-- Above the appended byte stand the others, each one place higher. -/
theorem append_byte_above {n : Nat} (x : BitVec n) (b : Byte) (k : Nat) :
    (x ++ b).extractLsb' (8 * (k + 1)) 8 = x.extractLsb' (8 * k) 8 := by
  rw [BitVec.extractLsb'_append_eq_of_le (by omega), Nat.mul_succ, Nat.add_sub_cancel]

/-- Byte `j` of a word read is the byte `j` addresses on. -/
theorem Memory.read32_byte (m : Memory) (a : Word) {j : Nat} (hj : j < 4) :
    (m.read32 a).extractLsb' (8 * j) 8 = m.read8 (a + BitVec.ofNat 32 j) := by
  match j, hj with
  | 0, _ => exact (append_byte_lowest _ _).trans (by rw [BitVec.add_zero])
  | 1, _ => exact (append_byte_above _ _ 0).trans (append_byte_lowest _ _)
  | 2, _ => exact (append_byte_above _ _ 1).trans ((append_byte_above _ _ 0).trans (append_byte_lowest _ _))
  | 3, _ =>
    exact (append_byte_above _ _ 2).trans ((append_byte_above _ _ 1).trans ((append_byte_above _ _ 0).trans
      BitVec.extractLsb'_eq_self))

/-- A rotation right by `r` bytes moves byte `r + j`, counted modulo 4, to place `j`. -/
theorem rotateRight_byte (w : Word) {r j : Nat} (hr : r < 4) (hj : j < 4) :
    (w.rotateRight (8 * r)).extractLsb' (8 * j) 8 = w.extractLsb' (8 * ((r + j) % 4)) 8 := by
  apply BitVec.eq_of_getLsbD_eq
  intro i hi
  rw [BitVec.getLsbD_extractLsb', BitVec.getLsbD_extractLsb', BitVec.getLsbD_rotateRight]
  by_cases hwrap : r + j < 4
  · rw [decide_eq_true (by omega : 8 * j + i < 32 - 8 * r % 32), cond_true,
      show 8 * r % 32 + (8 * j + i) = 8 * ((r + j) % 4) + i by omega]
  · rw [decide_eq_false (by omega : ¬ 8 * j + i < 32 - 8 * r % 32), cond_false,
      decide_eq_true (by omega : 8 * j + i < 32), Bool.true_and,
      show 8 * j + i - (32 - 8 * r % 32) = 8 * ((r + j) % 4) + i by omega]

theorem toNat_low2 (a : Word) : (a.extractLsb' 0 2).toNat = a.toNat % 4 := by
  rw [BitVec.extractLsb'_toNat, Nat.shiftRight_zero]

/-- An address is its word address and its place in the word. -/
theorem wordAddr_add_low2 (a : Word) : wordAddr a + BitVec.ofNat 32 (a.toNat % 4) = a := by
  apply BitVec.eq_of_toNat_eq
  rw [BitVec.toNat_add, wordAddr_toNat, BitVec.toNat_ofNat]
  omega

theorem loadRotated_byte (a : Word) (k : AccessKind) (s : State) {j : Nat} (hj : j < 4) :
    (loadRotated a k s).1.extractLsb' (8 * j) 8 =
      s.mem.read8 (wordAddr a + BitVec.ofNat 32 ((a.toNat + j) % 4)) := by
  rw [loadRotated_value, misalignRotation, toNat_low2, rotateRight_byte _ (by omega) hj, Nat.mod_add_mod,
    Memory.read32_byte _ _ (by omega)]

/-- Settles O11: the call and the rotation are the load's definition, the bytes follow the rotation, and the byte at
place 0 is the addressed one. -/
theorem misalignedWordLoadRotates : Obligations.MisalignedWordLoadRotates := by
  refine fun a k s => ⟨rfl, rfl, ?_, fun _ => loadRotated_byte a k s⟩
  have hlow := loadRotated_byte a k s (j := 0) (by decide)
  rwa [Nat.add_zero, wordAddr_add_low2] at hlow

/-! ### Who changes memory (20_memory.md rules R61, R63) -/

theorem Finished.mem {md : Mode} {st fl : Bool} {s t : State} (h : Finished md st fl s t) (hst : st = false) :
    t.mem = s.mem := by
  obtain ⟨b, u, k, hu, rfl⟩ := h.moved
  cases b <;> exact hu.mem hst

/-- Settles O51: moves without leave to store keep memory, and so do an advance, a flush and exception entry. -/
theorem memoryChangesOnlyByStores : Obligations.MemoryChangesOnlyByStores := by
  intro i s t h hst
  cases exec_shape h with
  | failed => rfl
  | built _ _ hf => exact hf.mem hst
  | exchanged => exact flush_mem _ _
  | trapped => exact takeException_mem _ _ _
  | returned => exact flush_mem _ _
  | wroteSpsr => rfl
  | wroteCpsr => rfl

/-! ### The calls of a step (20_memory.md rules R63, R67, 40_step_and_pipeline.md rule R128) -/

theorem Finished.calls {md : Mode} {st fl : Bool} {s t : State} (h : Finished md st fl s t) :
    ∃ rest, t.calls = s.calls ++ rest := by
  obtain ⟨b, u, k, hu, rfl⟩ := h.moved
  cases b <;> exact hu.calls

theorem flush_calls (v : Word) (s : State) : ∃ rest, (flush v s).calls = s.calls ++ rest :=
  (Moves.refl (md := .user) (st := false) (fl := false) (s := s)).flush v |>.moved.calls

/-- Exception entry makes the two refill fetches of the vector. -/
theorem takeException_calls (x : Exc) (lr : Word) (s : State) :
    (takeException x lr s).calls = s.calls ++ refillCalls s.mem x.vector := by
  obtain ⟨-, -, -, -, -, -, -, -, -, hcalls, -⟩ := takeException_entered x lr s
  simpa [takeException_mem] using hcalls

/-- An instruction adds its calls to those already made. -/
theorem exec_calls {i : Instr} {s t : State} (h : exec i s = .next t) : ∃ rest, t.calls = s.calls ++ rest := by
  cases exec_shape h with
  | failed => exact ⟨[], (List.append_nil _).symm⟩
  | built _ _ hf => exact hf.calls
  | exchanged => exact flush_calls _ _
  | trapped => exact ⟨_, takeException_calls _ _ _⟩
  | returned => exact flush_calls _ _
  | wroteSpsr => exact ⟨[], (List.append_nil _).symm⟩
  | wroteCpsr => exact ⟨[], (List.append_nil _).symm⟩

theorem sampleInterrupts_some {i : StepInput} {p : Psr} {x : Exc} (h : sampleInterrupts i p = some x) :
    x = .irq ∨ x = .fiq := by
  unfold sampleInterrupts at h
  split_ifs at h <;> cases h
  · exact .inr rfl
  · exact .inl rfl

/-- Settles O54: reset and interrupt entry make their two fetches on an empty list of calls, and an instruction adds its
calls to that of the fetch. -/
theorem stepCallsBeginWithTheFetch : Obligations.StepCallsBeginWithTheFetch := by
  intro s t h
  rcases step_cases h with ⟨_, rfl⟩ | ⟨_, _, _, ⟨x, hx, rfl⟩ | ⟨_, he⟩⟩
  · exact .inr ⟨.reset, .inl rfl, rfl, rfl⟩
  · exact .inr ⟨x, .inr (sampleInterrupts_some hx), takeException_calls x _ _, takeException_mem x _ _⟩
  · exact .inl (exec_calls he)

end Sys2Proof.Machine
end

section
/-!
PROOFS. The formats (30_encoding.md rules R86 to R98) field by field: a word is an instruction's of the format exactly
when it has the format's fixed bits and its fields decode to the operands.  Encoding and decoding both go through these.
-/

namespace Sys2Proof

/-! ### Fields and bits of a word -/

theorem getLsbD_field (w : Word) (lo len i : Nat) :
    (field w lo len).getLsbD i = (decide (i < len) && bitAt w (lo + i)) :=
  BitVec.getLsbD_extractLsb' ..

theorem getElem_field (w : Word) (lo len i : Nat) (h : i < len) : (field w lo len)[i] = bitAt w (lo + i) :=
  BitVec.getElem_extractLsb' h

theorem extractLsb'_field {w : Word} {lo len i n : Nat} (h : i + n ≤ len) :
    (field w lo len).extractLsb' i n = field w (lo + i) n := by
  apply BitVec.eq_of_getLsbD_eq
  intro j hj
  simp only [BitVec.getLsbD_extractLsb', getLsbD_field, hj, show i + j < len by omega, decide_true, Bool.true_and,
    Nat.add_assoc]

theorem word_eq_iff (w v : Word) : w = v ↔ field w 0 32 = v := by
  rw [show field w 0 32 = w from BitVec.extractLsb'_eq_self]

/-- A concatenation is a vector exactly when the two pieces are its upper and its lower part. -/
theorem append_eq_iff {n m : Nat} (a : BitVec n) (b : BitVec m) (x : BitVec (n + m)) :
    a ++ b = x ↔ a = x.extractLsb' m n ∧ b = x.extractLsb' 0 m := by
  constructor
  · rintro rfl
    exact ⟨BitVec.extractLsb'_append_eq_left.symm, BitVec.extractLsb'_append_eq_right.symm⟩
  · rintro ⟨rfl, rfl⟩
    rw [BitVec.extractLsb'_append_extractLsb'_eq_extractLsb' (Nat.zero_add m).symm, BitVec.extractLsb'_eq_self]

theorem field_eq_append_iff {n m : Nat} (a : BitVec n) (b : BitVec m) (w : Word) (lo : Nat) :
    field w lo (n + m) = a ++ b ↔ field w (lo + m) n = a ∧ field w lo m = b := by
  have hsplit : field w (lo + m) n ++ field w lo m = field w lo (n + m) :=
    BitVec.extractLsb'_append_extractLsb'_eq_extractLsb' rfl
  rw [← hsplit, append_eq_iff, BitVec.extractLsb'_append_eq_left, BitVec.extractLsb'_append_eq_right]

/-- A field's value, bit by bit. -/
theorem field_eq_iff (w : Word) (lo len : Nat) (v : BitVec len) :
    field w lo len = v ↔ ∀ i < len, bitAt w (lo + i) = v.getLsbD i := by
  rw [BitVec.eq_of_getLsbD_eq_iff]
  simp +contextual only [getLsbD_field, decide_true, Bool.true_and]

/-- The same, one bit at a time: with numerals for the bounds, `simp` reads off all the bits. -/
theorem field_succ_eq_iff (w : Word) (lo n : Nat) (v : BitVec (n + 1)) :
    field w lo (n + 1) = v ↔ bitAt w lo = v.getLsbD 0 ∧ field w (lo + 1) n = v.extractLsb' 1 n := by
  simp only [field_eq_iff, Nat.forall_lt_succ_left, BitVec.getLsbD_extractLsb', Nat.add_zero, Nat.add_comm 1,
    Nat.add_assoc]
  simp +contextual

theorem field_zero_eq_iff (w : Word) (lo : Nat) (v : BitVec 0) : field w lo 0 = v ↔ True :=
  iff_true_intro (BitVec.eq_of_zero_length rfl)

theorem field_eq_bit_iff (w : Word) (i : Nat) (b : Bool) : field w i 1 = bit b ↔ bitAt w i = b := by
  simp [field_eq_iff]

theorem field_eq_zero_iff (w : Word) (i : Nat) : field w i 1 = 0#1 ↔ bitAt w i = false := field_eq_bit_iff w i false

theorem field_eq_one_iff (w : Word) (i : Nat) : field w i 1 = 1#1 ↔ bitAt w i = true := field_eq_bit_iff w i true

/-- A word under a mask as one field, whose bits `field_succ_eq_iff` and `bitAt_and` then give. -/
theorem and_mask_eq_iff (w m v : Word) : w &&& m = v ↔ field (w &&& m) 0 32 = v := word_eq_iff _ _

theorem bitAt_and (w m : Word) (i : Nat) : bitAt (w &&& m) i = (bitAt w i && m.getLsbD i) := BitVec.getLsbD_and

/-! ### Fields that name a value: what is decoded from the field, and which bits stand for it -/

theorem Cond.ofBits_eq_iff (x : BitVec 4) (c : Cond) : Cond.ofBits x = c ↔ x = c.bits := by
  revert x; cases c <;> decide

theorem ShiftType.ofBits_eq_iff (x : BitVec 2) (t : ShiftType) : ShiftType.ofBits x = t ↔ x = t.bits := by
  revert x; cases t <;> decide

theorem Indexing.ofBits_eq_iff (p w : Bool) (ix : Indexing) : Indexing.ofBits p w = ix ↔ p = ix.p ∧ w = ix.w := by
  cases ix <;> revert p w <;> decide

theorem BlockMode.ofBits_eq_iff (p u : Bool) (m : BlockMode) : BlockMode.ofBits p u = m ↔ p = m.p ∧ u = m.u := by
  cases m <;> revert p u <;> decide

theorem condOf_eq_iff (w : Word) (c : Cond) : condOf w = c ↔ field w 28 4 = c.bits := Cond.ofBits_eq_iff _ _

/-- Operand2: bits 25 and 11:0 are those of an operand exactly when it is the operand decoded. -/
theorem operand2Of_eq_iff (w : Word) (o : Operand2) :
    operand2Of w = o ↔ bitAt w 25 = o.iBit ∧ field w 0 12 = o.bits := by
  unfold operand2Of
  cases o with
  | imm rot imm8 =>
    change _ ↔ bitAt w 25 = true ∧ field w 0 (4 + 8) = rot ++ imm8
    rw [field_eq_append_iff]
    split_ifs <;> simp_all
  | shiftImm a t rm =>
    change _ ↔ bitAt w 25 = false ∧ field w 0 (5 + 2 + 1 + 4) = a ++ t.bits ++ bit false ++ rm
    simp only [field_eq_append_iff, field_eq_bit_iff]
    split_ifs <;> simp_all [ShiftType.ofBits_eq_iff, and_assoc]
  | shiftReg rs b t rm =>
    change _ ↔ bitAt w 25 = false ∧ field w 0 (4 + 1 + 2 + 1 + 4) = rs ++ bit b ++ t.bits ++ bit true ++ rm
    simp only [field_eq_append_iff, field_eq_bit_iff]
    split_ifs <;> simp_all [ShiftType.ofBits_eq_iff, and_assoc]

/-- The offset of format SDT, likewise; the register form is a word of the format only where bit 4 is 0. -/
theorem sdtOffsetOf_eq_iff (w : Word) (o : SdtOffset) :
    (sdtOffsetOf w = o ∧ (bitAt w 25 = true → bitAt w 4 = false)) ↔ bitAt w 25 = o.iBit ∧ field w 0 12 = o.bits := by
  unfold sdtOffsetOf
  cases o with
  | imm imm12 =>
    change _ ↔ bitAt w 25 = false ∧ field w 0 12 = imm12
    split_ifs <;> simp_all
  | reg a t rm =>
    change _ ↔ bitAt w 25 = true ∧ field w 0 (5 + 2 + 1 + 4) = a ++ t.bits ++ bit false ++ rm
    simp only [field_eq_append_iff, field_eq_bit_iff]
    split_ifs <;> simp_all [ShiftType.ofBits_eq_iff, and_comm, and_left_comm]

/-! ### The formats: a word is of a format exactly when it has the format's fixed bits and decodes to the operands

The fixed bits come first, as the row of the decoder's table reads them; then one equation per field. -/

theorem eq_encodeBdt_iff (w : Word) (c : Cond) (m : BlockMode) (s wb l : Bool) (rn : Reg) (list : BitVec 16) :
    w = encodeBdt c m s wb l rn list ↔ field w 25 3 = 0b100#3 ∧ condOf w = c ∧
      BlockMode.ofBits (bitAt w 24) (bitAt w 23) = m ∧ bitAt w 22 = s ∧ bitAt w 21 = wb ∧ bitAt w 20 = l ∧
      field w 16 4 = rn ∧ field w 0 16 = list := by
  rw [word_eq_iff, condOf_eq_iff, BlockMode.ofBits_eq_iff]
  change field w 0 (4 + 3 + 1 + 1 + 1 + 1 + 1 + 4 + 16) = _ ↔ _
  simp only [encodeBdt, field_eq_append_iff, field_eq_bit_iff]
  tauto

theorem eq_encodeB_iff (w : Word) (c : Cond) (l : Bool) (off : BitVec 24) :
    w = encodeB c l off ↔ field w 25 3 = 0b101#3 ∧ condOf w = c ∧ bitAt w 24 = l ∧ field w 0 24 = off := by
  rw [word_eq_iff, condOf_eq_iff]
  change field w 0 (4 + 3 + 1 + 24) = _ ↔ _
  simp only [encodeB, field_eq_append_iff, field_eq_bit_iff]
  tauto

theorem eq_encodeSdt_iff (w : Word) (c : Cond) (ix : Indexing) (up b l : Bool) (rn rd : Reg) (off : SdtOffset) :
    w = encodeSdt c ix up b l rn rd off ↔
      (field w 26 2 = 0b01#2 ∧ (bitAt w 25 = true → bitAt w 4 = false)) ∧ condOf w = c ∧
      Indexing.ofBits (bitAt w 24) (bitAt w 21) = ix ∧ bitAt w 23 = up ∧ bitAt w 22 = b ∧ bitAt w 20 = l ∧
      field w 16 4 = rn ∧ field w 12 4 = rd ∧ sdtOffsetOf w = off := by
  have hoff := sdtOffsetOf_eq_iff w off
  rw [word_eq_iff, condOf_eq_iff, Indexing.ofBits_eq_iff]
  change field w 0 (4 + 2 + 1 + 1 + 1 + 1 + 1 + 1 + 4 + 4 + 12) = _ ↔ _
  simp only [encodeSdt, field_eq_append_iff, field_eq_bit_iff]
  tauto

theorem eq_encodeSwp_iff (w : Word) (c : Cond) (b : Bool) (rn rd rm : Reg) :
    w = encodeSwp c b rn rd rm ↔
      (field w 23 5 = 0b00010#5 ∧ field w 20 2 = 0b00#2 ∧ field w 4 8 = 0b00001001#8) ∧ condOf w = c ∧ bitAt w 22 = b ∧
      field w 16 4 = rn ∧ field w 12 4 = rd ∧ field w 0 4 = rm := by
  rw [word_eq_iff, condOf_eq_iff]
  change field w 0 (4 + 5 + 1 + 2 + 4 + 4 + 8 + 4) = _ ↔ _
  simp only [encodeSwp, field_eq_append_iff, field_eq_bit_iff]
  tauto

theorem eq_encodeMul_iff (w : Word) (c : Cond) (x a s : Bool) (rd rn rs rm : Reg) :
    w = encodeMul c x a s rd rn rs rm ↔ (field w 23 5 = 0b00000#5 ∧ field w 4 4 = 0b1001#4) ∧ condOf w = c ∧
      bitAt w 22 = x ∧ bitAt w 21 = a ∧ bitAt w 20 = s ∧
      field w 16 4 = rd ∧ field w 12 4 = rn ∧ field w 8 4 = rs ∧ field w 0 4 = rm := by
  rw [word_eq_iff, condOf_eq_iff]
  change field w 0 (4 + 5 + 1 + 1 + 1 + 4 + 4 + 4 + 4 + 4) = _ ↔ _
  simp only [encodeMul, field_eq_append_iff, field_eq_bit_iff]
  tauto

theorem eq_encodeMull_iff (w : Word) (c : Cond) (u a s : Bool) (hi lo rs rm : Reg) :
    w = encodeMull c u a s hi lo rs rm ↔ (field w 23 5 = 0b00001#5 ∧ field w 4 4 = 0b1001#4) ∧ condOf w = c ∧
      bitAt w 22 = u ∧ bitAt w 21 = a ∧ bitAt w 20 = s ∧
      field w 16 4 = hi ∧ field w 12 4 = lo ∧ field w 8 4 = rs ∧ field w 0 4 = rm := by
  rw [word_eq_iff, condOf_eq_iff]
  change field w 0 (4 + 5 + 1 + 1 + 1 + 4 + 4 + 4 + 4 + 4) = _ ↔ _
  simp only [encodeMull, field_eq_append_iff, field_eq_bit_iff]
  tauto

theorem eq_encodeHReg_iff (w : Word) (c : Cond) (ix : Indexing) (up l : Bool) (sh : BitVec 2) (rn rd rm : Reg) :
    w = encodeHReg c ix up l sh rn rd rm ↔
      (field w 25 3 = 0b000#3 ∧ bitAt w 22 = false ∧ field w 8 4 = 0b0000#4 ∧ bitAt w 7 = true ∧ bitAt w 4 = true) ∧
      condOf w = c ∧ Indexing.ofBits (bitAt w 24) (bitAt w 21) = ix ∧ bitAt w 23 = up ∧ bitAt w 20 = l ∧
      field w 16 4 = rn ∧ field w 12 4 = rd ∧ field w 5 2 = sh ∧ field w 0 4 = rm := by
  rw [word_eq_iff, condOf_eq_iff, Indexing.ofBits_eq_iff]
  change field w 0 (4 + 3 + 1 + 1 + 1 + 1 + 1 + 4 + 4 + 4 + 1 + 2 + 1 + 4) = _ ↔ _
  simp only [encodeHReg, field_eq_append_iff, field_eq_bit_iff, field_eq_zero_iff, field_eq_one_iff]
  tauto

theorem eq_encodeHImm_iff (w : Word) (c : Cond) (ix : Indexing) (up l : Bool) (sh : BitVec 2) (rn rd : Reg)
    (off : BitVec 8) :
    w = encodeHImm c ix up l sh rn rd off ↔
      (field w 25 3 = 0b000#3 ∧ bitAt w 22 = true ∧ bitAt w 7 = true ∧ bitAt w 4 = true) ∧
      condOf w = c ∧ Indexing.ofBits (bitAt w 24) (bitAt w 21) = ix ∧ bitAt w 23 = up ∧ bitAt w 20 = l ∧
      field w 16 4 = rn ∧ field w 12 4 = rd ∧ field w 5 2 = sh ∧ field w 8 4 ++ field w 0 4 = off := by
  rw [word_eq_iff, condOf_eq_iff, Indexing.ofBits_eq_iff,
    append_eq_iff (n := 4) (m := 4)]
  change field w 0 (4 + 3 + 1 + 1 + 1 + 1 + 1 + 4 + 4 + 4 + 1 + 2 + 1 + 4) = _ ↔ _
  simp only [encodeHImm, field_eq_append_iff, field_eq_bit_iff, field_eq_one_iff]
  tauto

theorem eq_encodeDp_iff (w : Word) (c : Cond) (op : BitVec 4) (s : Bool) (rn rd : Reg) (o : Operand2) :
    w = encodeDp c op s rn rd o ↔ field w 26 2 = 0b00#2 ∧ condOf w = c ∧ field w 21 4 = op ∧ bitAt w 20 = s ∧
      field w 16 4 = rn ∧ field w 12 4 = rd ∧ operand2Of w = o := by
  rw [word_eq_iff, condOf_eq_iff, operand2Of_eq_iff]
  change field w 0 (4 + 2 + 1 + 4 + 1 + 4 + 4 + 12) = _ ↔ _
  simp only [encodeDp, field_eq_append_iff, field_eq_bit_iff]
  tauto

theorem eq_encode_bx_iff (w : Word) (c : Cond) (rn : Reg) :
    w = encode (.bx c rn) ↔ field w 4 24 = 0x12FFF1#24 ∧ condOf w = c ∧ field w 0 4 = rn := by
  rw [word_eq_iff, condOf_eq_iff]
  change field w 0 (4 + 24 + 4) = _ ↔ _
  simp only [encode, field_eq_append_iff]
  tauto

theorem eq_encode_swi_iff (w : Word) (c : Cond) (comment : BitVec 24) :
    w = encode (.swi c comment) ↔ field w 24 4 = 0b1111#4 ∧ condOf w = c ∧ field w 0 24 = comment := by
  rw [word_eq_iff, condOf_eq_iff]
  change field w 0 (4 + 4 + 24) = _ ↔ _
  simp only [encode, field_eq_append_iff]
  tauto

theorem eq_encode_und_iff (w : Word) (c : Cond) (hi : BitVec 20) (lo : BitVec 4) :
    w = encode (.und c hi lo) ↔
      (field w 25 3 = 0b011#3 ∧ bitAt w 4 = true) ∧ condOf w = c ∧ field w 5 20 = hi ∧ field w 0 4 = lo := by
  rw [word_eq_iff, condOf_eq_iff]
  change field w 0 (4 + 3 + 20 + 1 + 4) = _ ↔ _
  simp only [encode, field_eq_append_iff, field_eq_one_iff]
  tauto

theorem eq_encode_cdpMcrMrc_iff (w : Word) (c : Cond) (ignored : BitVec 24) :
    w = encode (.cdpMcrMrc c ignored) ↔ field w 24 4 = 0b1110#4 ∧ condOf w = c ∧ field w 0 24 = ignored := by
  rw [word_eq_iff, condOf_eq_iff]
  change field w 0 (4 + 4 + 24) = _ ↔ _
  simp only [encode, field_eq_append_iff]
  tauto

theorem eq_encode_ldcStc_iff (w : Word) (c : Cond) (ignored : BitVec 25) :
    w = encode (.ldcStc c ignored) ↔ field w 25 3 = 0b110#3 ∧ condOf w = c ∧ field w 0 25 = ignored := by
  rw [word_eq_iff, condOf_eq_iff]
  change field w 0 (4 + 3 + 25) = _ ↔ _
  simp only [encode, field_eq_append_iff]
  tauto

theorem eq_encode_mrs_iff (w : Word) (c : Cond) (spsr : Bool) (rd : Reg) (sbz : BitVec 12) :
    w = encode (.mrs c spsr rd sbz) ↔ (field w 23 5 = 0b00010#5 ∧ field w 16 6 = 0b001111#6) ∧ condOf w = c ∧
      bitAt w 22 = spsr ∧ field w 12 4 = rd ∧ field w 0 12 = sbz := by
  rw [word_eq_iff, condOf_eq_iff]
  change field w 0 (4 + 5 + 1 + 6 + 4 + 12) = _ ↔ _
  simp only [encode, field_eq_append_iff, field_eq_bit_iff]
  tauto

/-- The two forms of MSR differ in bit 25, the I bit. -/
theorem field_msr_iff (w : Word) (i : Bool) : field w 23 5 = 0b00#2 ++ bit i ++ 0b10#2 ↔
    field w 26 2 = 0b00#2 ∧ bitAt w 25 = i ∧ field w 23 2 = 0b10#2 := by
  change field w 23 (2 + 1 + 2) = _ ↔ _
  simp only [field_eq_append_iff, field_eq_bit_iff, and_assoc]

theorem eq_encode_msrReg_iff (w : Word) (c : Cond) (spsr : Bool) (fmask : BitVec 4) (sbz : BitVec 8) (rm : Reg) :
    w = encode (.msrReg c spsr fmask sbz rm) ↔
      (field w 26 2 = 0b00#2 ∧ field w 23 2 = 0b10#2 ∧ field w 20 2 = 0b10#2 ∧ field w 12 4 = 0b1111#4) ∧
      bitAt w 25 = false ∧ condOf w = c ∧
      bitAt w 22 = spsr ∧ field w 16 4 = fmask ∧ field w 4 8 = sbz ∧ field w 0 4 = rm := by
  have hop : field w 23 5 = 0b00010#5 ↔ _ := field_msr_iff w false
  rw [word_eq_iff, condOf_eq_iff]
  change field w 0 (4 + 5 + 1 + 2 + 4 + 4 + 8 + 4) = _ ↔ _
  simp only [encode, field_eq_append_iff, field_eq_bit_iff]
  tauto

theorem eq_encode_msrImm_iff (w : Word) (c : Cond) (spsr : Bool) (fmask rot : BitVec 4) (imm8 : BitVec 8) :
    w = encode (.msrImm c spsr fmask rot imm8) ↔
      (field w 26 2 = 0b00#2 ∧ field w 23 2 = 0b10#2 ∧ field w 20 2 = 0b10#2 ∧ field w 12 4 = 0b1111#4) ∧
      bitAt w 25 = true ∧ condOf w = c ∧
      bitAt w 22 = spsr ∧ field w 16 4 = fmask ∧ field w 8 4 = rot ∧ field w 0 8 = imm8 := by
  have hop : field w 23 5 = 0b00110#5 ↔ _ := field_msr_iff w true
  rw [word_eq_iff, condOf_eq_iff]
  change field w 0 (4 + 5 + 1 + 2 + 4 + 4 + 4 + 8) = _ ↔ _
  simp only [encode, field_eq_append_iff, field_eq_bit_iff]
  tauto

end Sys2Proof
end

section
/-!
PROOFS. The decoder's table (30_encoding.md rules R82 to R84) as conditions on fields, and `Kind.Covers`, which says
for each kind which words it has: those with the format's fixed bits that no earlier row takes.
-/

namespace Sys2Proof

/-! ### The table of R82, row by row -/

/-- The kind of the first of some rows that matches a word. -/
def firstKind (rows : List DecoderRow) (w : Word) : Kind :=
  ((rows.find? fun r => w &&& r.mask == r.value).map DecoderRow.kind).getD .undefined

theorem classify_eq_firstKind (w : Word) : classify w = firstKind decoderTable w := by
  unfold classify firstKind matchingRow
  cases decoderTable.find? fun r => w &&& r.mask == r.value <;> rfl

theorem firstKind_cons (r : DecoderRow) (rows : List DecoderRow) (w : Word) :
    firstKind (r :: rows) w = if w &&& r.mask = r.value then r.kind else firstKind rows w := by
  by_cases h : w &&& r.mask = r.value <;> simp [firstKind, h]

/-- The priority table of R82 and R84 in terms of the fields of the formats. -/
theorem classify_eq (w : Word) : classify w =
    if field w 4 24 = 0x12FFF1#24 then .branchAndExchange
    else if field w 25 3 = 0b100#3 then .blockDataTransfer
    else if field w 24 4 = 0b1010#4 then .branchAndBranchWithLink
    else if field w 24 4 = 0b1011#4 then .branchAndBranchWithLink
    else if field w 24 4 = 0b1111#4 then .softwareInterrupt
    else if field w 25 3 = 0b011#3 ∧ bitAt w 4 = true then .undefined
    else if field w 26 2 = 0b01#2 then .singleDataTransfer
    else if field w 23 5 = 0b00010#5 ∧ field w 20 2 = 0b00#2 ∧ field w 4 8 = 0b00001001#8 then .singleDataSwap
    else if field w 23 5 = 0b00000#5 ∧ field w 4 4 = 0b1001#4 then .multiply
    else if field w 23 5 = 0b00001#5 ∧ field w 4 4 = 0b1001#4 then .multiplyLong
    else if field w 25 3 = 0b000#3 ∧ bitAt w 22 = false ∧ field w 8 4 = 0b0000#4 ∧ bitAt w 7 = true ∧
        bitAt w 4 = true then
      .halfwordTransferRegister
    else if field w 25 3 = 0b000#3 ∧ bitAt w 22 = true ∧ bitAt w 7 = true ∧ bitAt w 4 = true then
      .halfwordTransferImmediate
    else if field w 23 5 = 0b00010#5 ∧ field w 16 6 = 0b001111#6 then .psrToRegister
    else if field w 26 2 = 0b00#2 ∧ field w 23 2 = 0b10#2 ∧ field w 20 2 = 0b10#2 ∧ field w 12 4 = 0b1111#4 then
      .registerToPsr
    else if field w 26 2 = 0b00#2 then .dataProcessing
    else .undefined := by
  simp only [classify_eq_firstKind, decoderTable, firstKind_cons]
  iterate 15 apply if_congr ?_ rfl
  · exact ite_self _
  all_goals
    simp [and_mask_eq_iff, field_succ_eq_iff, field_zero_eq_iff, bitAt_and] <;> tauto

theorem ofBits_eq_lsl_iff (x : BitVec 2) : ShiftType.ofBits x = .lsl ↔ x = 0 := ShiftType.ofBits_eq_iff x .lsl

theorem wellFormed_operand2Of (w : Word) (op : BitVec 4) : (operand2Of w).wellFormed op = true ↔
    (bitAt w 25 = false → bitAt w 4 = true → bitAt w 7 = true →
      (op.getLsbD 1 = false ∧ field w 8 4 ≠ 0#4) ∧ (op.getLsbD 3 = false → field w 5 2 ≠ 0#2)) := by
  unfold operand2Of
  split_ifs with h25 h4
  · simp [Operand2.wellFormed, h25]
  · simp [Operand2.wellFormed, takenByHalfword, ofBits_eq_lsl_iff, h25, h4, imp_iff_or_not, or_comm]
  · simp [Operand2.wellFormed, h4]

theorem isRegister_operand2Of (w : Word) : (operand2Of w).isRegister = !bitAt w 25 := by
  unfold operand2Of
  split_ifs with h25 h4 <;> simp [Operand2.isRegister, h25]

/-- Whether data processing with these operands has a word of its own: the operand2 as its opcode allows, and under an
opcode 10xx with S = 0 no word of MRS and MSR. -/
def dpWellFormed (op : BitVec 4) (s : Bool) (rn rd : Reg) (o : Operand2) : Bool :=
  o.wellFormed op && (s || !op.getLsbD 3 || op.getLsbD 2 ||
    (op.getLsbD 0 || !o.isRegister || rn != 15) && (!op.getLsbD 0 || rd != 15))

/-- Which words are of a kind: the fixed bits of its format and, where an earlier row of the table takes some of those
words, that this one is not among them. -/
def Kind.Covers (w : Word) : Kind → Prop
  | .branchAndExchange => field w 4 24 = 0x12FFF1#24
  | .blockDataTransfer => field w 25 3 = 0b100#3
  | .branchAndBranchWithLink => field w 25 3 = 0b101#3
  | .softwareInterrupt => field w 24 4 = 0b1111#4
  | .undefined => (field w 25 3 = 0b011#3 ∧ bitAt w 4 = true) ∨ field w 24 4 = 0b1110#4 ∨ field w 25 3 = 0b110#3
  | .singleDataTransfer => field w 26 2 = 0b01#2 ∧ (bitAt w 25 = true → bitAt w 4 = false)
  | .singleDataSwap => field w 23 5 = 0b00010#5 ∧ field w 20 2 = 0b00#2 ∧ field w 4 8 = 0b00001001#8
  | .multiply => field w 23 5 = 0b00000#5 ∧ field w 4 4 = 0b1001#4
  | .multiplyLong => field w 23 5 = 0b00001#5 ∧ field w 4 4 = 0b1001#4
  | .halfwordTransferRegister =>
    (field w 25 3 = 0b000#3 ∧ bitAt w 22 = false ∧ field w 8 4 = 0b0000#4 ∧ bitAt w 7 = true ∧ bitAt w 4 = true) ∧
      (field w 5 2 = 0b00#2 → sh00WellFormed (.ofBits (bitAt w 24) (bitAt w 21)) (bitAt w 23) (bitAt w 20) 0 = true)
  | .halfwordTransferImmediate =>
    (field w 25 3 = 0b000#3 ∧ bitAt w 22 = true ∧ bitAt w 7 = true ∧ bitAt w 4 = true) ∧
      (field w 5 2 = 0b00#2 →
        sh00WellFormed (.ofBits (bitAt w 24) (bitAt w 21)) (bitAt w 23) (bitAt w 20) (field w 8 4) = true)
  | .psrToRegister =>
    (field w 23 5 = 0b00010#5 ∧ field w 16 6 = 0b001111#6) ∧
      (!(bitAt w 7 && bitAt w 4 && takenByHalfword (bitAt w 22) (field w 8 4))) = true
  | .registerToPsr =>
    (field w 26 2 = 0b00#2 ∧ field w 23 2 = 0b10#2 ∧ field w 20 2 = 0b10#2 ∧ field w 12 4 = 0b1111#4) ∧
      (bitAt w 25 = false →
        (!(bitAt w 7 && bitAt w 4 && takenByHalfword (bitAt w 22) (field w 8 4)) &&
          !(!bitAt w 22 && field w 16 4 == 15 && field w 4 8 == 0xF1)) = true)
  | .dataProcessing =>
    field w 26 2 = 0b00#2 ∧
      dpWellFormed (field w 21 4) (bitAt w 20) (field w 16 4) (field w 12 4) (operand2Of w) = true

/-- What `dpWellFormed` asks of a word's own fields: with bits 7 and 4 both 1 no halfword transfer, swap or multiply,
and under an opcode 10xx with S = 0 no MRS and no MSR. -/
theorem dpWellFormed_fields (w : Word) :
    dpWellFormed (field w 21 4) (bitAt w 20) (field w 16 4) (field w 12 4) (operand2Of w) = true ↔
      (bitAt w 25 = false → bitAt w 4 = true → bitAt w 7 = true →
        (bitAt w 22 = false ∧ field w 8 4 ≠ 0#4) ∧ (bitAt w 24 = false → field w 5 2 ≠ 0#2)) ∧
      (bitAt w 20 = false → bitAt w 24 = true → bitAt w 23 = false →
        (bitAt w 21 = false → bitAt w 25 = false → field w 16 4 ≠ 15#4) ∧
        (bitAt w 21 = true → field w 12 4 ≠ 15#4)) := by
  simp only [dpWellFormed, Bool.and_eq_true, wellFormed_operand2Of, isRegister_operand2Of, getLsbD_field]
  refine and_congr Iff.rfl ?_
  cases bitAt w 20 <;> cases bitAt w 24 <;> cases bitAt w 23 <;> cases bitAt w 21 <;>
    cases bitAt w 25 <;> simp

theorem sh00WellFormed_ofBits (p w up load : Bool) (hi : BitVec 4) :
    sh00WellFormed (.ofBits p w) up load hi = true ↔ p = true ∧ (w = true ∨ up = true ∨ load = true ∨ hi ≠ 0) := by
  cases p <;> cases w <;> simp [sh00WellFormed, Indexing.ofBits, or_assoc]

/-- A choice between two kinds covers a word when each does on its own side of the test. -/
theorem covers_ite {w : Word} {p : Prop} [Decidable p] {k l : Kind} (hk : p → k.Covers w) (hl : ¬p → l.Covers w) :
    (if p then k else l).Covers w := by
  split_ifs with h
  · exact hk h
  · exact hl h

/-- The table's kind covers the word.  Its rows are tested in order; where a row shares words with earlier rows, those
named are those whose failure is used. -/
theorem covers_classify (w : Word) : (classify w).Covers w := by
  rw [classify_eq]
  refine covers_ite (fun bx => bx) fun bx => ?_
  refine covers_ite (fun block => block) fun block => ?_
  refine covers_ite (fun b => ?_) fun b => ?_
  · unfold Kind.Covers
    simp [field_succ_eq_iff, field_zero_eq_iff] at b ⊢
    exact b.2
  refine covers_ite (fun bl => ?_) fun bl => ?_
  · unfold Kind.Covers
    simp [field_succ_eq_iff, field_zero_eq_iff] at bl ⊢
    exact bl.2
  refine covers_ite (fun swi => swi) fun swi => ?_
  refine covers_ite (fun und => .inl und) fun und => ?_
  refine covers_ite (fun sdt => ?_) fun sdt => ?_
  · unfold Kind.Covers
    simp [field_succ_eq_iff, field_zero_eq_iff] at und sdt ⊢
    grind
  refine covers_ite (fun swp => swp) fun swp => ?_
  refine covers_ite (fun mul => mul) fun mul => ?_
  refine covers_ite (fun mull => mull) fun mull => ?_
  refine covers_ite (fun hreg => ⟨hreg, ?_⟩) fun hreg => ?_
  · rw [sh00WellFormed_ofBits]
    simp [field_succ_eq_iff, field_zero_eq_iff] at swp mul mull hreg ⊢
    grind
  refine covers_ite (fun himm => ⟨himm, ?_⟩) fun himm => ?_
  · rw [sh00WellFormed_ofBits]
    simp [field_succ_eq_iff, field_zero_eq_iff] at swp mul mull himm ⊢
    grind
  refine covers_ite (fun mrs => ⟨mrs, ?_⟩) fun mrs => ?_
  · unfold takenByHalfword
    simp [field_succ_eq_iff, field_zero_eq_iff] at hreg himm mrs ⊢
    grind
  refine covers_ite (fun msr => ⟨msr, ?_⟩) fun msr => ?_
  · unfold takenByHalfword
    simp [field_succ_eq_iff, field_zero_eq_iff] at bx hreg himm msr ⊢
    grind
  refine covers_ite (fun dp => ⟨dp, ?_⟩) fun dp => ?_
  · rw [dpWellFormed_fields]
    simp [field_succ_eq_iff, field_zero_eq_iff] at mul mull hreg himm mrs msr dp ⊢
    grind
  · unfold Kind.Covers
    clear bx und swp mul mull hreg himm mrs msr
    simp [field_succ_eq_iff, field_zero_eq_iff] at block b bl swi sdt dp ⊢
    grind +splitImp

/-- A kind that covers a word is the table's kind for it: the bits `Kind.Covers` fixes decide every earlier row. -/
theorem classify_of_covers {w : Word} {k : Kind} (h : k.Covers w) : classify w = k := by
  have hbits := classify_eq w
  simp [field_succ_eq_iff, field_zero_eq_iff] at hbits
  rw [hbits]
  cases k <;> unfold Kind.Covers at h
  case branchAndExchange | blockDataTransfer | branchAndBranchWithLink | softwareInterrupt | singleDataSwap | multiply |
      multiplyLong =>
    simp [field_succ_eq_iff, field_zero_eq_iff] at h
    simp [h]
  case undefined =>
    simp [field_succ_eq_iff, field_zero_eq_iff] at h
    obtain h | h | h := h <;> simp [h]
  case singleDataTransfer =>
    obtain ⟨hrow, hund⟩ := h
    simp [field_succ_eq_iff, field_zero_eq_iff] at hrow
    cases h25 : bitAt w 25
    · simp [hrow]
    · simp [hrow, hund h25]
  case halfwordTransferRegister | halfwordTransferImmediate =>
    obtain ⟨hrow, hsh⟩ := h
    simp [sh00WellFormed_ofBits, field_succ_eq_iff, field_zero_eq_iff] at hrow hsh
    simp [hrow]
    grind
  case psrToRegister | registerToPsr =>
    obtain ⟨hrow, hhalf⟩ := h
    simp [takenByHalfword, field_succ_eq_iff, field_zero_eq_iff] at hrow hhalf
    simp [hrow]
    grind
  case dataProcessing =>
    obtain ⟨hspace, hwf⟩ := h
    rw [dpWellFormed_fields] at hwf
    simp [field_succ_eq_iff, field_zero_eq_iff] at hspace hwf
    simp only [hspace]
    -- by the form of operand2: an immediate (last), a register shifted by an immediate, by a register
    cases h25 : bitAt w 25
    · cases h4 : bitAt w 4
      · grind
      · cases h7 : bitAt w 7 <;> grind
    · grind

end Sys2Proof
end

section
/-!
PROOFS. Every word decodes to a well-formed instruction whose encoding is the word (30_encoding.md rules R82 to R98).
-/

namespace Sys2Proof

/-! ### Encoding what was decoded -/

/-- The two SH bits of the halfword formats. -/
theorem field_sh_eq (w : Word) : field w 5 2 = bit (bitAt w 6) ++ bit (bitAt w 5) :=
  (field_eq_append_iff (n := 1) (m := 1) _ _ w 5).2 ⟨(field_eq_bit_iff w 6 _).2 rfl, (field_eq_bit_iff w 5 _).2 rfl⟩

theorem encode_decodeBlock (w : Word) : encode (decodeBlock w) =
    encodeBdt (condOf w) (.ofBits (bitAt w 24) (bitAt w 23)) (bitAt w 22) (bitAt w 21) (bitAt w 20) (field w 16 4)
      (field w 0 16) := by
  unfold decodeBlock
  cases bitAt w 20 <;> rfl

theorem encode_decodeBranch (w : Word) :
    encode (decodeBranch w) = encodeB (condOf w) (bitAt w 24) (field w 0 24) := by
  unfold decodeBranch
  cases bitAt w 24 <;> rfl

theorem encode_decodeSingle (w : Word) : encode (decodeSingle w) =
    encodeSdt (condOf w) (.ofBits (bitAt w 24) (bitAt w 21)) (bitAt w 23) (bitAt w 22) (bitAt w 20) (field w 16 4)
      (field w 12 4) (sdtOffsetOf w) := by
  unfold decodeSingle
  cases bitAt w 24 <;> cases bitAt w 21 <;> cases bitAt w 20 <;> cases bitAt w 22 <;> rfl

theorem wellFormed_decodeSingle (w : Word) : (decodeSingle w).wellFormed = true := by
  unfold decodeSingle
  cases bitAt w 24 <;> cases bitAt w 21 <;> cases bitAt w 20 <;> cases bitAt w 22 <;> rfl

theorem encode_decodeSwap (w : Word) : encode (decodeSwap w) =
    encodeSwp (condOf w) (bitAt w 22) (field w 16 4) (field w 12 4) (field w 0 4) := by
  unfold decodeSwap
  cases bitAt w 22 <;> rfl

theorem encode_decodeMultiply (w : Word) : encode (decodeMultiply w) =
    encodeMul (condOf w) (bitAt w 22) (bitAt w 21) (bitAt w 20) (field w 16 4) (field w 12 4) (field w 8 4)
      (field w 0 4) := by
  unfold decodeMultiply
  cases bitAt w 21 <;> rfl

theorem encode_decodeMultiplyLong (w : Word) : encode (decodeMultiplyLong w) =
    encodeMull (condOf w) (bitAt w 22) (bitAt w 21) (bitAt w 20) (field w 16 4) (field w 12 4) (field w 8 4)
      (field w 0 4) := by
  unfold decodeMultiplyLong
  cases bitAt w 22 <;> cases bitAt w 21 <;> rfl

theorem encode_decodeHalfReg (w : Word) : encode (decodeHalfReg w) =
    encodeHReg (condOf w) (.ofBits (bitAt w 24) (bitAt w 21)) (bitAt w 23) (bitAt w 20) (field w 5 2) (field w 16 4)
      (field w 12 4) (field w 0 4) := by
  rw [field_sh_eq]
  unfold decodeHalfReg
  cases bitAt w 20 <;> cases bitAt w 6 <;> cases bitAt w 5 <;> rfl

theorem wellFormed_decodeHalfReg (w : Word) : (decodeHalfReg w).wellFormed = true ↔ (field w 5 2 = 0b00#2 →
    sh00WellFormed (.ofBits (bitAt w 24) (bitAt w 21)) (bitAt w 23) (bitAt w 20) 0 = true) := by
  rw [field_sh_eq]
  unfold decodeHalfReg
  cases bitAt w 20 <;> cases bitAt w 6 <;> cases bitAt w 5 <;> simp [Instr.wellFormed]

theorem encode_decodeHalfImm (w : Word) : encode (decodeHalfImm w) =
    encodeHImm (condOf w) (.ofBits (bitAt w 24) (bitAt w 21)) (bitAt w 23) (bitAt w 20) (field w 5 2) (field w 16 4)
      (field w 12 4) (field w 8 4 ++ field w 0 4) := by
  rw [field_sh_eq]
  unfold decodeHalfImm
  cases bitAt w 20 <;> cases bitAt w 6 <;> cases bitAt w 5 <;> rfl

theorem wellFormed_decodeHalfImm (w : Word) : (decodeHalfImm w).wellFormed = true ↔ (field w 5 2 = 0b00#2 →
    sh00WellFormed (.ofBits (bitAt w 24) (bitAt w 21)) (bitAt w 23) (bitAt w 20) (field w 8 4) = true) := by
  have hoff : (field w 8 4 ++ field w 0 4).extractLsb' 4 4 = field w 8 4 := BitVec.extractLsb'_append_eq_left
  rw [field_sh_eq]
  unfold decodeHalfImm
  cases bitAt w 20 <;> cases bitAt w 6 <;> cases bitAt w 5 <;> simp [Instr.wellFormed, hoff]

theorem encode_decodeDataProcessing (w : Word) : encode (decodeDataProcessing w) =
    encodeDp (condOf w) (field w 21 4) (bitAt w 20) (field w 16 4) (field w 12 4) (operand2Of w) := by
  unfold decodeDataProcessing
  generalize field w 21 4 = op
  obtain ⟨⟨op, hop⟩⟩ := op
  interval_cases op <;> cases bitAt w 20 <;> rfl

theorem wellFormed_decodeDataProcessing (w : Word) : (decodeDataProcessing w).wellFormed =
    dpWellFormed (field w 21 4) (bitAt w 20) (field w 16 4) (field w 12 4) (operand2Of w) := by
  unfold decodeDataProcessing
  generalize field w 21 4 = op
  obtain ⟨⟨op, hop⟩⟩ := op
  interval_cases op <;> cases bitAt w 20 <;> simp [Instr.wellFormed, dpWellFormed, reservedDpWellFormed]

theorem wellFormed_decodeMrs (w : Word) : (decodeMrs w).wellFormed =
    (!(bitAt w 7 && bitAt w 4 && takenByHalfword (bitAt w 22) (field w 8 4))) := by
  simp [decodeMrs, Instr.wellFormed, getElem_field, extractLsb'_field]

theorem wellFormed_decodeMsr (w : Word) : (decodeMsr w).wellFormed = true ↔ (bitAt w 25 = false →
    (!(bitAt w 7 && bitAt w 4 && takenByHalfword (bitAt w 22) (field w 8 4)) &&
      !(!bitAt w 22 && field w 16 4 == 15 && field w 4 8 == 0xF1)) = true) := by
  unfold decodeMsr
  cases bitAt w 25 <;> simp [Instr.wellFormed, getElem_field, extractLsb'_field]

theorem wellFormed_decodeUndefined (w : Word) : (decodeUndefined w).wellFormed = true := by
  unfold decodeUndefined
  split_ifs <;> rfl

theorem decodeUndefined_und {w : Word} (h : field w 25 3 = 0b011#3 ∧ bitAt w 4 = true) :
    decodeUndefined w = .und (condOf w) (field w 5 20) (field w 0 4) := if_pos h.1

theorem decodeUndefined_cdpMcrMrc {w : Word} (h : field w 24 4 = 0b1110#4) :
    decodeUndefined w = .cdpMcrMrc (condOf w) (field w 0 24) := by
  have h011 : field w 25 3 ≠ 0b011#3 := by
    simp [field_succ_eq_iff, field_zero_eq_iff] at h ⊢
    simp [h]
  rw [decodeUndefined, if_neg h011, if_pos h]

theorem decodeUndefined_ldcStc {w : Word} (h : field w 25 3 = 0b110#3) :
    decodeUndefined w = .ldcStc (condOf w) (field w 0 25) := by
  have h011 : field w 25 3 ≠ 0b011#3 := by simp [h]
  have h1110 : field w 24 4 ≠ 0b1110#4 := by
    simp [field_succ_eq_iff, field_zero_eq_iff] at h ⊢
    simp [h]
  rw [decodeUndefined, if_neg h011, if_neg h1110]

theorem encode_decodeUndefined {w : Word} (h : Kind.Covers w .undefined) : encode (decodeUndefined w) = w := by
  obtain hund | hcdp | hldc := h
  · rw [decodeUndefined_und hund, ← (eq_encode_und_iff ..).2 ⟨hund, rfl, rfl, rfl⟩]
  · rw [decodeUndefined_cdpMcrMrc hcdp, ← (eq_encode_cdpMcrMrc_iff ..).2 ⟨hcdp, rfl, rfl⟩]
  · rw [decodeUndefined_ldcStc hldc, ← (eq_encode_ldcStc_iff ..).2 ⟨hldc, rfl, rfl⟩]

theorem encode_decodeMsr {w : Word}
    (h : field w 26 2 = 0b00#2 ∧ field w 23 2 = 0b10#2 ∧ field w 20 2 = 0b10#2 ∧ field w 12 4 = 0b1111#4) :
    encode (decodeMsr w) = w := by
  unfold decodeMsr
  split_ifs with h25
  · exact ((eq_encode_msrImm_iff ..).2 ⟨h, h25, rfl, rfl, rfl, rfl, rfl⟩).symm
  · exact ((eq_encode_msrReg_iff ..).2 ⟨h, eq_false_of_ne_true h25, rfl, rfl, rfl, rfl, rfl⟩).symm

/-- Settles O58, kind by kind: what `Kind.Covers` says of the word beyond its fixed bits is the well-formedness of what
is decoded, and encoding puts the fields back where the format has them. -/
theorem encodeOfDecode : Obligations.EncodeOfDecode := by
  intro w
  have h := covers_classify w
  unfold decode
  cases hk : classify w <;> rw [hk] at h <;> constructor
  case branchAndExchange.left => rfl
  case branchAndExchange.right => exact ((eq_encode_bx_iff w _ _).2 ⟨h, rfl, rfl⟩).symm
  case blockDataTransfer.left => unfold decodeBlock; split_ifs <;> rfl
  case blockDataTransfer.right =>
    exact (encode_decodeBlock w).trans ((eq_encodeBdt_iff ..).2 ⟨h, rfl, rfl, rfl, rfl, rfl, rfl, rfl⟩).symm
  case branchAndBranchWithLink.left => unfold decodeBranch; split_ifs <;> rfl
  case branchAndBranchWithLink.right =>
    exact (encode_decodeBranch w).trans ((eq_encodeB_iff ..).2 ⟨h, rfl, rfl, rfl⟩).symm
  case softwareInterrupt.left => rfl
  case softwareInterrupt.right => exact ((eq_encode_swi_iff w _ _).2 ⟨h, rfl, rfl⟩).symm
  case undefined.left => exact wellFormed_decodeUndefined w
  case undefined.right => exact encode_decodeUndefined h
  case singleDataTransfer.left => exact wellFormed_decodeSingle w
  case singleDataTransfer.right =>
    exact (encode_decodeSingle w).trans
      ((eq_encodeSdt_iff ..).2 ⟨h, rfl, rfl, rfl, rfl, rfl, rfl, rfl, rfl⟩).symm
  case singleDataSwap.left => unfold decodeSwap; split_ifs <;> rfl
  case singleDataSwap.right =>
    exact (encode_decodeSwap w).trans ((eq_encodeSwp_iff ..).2 ⟨h, rfl, rfl, rfl, rfl, rfl⟩).symm
  case multiply.left => unfold decodeMultiply; split_ifs <;> rfl
  case multiply.right =>
    exact (encode_decodeMultiply w).trans
      ((eq_encodeMul_iff ..).2 ⟨h, rfl, rfl, rfl, rfl, rfl, rfl, rfl, rfl⟩).symm
  case multiplyLong.left => unfold decodeMultiplyLong; cases bitAt w 22 <;> cases bitAt w 21 <;> rfl
  case multiplyLong.right =>
    exact (encode_decodeMultiplyLong w).trans
      ((eq_encodeMull_iff ..).2 ⟨h, rfl, rfl, rfl, rfl, rfl, rfl, rfl, rfl⟩).symm
  case halfwordTransferRegister.left => exact (wellFormed_decodeHalfReg w).2 h.2
  case halfwordTransferRegister.right =>
    exact (encode_decodeHalfReg w).trans
      ((eq_encodeHReg_iff ..).2 ⟨h.1, rfl, rfl, rfl, rfl, rfl, rfl, rfl, rfl⟩).symm
  case halfwordTransferImmediate.left => exact (wellFormed_decodeHalfImm w).2 h.2
  case halfwordTransferImmediate.right =>
    exact (encode_decodeHalfImm w).trans
      ((eq_encodeHImm_iff ..).2 ⟨h.1, rfl, rfl, rfl, rfl, rfl, rfl, rfl, rfl⟩).symm
  case psrToRegister.left => exact (wellFormed_decodeMrs w).trans h.2
  case psrToRegister.right => exact ((eq_encode_mrs_iff ..).2 ⟨h.1, rfl, rfl, rfl, rfl⟩).symm
  case registerToPsr.left => exact (wellFormed_decodeMsr w).2 h.2
  case registerToPsr.right => exact encode_decodeMsr h.1
  case dataProcessing.left => exact (wellFormed_decodeDataProcessing w).trans h.2
  case dataProcessing.right =>
    exact (encode_decodeDataProcessing w).trans
      ((eq_encodeDp_iff ..).2 ⟨h.1, rfl, rfl, rfl, rfl, rfl, rfl⟩).symm

end Sys2Proof
end

section
/-!
PROOFS. Every well-formed instruction is what its word decodes to, and the decoder is total
(30_encoding.md rules R81 to R85).
-/

namespace Sys2Proof

/-! ### Decoding what was encoded -/

theorem bits_of_field_sh {w : Word} {sh : BitVec 2} (h : field w 5 2 = sh) :
    bitAt w 5 = sh.getLsbD 0 ∧ bitAt w 6 = sh.getLsbD 1 := by
  subst h
  simp only [getLsbD_field]
  exact ⟨rfl, rfl⟩

/-- A word with the fixed bits of data processing that reads there as a well-formed instruction decodes to it; the four
lemmas below are the same for the other kinds that share words with earlier rows. -/
theorem decode_eq_of_decodeDataProcessing {w : Word} {i : Instr} (hrow : field w 26 2 = 0b00#2)
    (hd : decodeDataProcessing w = i) (hi : i.wellFormed = true) : decode w = i := by
  subst hd
  have hk : Kind.Covers w .dataProcessing := ⟨hrow, (wellFormed_decodeDataProcessing w).symm.trans hi⟩
  rw [decode, classify_of_covers hk]

theorem decode_eq_of_decodeMrs {w : Word} {i : Instr} (hrow : field w 23 5 = 0b00010#5 ∧ field w 16 6 = 0b001111#6)
    (hd : decodeMrs w = i) (hi : i.wellFormed = true) : decode w = i := by
  subst hd
  have hk : Kind.Covers w .psrToRegister := ⟨hrow, (wellFormed_decodeMrs w).symm.trans hi⟩
  rw [decode, classify_of_covers hk]

theorem decode_eq_of_decodeMsr {w : Word} {i : Instr}
    (hrow : field w 26 2 = 0b00#2 ∧ field w 23 2 = 0b10#2 ∧ field w 20 2 = 0b10#2 ∧ field w 12 4 = 0b1111#4)
    (hd : decodeMsr w = i) (hi : i.wellFormed = true) : decode w = i := by
  subst hd
  have hk : Kind.Covers w .registerToPsr := ⟨hrow, (wellFormed_decodeMsr w).1 hi⟩
  rw [decode, classify_of_covers hk]

theorem decode_eq_of_decodeHalfReg {w : Word} {i : Instr} (hrow : field w 25 3 = 0b000#3 ∧ bitAt w 22 = false ∧
      field w 8 4 = 0b0000#4 ∧ bitAt w 7 = true ∧ bitAt w 4 = true)
    (hd : decodeHalfReg w = i) (hi : i.wellFormed = true) : decode w = i := by
  subst hd
  have hk : Kind.Covers w .halfwordTransferRegister := ⟨hrow, (wellFormed_decodeHalfReg w).1 hi⟩
  rw [decode, classify_of_covers hk]

theorem decode_eq_of_decodeHalfImm {w : Word} {i : Instr}
    (hrow : field w 25 3 = 0b000#3 ∧ bitAt w 22 = true ∧ bitAt w 7 = true ∧ bitAt w 4 = true)
    (hd : decodeHalfImm w = i) (hi : i.wellFormed = true) : decode w = i := by
  subst hd
  have hk : Kind.Covers w .halfwordTransferImmediate := ⟨hrow, (wellFormed_decodeHalfImm w).1 hi⟩
  rw [decode, classify_of_covers hk]

/-- Settles O57, format by format: the word of an instruction has the format's fixed bits and fields, so the operands
are fields of the word; well-formedness makes the kind cover it, and the decoder reads the fields back. -/
theorem decodeOfEncode : Obligations.DecodeOfEncode := by
  intro i hi
  obtain ⟨w, hw⟩ : ∃ w, w = encode i := ⟨_, rfl⟩
  rw [← hw]
  cases i
  case bx =>
    obtain ⟨hrow, rfl, rfl⟩ := (eq_encode_bx_iff ..).1 hw
    rw [decode, classify_of_covers (k := .branchAndExchange) hrow]
  case ldm | stm =>
    obtain ⟨hrow, rfl, rfl, rfl, rfl, hl, rfl, rfl⟩ := (eq_encodeBdt_iff ..).1 hw
    rw [decode, classify_of_covers (k := .blockDataTransfer) hrow]
    simp [decodeBlock, hl]
  case b | bl =>
    obtain ⟨hrow, rfl, hl, rfl⟩ := (eq_encodeB_iff ..).1 hw
    rw [decode, classify_of_covers (k := .branchAndBranchWithLink) hrow]
    simp [decodeBranch, hl]
  case swi =>
    obtain ⟨hrow, rfl, rfl⟩ := (eq_encode_swi_iff ..).1 hw
    rw [decode, classify_of_covers (k := .softwareInterrupt) hrow]
  case und =>
    obtain ⟨hrow, rfl, rfl, rfl⟩ := (eq_encode_und_iff ..).1 hw
    rw [decode, classify_of_covers (k := .undefined) (.inl hrow)]
    exact decodeUndefined_und hrow
  case cdpMcrMrc =>
    obtain ⟨hrow, rfl, rfl⟩ := (eq_encode_cdpMcrMrc_iff ..).1 hw
    rw [decode, classify_of_covers (k := .undefined) (.inr (.inl hrow))]
    exact decodeUndefined_cdpMcrMrc hrow
  case ldcStc =>
    obtain ⟨hrow, rfl, rfl⟩ := (eq_encode_ldcStc_iff ..).1 hw
    rw [decode, classify_of_covers (k := .undefined) (.inr (.inr hrow))]
    exact decodeUndefined_ldcStc hrow
  case ldrt | ldrbt | strt | strbt =>
    obtain ⟨hrow, rfl, hix, rfl, hb, hl, rfl, rfl, rfl⟩ := (eq_encodeSdt_iff ..).1 hw
    rw [decode, classify_of_covers (k := .singleDataTransfer) hrow]
    simp [decodeSingle, hix, hb, hl]
  case ldr c ix up rn rd off | ldrb c ix up rn rd off | str c ix up rn rd off | strb c ix up rn rd off =>
    obtain ⟨hrow, rfl, hix, rfl, hb, hl, rfl, rfl, rfl⟩ := (eq_encodeSdt_iff ..).1 hw
    rw [decode, classify_of_covers (k := .singleDataTransfer) hrow]
    cases ix
    case postIndexedW => exact absurd hi Bool.false_ne_true
    all_goals simp [decodeSingle, hix, hb, hl]
  case swp | swpb =>
    obtain ⟨hrow, rfl, hb, rfl, rfl, rfl⟩ := (eq_encodeSwp_iff ..).1 hw
    rw [decode, classify_of_covers (k := .singleDataSwap) hrow]
    simp [decodeSwap, hb]
  case mul | mla =>
    obtain ⟨hrow, rfl, rfl, ha, rfl, rfl, rfl, rfl, rfl⟩ := (eq_encodeMul_iff ..).1 hw
    rw [decode, classify_of_covers (k := .multiply) hrow]
    simp [decodeMultiply, ha]
  case umull | umlal | smull | smlal =>
    obtain ⟨hrow, rfl, hu, ha, rfl, rfl, rfl, rfl, rfl⟩ := (eq_encodeMull_iff ..).1 hw
    rw [decode, classify_of_covers (k := .multiplyLong) hrow]
    simp [decodeMultiplyLong, hu, ha]
  case strhReg | ldrhReg | ldrsbReg | ldrshReg | reservedStoreSh10Reg | reservedStoreSh11Reg | reservedSh00Reg =>
    obtain ⟨hrow, rfl, rfl, rfl, hl, rfl, rfl, hsh, rfl⟩ := (eq_encodeHReg_iff ..).1 hw
    obtain ⟨h5, h6⟩ := bits_of_field_sh hsh
    exact decode_eq_of_decodeHalfReg hrow (by simp [decodeHalfReg, hl, h6, h5]) hi
  case strhImm | ldrhImm | ldrsbImm | ldrshImm | reservedStoreSh10Imm | reservedStoreSh11Imm | reservedSh00Imm =>
    obtain ⟨hrow, rfl, rfl, rfl, hl, rfl, rfl, hsh, rfl⟩ := (eq_encodeHImm_iff ..).1 hw
    obtain ⟨h5, h6⟩ := bits_of_field_sh hsh
    exact decode_eq_of_decodeHalfImm hrow (by simp [decodeHalfImm, hl, h6, h5]) hi
  case mrs =>
    obtain ⟨hrow, rfl, rfl, rfl, rfl⟩ := (eq_encode_mrs_iff ..).1 hw
    exact decode_eq_of_decodeMrs hrow rfl hi
  case msrReg =>
    obtain ⟨hrow, h25, rfl, rfl, rfl, rfl, rfl⟩ := (eq_encode_msrReg_iff ..).1 hw
    exact decode_eq_of_decodeMsr hrow (if_neg (ne_true_of_eq_false h25)) hi
  case msrImm =>
    obtain ⟨hrow, h25, rfl, rfl, rfl, rfl, rfl⟩ := (eq_encode_msrImm_iff ..).1 hw
    exact decode_eq_of_decodeMsr hrow (if_pos h25) hi
  case and | eor | sub | rsb | add | adc | sbc | rsc | tst | teq | cmp | cmn | orr | mov | bic | mvn =>
    obtain ⟨hrow, rfl, hop, hs, rfl, rfl, rfl⟩ := (eq_encodeDp_iff ..).1 hw
    exact decode_eq_of_decodeDataProcessing hrow (by simp [decodeDataProcessing, hop, hs]) hi
  case reservedDp c op rn rd o =>
    obtain ⟨hrow, rfl, hop, hs, rfl, rfl, rfl⟩ := (eq_encodeDp_iff ..).1 hw
    refine decode_eq_of_decodeDataProcessing hrow ?_ hi
    clear hi hw
    obtain ⟨⟨op, hlt⟩⟩ := op
    interval_cases op <;> simp [decodeDataProcessing, hop, hs]

/-! ### The decoder is total (30_encoding.md rules R81, R84, R85) -/

theorem matchingRow_isSome_of_mem {w : Word} {r : DecoderRow} (hr : r ∈ decoderTable) (h : w &&& r.mask = r.value) :
    (matchingRow w).isSome = true := List.find?_isSome.2 ⟨r, hr, beq_iff_eq.2 h⟩

/-- Bits 27:24 alone choose a row that asks for no other bit. -/
theorem matchingRow_isSome (w : Word) : (matchingRow w).isSome = true := by
  have hspace : w &&& 0x0C000000 = 0x00000000 ∨ w &&& 0x0C000000 = 0x04000000 ∨ w &&& 0x0E000000 = 0x08000000 ∨
      w &&& 0x0F000000 = 0x0A000000 ∨ w &&& 0x0F000000 = 0x0B000000 ∨ w &&& 0x0C000000 = 0x0C000000 := by
    simp [and_mask_eq_iff, bitAt_and, field_succ_eq_iff, field_zero_eq_iff]
    grind
  obtain h | h | h | h | h | h := hspace
  · exact matchingRow_isSome_of_mem (r := ⟨0x0C000000, 0x00000000, .dataProcessing⟩) (by decide) h
  · exact matchingRow_isSome_of_mem (r := ⟨0x0C000000, 0x04000000, .singleDataTransfer⟩) (by decide) h
  · exact matchingRow_isSome_of_mem (r := ⟨0x0E000000, 0x08000000, .blockDataTransfer⟩) (by decide) h
  · exact matchingRow_isSome_of_mem (r := ⟨0x0F000000, 0x0A000000, .branchAndBranchWithLink⟩) (by decide) h
  · exact matchingRow_isSome_of_mem (r := ⟨0x0F000000, 0x0B000000, .branchAndBranchWithLink⟩) (by decide) h
  · exact matchingRow_isSome_of_mem (r := ⟨0x0C000000, 0x0C000000, .undefined⟩) (by decide) h

/-- No row looks at a bit outside 27:4. -/
theorem classify_congr {w w' : Word} (h : w &&& 0x0FFFFFF0 = w' &&& 0x0FFFFFF0) : classify w = classify w' := by
  have hmask : ∀ r ∈ decoderTable, 0x0FFFFFF0 &&& r.mask = r.mask := by decide
  have hrow : ∀ r ∈ decoderTable, w &&& r.mask = w' &&& r.mask := fun r hr => by
    rw [← hmask r hr, ← BitVec.and_assoc, h, BitVec.and_assoc]
  have hfind : matchingRow w = matchingRow w' := List.find?_congr fun r hr => by rw [hrow r hr]
  rw [classify, classify, hfind]

theorem classify_coprocessor {w : Word} (h11 : w &&& 0x0C000000 = 0x0C000000) (h1111 : w &&& 0x0F000000 ≠ 0x0F000000) :
    classify w = .undefined := by
  apply classify_of_covers
  simp [Kind.Covers, and_mask_eq_iff, bitAt_and, field_succ_eq_iff, field_zero_eq_iff] at h11 h1111 ⊢
  grind

/-- Settles O59: bits 27:24 alone find a row, no row's mask has a bit outside 27:4, and the kind Undefined covers the
words of the coprocessor space. -/
theorem decoderIsTotal : Obligations.DecoderIsTotal :=
  ⟨matchingRow_isSome, fun _ _ => classify_congr, fun _ => classify_coprocessor⟩

end Sys2Proof
end

section
/-!
PROOFS. The step and the pipeline (40_step_and_pipeline.md): the flush and the advance in the terms of Safety.lean, the
failed condition of any instruction, the entry checks of a step and the instruction it executes.
-/

namespace Sys2Proof.Machine

/-! ### The flush (40_step_and_pipeline.md rule R126) -/

theorem flush_frame (v : Word) (s : State) : Frame [] s (flush v s) :=
  ⟨(RegsKept.refl [] s).flush v, flush_spsr v s, flush_params v s, flush_inputs v s⟩

/-- In ARM state a flush is the end of an instruction that wrote the program counter once and made no data call. -/
theorem flush_ended {s : State} (v : Word) (hT : s.cpsr.t = false) : Ended [v] .sequential [] s (flush v s) := by
  obtain ⟨t, ht, hended, -⟩ := ((Track.refl hT).flush v).finish (f := true) (k := .sequential) rfl
  cases ht
  exact hended

/-- Settles O12: the frame holds in both states; the ARM-state flush ends an instruction with one program-counter write,
the Thumb-state flush makes no call. -/
theorem flushRefillsThePipeline : Obligations.FlushRefillsThePipeline := by
  intro target s
  refine ⟨flush_frame target s, flush_cpsr target s, fun a => ?mem, flush_ended target, flush_thumb_fields target⟩
  case mem => rw [flush_mem]

/-! ### The failed condition (40_step_and_pipeline.md rules R124, R125) -/

theorem advance_frame (k : AccessKind) (s : State) : Frame [] s (advance k s) :=
  ⟨(RegsKept.refl [] s).advance k, rfl, rfl, rfl⟩

theorem advance_ended (k : AccessKind) (s : State) : Ended [] k [] s (advance k s) :=
  ⟨by simp, rfl, rfl, rfl, rfl⟩

/-- Every instruction stands behind the gate of its own condition. -/
theorem exec_eq_gate (i : Instr) (s : State) : ∃ body : Mode → Result, exec i s = gate i.cond s body := by
  cases i <;> exact ⟨_, rfl⟩

/-- Where the gate does not pass and does not refuse, an instruction is the advance with kind N. -/
theorem exec_failed {i : Instr} {s : State} {md : Mode} (hm : Mode.ofBits s.cpsr.m = some md)
    (hc : condPassed i.cond s.cpsr = false) (hn : i.cond = .nv → s.params.condNvPolicy = .never) :
    exec i s = .next (advance .nonSequential s) := by
  obtain ⟨body, hgate⟩ := exec_eq_gate i s
  rw [hgate, gate_failed hm hc hn]

/-- Settles O13: a failed condition leaves of any instruction the advance, which writes R15 and the fetch kind alone. -/
theorem failedConditionOnlyAdvances : Obligations.FailedConditionOnlyAdvances := by
  intro i s md hm hnv hc
  exact ⟨advance .nonSequential s, exec_failed hm hc fun h => absurd h hnv, advance_frame _ s, rfl, rfl, rfl,
    advance_ended _ s⟩

/-! ### The checks at the start of a step (40_step_and_pipeline.md rule R121) -/

theorem step_invalidMode {s : State} (hr : s.nextInput.reset = false) (hm : Mode.ofBits s.cpsr.m = none) :
    step s = .refused .invalidMode := by
  simp [step, hr, hm]

theorem step_thumb {s : State} {md : Mode} (hr : s.nextInput.reset = false) (hm : Mode.ofBits s.cpsr.m = some md)
    (hT : s.cpsr.t = true) : step s = .refused .thumbNotSpecified := by
  simp [step, hr, hm, hT]

/-- Settles O16: the two checks come before anything but the reset, the mode first. -/
theorem stepEntryChecks : Obligations.StepEntryChecks :=
  fun _ hr => ⟨step_invalidMode hr, fun _ => step_thumb hr⟩

/-! ### The instruction a step executes (40_step_and_pipeline.md rules R120, R122, R123) -/

/-- Past the checks and the sampling, a step is the fetch, the shift and the instruction of `pipe[0]`. -/
theorem step_eq_exec {s : State} {md : Mode} (hr : s.nextInput.reset = false) (hm : Mode.ofBits s.cpsr.m = some md)
    (hT : s.cpsr.t = false) (hi : sampleInterrupts s.nextInput s.cpsr = none) :
    step s = exec (decode s.pipe0) (fetchShift (beginStep s)) := by
  simp [step, hr, hm, hT, hi]

theorem withFetchWord_pipe0 (s : State) (w : Word) : (s.withFetchWord 32 w.toNat).pipe0 = w := by
  show BitVec.ofNat 32 (w.toNat % 2 ^ 32) = w
  rw [Nat.mod_eq_of_lt w.isLt, BitVec.ofNat_toNat, BitVec.setWidth_eq]

/-- Settles O15: a step is `exec` after the fetch and shift, whose fields are read off; placing a word changes nothing
that the checks and the sampling look at. -/
theorem stepRunsTheDecodedInstruction : Obligations.StepRunsTheDecodedInstruction := by
  intro s md i hr hm hT hi
  constructor
  · rintro rfl
    exact ⟨fetchShift (beginStep s), step_eq_exec hr hm hT hi, rfl, rfl, rfl, rfl, rfl, rfl, rfl, rfl, rfl, rfl, rfl⟩
  · intro w
    have hstep := step_eq_exec (s := s.withFetchWord 32 w.toNat) hr hm hT hi
    rwa [withFetchWord_pipe0] at hstep

end Sys2Proof.Machine
end

section
/-!
PROOFS. The condition evaluator, the ALU and the barrel shifter (41_condition_shifter_alu.md): the pure functions an
instruction computes its condition, its operand and its result with.
-/

namespace Sys2Proof.Machine

/-! ### Conditions (41_condition_shifter_alu.md rules R140, R142) -/

/-- Settles O1: the sixteen numbers are looked up, and each condition is the row of the table as a Boolean. -/
theorem conditionTruthTable : Obligations.ConditionTruthTable := by
  refine ⟨by decide, fun p => ?_⟩
  simp [condPassed]

/-- Settles O14: every instruction stands behind the gate, which refuses the pattern under one policy; under the other
the pattern is a failed condition. -/
theorem reservedConditionPolicy : Obligations.ReservedConditionPolicy := by
  refine ⟨rfl, fun i s md hm hnv => ⟨fun hrefuse => ?refused, fun hnever => ?failed⟩⟩
  case refused =>
    obtain ⟨body, hgate⟩ := exec_eq_gate i s
    rw [hgate, hnv, gate_refused hm hrefuse]
  case failed =>
    have hfails : condPassed i.cond s.cpsr = false := by rw [hnv, condPassed]
    exact ⟨advance .nonSequential s, exec_failed hm hfails fun _ => hnever, advance_frame _ s, rfl, rfl, rfl,
      advance_ended _ s⟩

/-! ### Addition with carry (41_condition_shifter_alu.md rule R161) -/

theorem addWithCarry_value_toNat (a b : Word) (cin : Bool) :
    (addWithCarry a b cin).value.toNat = (a.toNat + b.toNat + cin.toNat) % 2 ^ 32 := BitVec.toNat_ofNat ..

theorem addWithCarry_c_iff (a b : Word) (cin : Bool) :
    (addWithCarry a b cin).c = true ↔ 2 ^ 32 ≤ a.toNat + b.toNat + cin.toNat := decide_eq_true_iff

theorem addWithCarry_v_iff (a b : Word) (cin : Bool) : (addWithCarry a b cin).v = true ↔
    a.toInt + b.toInt + (cin.toNat : Int) ≠ (addWithCarry a b cin).value.toInt := decide_eq_true_iff

/-- The sign bit says that the unsigned value is in the upper half. -/
theorem signBit_iff (x : Word) : x.getLsbD 31 = true ↔ 2 ^ 31 ≤ x.toNat := by
  rw [← BitVec.msb_eq_getLsbD_last, BitVec.msb_eq_decide, decide_eq_true_iff]

/-- Bit 31 of `~(a ^ b) & (a ^ r)`: the operands have one sign and the result the other. -/
theorem signFlip_iff (a b r : Word) : (~~~(a ^^^ b) &&& (a ^^^ r)).getLsbD 31 = true ↔
    (2 ^ 31 ≤ a.toNat ↔ 2 ^ 31 ≤ b.toNat) ∧ ¬(2 ^ 31 ≤ a.toNat ↔ 2 ^ 31 ≤ r.toNat) := by
  have hbits (x y z : Bool) : (!(x ^^ y) && (x ^^ z)) = true ↔ (x = true ↔ y = true) ∧ ¬(x = true ↔ z = true) := by
    revert x y z; decide
  rw [← signBit_iff, ← signBit_iff, ← signBit_iff, ← hbits]
  simp only [BitVec.getLsbD_and, BitVec.getLsbD_not, BitVec.getLsbD_xor, Nat.reduceLT, decide_true, Bool.true_and]

/-- A sum leaves the signed range exactly when operands of one sign give a result of the other. -/
theorem addWithCarry_v_eq_signFlip (a b : Word) (cin : Bool) : (addWithCarry a b cin).v =
    (~~~(a ^^^ b) &&& (a ^^^ (addWithCarry a b cin).value)).getLsbD 31 := by
  have hsum := addWithCarry_value_toNat a b cin
  have hcin : cin.toNat ≤ 1 := Bool.toNat_le cin
  rw [Bool.eq_iff_iff, addWithCarry_v_iff, signFlip_iff]
  generalize (addWithCarry a b cin).value = r at hsum
  simp only [BitVec.toInt_eq_toNat_cond]
  split_ifs <;> omega

/-- Settles O2: value, carry and the first form of overflow are the definition's, the second form compares signs. -/
theorem addWithCarryIsExact : Obligations.AddWithCarryIsExact := fun a b cin =>
  ⟨addWithCarry_value_toNat a b cin, addWithCarry_c_iff a b cin, addWithCarry_v_iff a b cin,
    addWithCarry_v_eq_signFlip a b cin⟩

/-! ### The sixteen operations (41_condition_shifter_alu.md rules R160, R162 to R164) -/

/-- The sum in the arithmetic of words. -/
theorem addWithCarry_value (a b : Word) (cin : Bool) :
    (addWithCarry a b cin).value = a + b + (if cin then 1 else 0) := by
  apply BitVec.eq_of_toNat_eq
  rw [addWithCarry_value_toNat]
  cases cin <;> simp [BitVec.toNat_add]

/-- Adding the complement subtracts, and a clear carry-in subtracts one more. -/
theorem addWithCarry_not_value (a b : Word) (cin : Bool) :
    (addWithCarry a (~~~b) cin).value = a - b - (if cin then 0 else 1) := by
  have hnot : a + ~~~b = a - b - 1#32 := by
    rw [BitVec.not_eq_neg_add, ← add_sub_assoc, ← sub_eq_add_neg]
  rw [addWithCarry_value, hnot]
  cases cin <;> simp

/-- After a subtraction the carry is the complement of the borrow. -/
theorem addWithCarry_not_c_iff (a b : Word) : (addWithCarry a (~~~b) true).c = true ↔ b.toNat ≤ a.toNat := by
  rw [addWithCarry_c_iff, BitVec.toNat_not, Bool.toNat_true]
  omega

/-- Every operation is a logical one, on the shifter's carry-out and the old V, or an addition with carry. -/
theorem alu_eq (op : AluOp) (a b : Word) (sc cin vOld : Bool) :
    (∃ r, alu op a b sc cin vOld = logicalOut r sc vOld) ∨ ∃ x y c, alu op a b sc cin vOld = addWithCarry x y c := by
  cases op
  case and | eor | tst | teq | orr | mov | bic | mvn => exact .inl ⟨_, rfl⟩
  case sub | rsb | add | adc | sbc | rsc | cmp | cmn => exact .inr ⟨_, _, _, rfl⟩

theorem alu_n (op : AluOp) (a b : Word) (sc cin vOld : Bool) :
    (alu op a b sc cin vOld).n = (alu op a b sc cin vOld).value.getLsbD 31 := by
  obtain ⟨r, h⟩ | ⟨x, y, c, h⟩ := alu_eq op a b sc cin vOld <;> rw [h] <;> rfl

theorem alu_z_iff (op : AluOp) (a b : Word) (sc cin vOld : Bool) :
    (alu op a b sc cin vOld).z = true ↔ (alu op a b sc cin vOld).value = 0 := by
  obtain ⟨r, h⟩ | ⟨x, y, c, h⟩ := alu_eq op a b sc cin vOld <;> rw [h] <;> exact beq_iff_eq

/-- Settles O3: N and Z are the result's in both forms of an operation; the logical rows of the table are its definition,
the arithmetic rows are sums and differences by the value of the addition with carry. -/
theorem aluOperationTable : Obligations.AluOperationTable := by
  intro a b sc cin vOld
  refine ⟨fun op => ⟨alu_n op .., alu_z_iff op ..⟩, ?logical, rfl, rfl, rfl, rfl, rfl, rfl, rfl, rfl, ?add,
    ⟨rfl, addWithCarry_value a b cin⟩, ?sub, ⟨rfl, ?rsb⟩, ⟨rfl, addWithCarry_not_value a b cin⟩,
    ⟨rfl, addWithCarry_not_value b a cin⟩⟩
  case logical => simp [alu, logicalOut]
  case add => simp [alu, addWithCarry_value]
  case sub => simp [alu, addWithCarry_not_value, addWithCarry_not_c_iff]
  case rsb => simp [alu, addWithCarry_not_value]

/-! ### The barrel shifter (41_condition_shifter_alu.md rules R151 to R155): each result is the shift by any number of
places, the cases of 32 and more among them -/

@[simp] theorem shiftLsl_value (v : Word) (n : Nat) : (shiftLsl v n).1 = v <<< n := by
  unfold shiftLsl
  split_ifs with h h32
  · rfl
  all_goals exact (BitVec.shiftLeft_eq_zero (by omega)).symm

@[simp] theorem shiftLsr_value (v : Word) (n : Nat) : (shiftLsr v n).1 = v >>> n := by
  unfold shiftLsr
  split_ifs with h h32
  · rfl
  all_goals exact (BitVec.ushiftRight_eq_zero (by omega)).symm

/-- From 32 places on only copies of the sign are left. -/
theorem sshiftRight_of_le (v : Word) {n : Nat} (h : 32 ≤ n) :
    v.sshiftRight n = if v.getLsbD 31 then 0xFFFFFFFF else 0 := by
  rw [← BitVec.msb_eq_getLsbD_last]
  split_ifs with hs
  · rw [BitVec.sshiftRight_eq_of_msb_true hs, BitVec.ushiftRight_eq_zero h]; rfl
  · rw [BitVec.sshiftRight_eq_of_msb_false (by simpa using hs), BitVec.ushiftRight_eq_zero h]; rfl

@[simp] theorem shiftAsr_value (v : Word) (n : Nat) : (shiftAsr v n).1 = v.sshiftRight n := by
  by_cases h : n < 32
  · rw [shiftAsr, if_pos h]
  · rw [shiftAsr, if_neg h, sshiftRight_of_le v (not_lt.1 h)]

/-- Bit `i` of a word turned right by `n` places stood `n` places up, counted modulo 32. -/
theorem getLsbD_rotateRight_word (v : Word) (n : Nat) {i : Nat} (hi : i < 32) :
    (v.rotateRight n).getLsbD i = v.getLsbD ((i + n) % 32) := by
  rw [BitVec.getLsbD_rotateRight]
  by_cases hwrap : i < 32 - n % 32
  · rw [decide_eq_true hwrap, cond_true, show n % 32 + i = (i + n) % 32 by omega]
  · rw [decide_eq_false hwrap, cond_false, decide_eq_true hi, Bool.true_and,
      show i - (32 - n % 32) = (i + n) % 32 by omega]

theorem rotateRight_wholeTurn (v : Word) {n : Nat} (h : n % 32 = 0) : v.rotateRight n = v := by
  apply BitVec.eq_of_getLsbD_eq
  intro i hi
  rw [getLsbD_rotateRight_word v n hi, show (i + n) % 32 = i by omega]

@[simp] theorem shiftRor_value (v : Word) (n : Nat) : (shiftRor v n).1 = v.rotateRight n := by
  by_cases h : n % 32 = 0
  · rw [shiftRor, if_pos h, rotateRight_wholeTurn v h]
  · rw [shiftRor, if_neg h, BitVec.rotateRight_mod_eq_rotateRight]

/-! The carry-out, below, at and above 32 places. -/

theorem shiftLsl_carry (v : Word) {n : Nat} (h : n ≤ 32) : (shiftLsl v n).2 = v.getLsbD (32 - n) := by
  obtain h | rfl := h.lt_or_eq
  · rw [shiftLsl, if_pos h]
  · rfl

theorem shiftLsl_carry_beyond (v : Word) {n : Nat} (h : 32 < n) : (shiftLsl v n).2 = false := by
  rw [shiftLsl, if_neg (by omega), if_neg (by omega)]

theorem shiftLsr_carry (v : Word) {n : Nat} (h : n ≤ 32) : (shiftLsr v n).2 = v.getLsbD (n - 1) := by
  obtain h | rfl := h.lt_or_eq
  · rw [shiftLsr, if_pos h]
  · rfl

theorem shiftLsr_carry_beyond (v : Word) {n : Nat} (h : 32 < n) : (shiftLsr v n).2 = false := by
  rw [shiftLsr, if_neg (by omega), if_neg (by omega)]

theorem shiftAsr_carry (v : Word) {n : Nat} (h : n < 32) : (shiftAsr v n).2 = v.getLsbD (n - 1) := by
  rw [shiftAsr, if_pos h]

theorem shiftAsr_carry_beyond (v : Word) {n : Nat} (h : 32 ≤ n) : (shiftAsr v n).2 = v.getLsbD 31 := by
  rw [shiftAsr, if_neg (not_lt.2 h)]

theorem shiftRor_carry (v : Word) (n : Nat) : (shiftRor v n).2 = v.getLsbD ((n + 31) % 32) := by
  by_cases h : n % 32 = 0
  · rw [shiftRor, if_pos h, show (n + 31) % 32 = 31 by omega]
  · rw [shiftRor, if_neg h, show (n + 31) % 32 = n % 32 - 1 by omega]

theorem shiftRrx_top (v : Word) (cin : Bool) : (shiftRrx v cin).1.getLsbD 31 = cin := by
  rw [shiftRrx, BitVec.getLsbD_append, if_neg (by decide), BitVec.getLsbD_ofBool]
  rfl

theorem shiftRrx_below (v : Word) (cin : Bool) {i : Nat} (hi : i < 31) :
    (shiftRrx v cin).1.getLsbD i = v.getLsbD (i + 1) := by
  rw [shiftRrx, BitVec.getLsbD_append, if_pos hi, BitVec.getLsbD_extractLsb', decide_eq_true hi, Bool.true_and, add_comm]

/-- Settles O4: the results are the shifts of the word by `n` places, as numbers or bit by bit; the carries are read off
in each range of `n`. -/
theorem barrelShifter : Obligations.BarrelShifter := by
  intro v n _
  refine ⟨⟨?lsl, shiftLsl_carry v, shiftLsl_carry_beyond v⟩, ⟨?lsr, shiftLsr_carry v, shiftLsr_carry_beyond v⟩,
    ⟨?asr, shiftAsr_carry v, shiftAsr_carry_beyond v⟩, ⟨fun i hi => ?ror, shiftRor_carry v n⟩,
    fun cin => ⟨shiftRrx_top v cin, fun _ => shiftRrx_below v cin, rfl⟩⟩
  case lsl => rw [shiftBy, shiftLsl_value, BitVec.toNat_shiftLeft, Nat.shiftLeft_eq]
  case lsr => rw [shiftBy, shiftLsr_value, BitVec.toNat_ushiftRight, Nat.shiftRight_eq_div_pow]
  case asr => rw [shiftBy, shiftAsr_value, BitVec.toInt_sshiftRight, Int.shiftRight_eq_div_pow,
    Nat.cast_pow, Nat.cast_ofNat]
  case ror => rw [shiftBy, shiftRor_value, getLsbD_rotateRight_word v n hi]

/-! ### Shift amounts and the rotated immediate (41_condition_shifter_alu.md rules R156 to R158) -/

theorem shiftByImm_of_ne_zero (ty : ShiftType) (v : Word) {amount : BitVec 5} (h : amount ≠ 0) (cin : Bool) :
    shiftByImm ty v amount cin = shiftBy ty v amount.toNat := if_neg h

theorem shiftByReg_eq (ty : ShiftType) (v rs : Word) (cin : Bool) : shiftByReg ty v rs cin =
    if rs.toNat % 256 = 0 then (v, cin) else shiftBy ty v (rs.toNat % 256) := by
  rw [shiftByReg, BitVec.extractLsb'_toNat, Nat.shiftRight_zero]

theorem getLsbD_rotatedImm (rot : BitVec 4) (imm8 : BitVec 8) {i : Nat} (hi : i < 32) :
    (rotatedImm rot imm8).getLsbD i = imm8.getLsbD ((i + 2 * rot.toNat) % 32) := by
  rw [rotatedImm, getLsbD_rotateRight_word _ _ hi, BitVec.getLsbD_setWidth,
    decide_eq_true (Nat.mod_lt _ (by decide)), Bool.true_and]

/-- Settles O5: the four meanings of the amount 0 and the carry of the immediate are the definitions', a register amount
is its low byte, and the immediate turns bit by bit. -/
theorem shiftAmountsAndImmediates : Obligations.ShiftAmountsAndImmediates := by
  intro v rs cin ty amount rot imm8
  refine ⟨rfl, rfl, rfl, rfl, fun h => shiftByImm_of_ne_zero ty v h cin, ?zero, ?places,
    fun i => getLsbD_rotatedImm rot imm8, rfl⟩
  case zero => exact fun h => by rw [shiftByReg_eq, if_pos h]
  case places => exact fun h => by rw [shiftByReg_eq, if_neg h]

end Sys2Proof.Machine
end

section
/-!
PROOFS. Data processing (42_data_processing.md): the equation of the handler for each kind of destination, and from it
what the sixteen operations do and leave unchanged; the refused operand; the reserved opcodes.
-/

namespace Sys2Proof.Machine

/-! ### The handler, by destination (42_data_processing.md rule R180) -/

/-- What the ALU answers for an operation on Rn and the operand. -/
def dpAlu (op : AluOp) (rn : Reg) (o : Operand2) (md : Mode) (s : State) : AluOut :=
  alu op (readReg md rn s) (operand2 o md s).1 (operand2 o md s).2 s.cpsr.c s.cpsr.v

section Handler
variable {op : AluOp} {sf : Bool} {rn rd : Reg} {o : Operand2} {md : Mode} {s : State}

theorem dataProcResult_compare (hop : op.isCompare = true) : dataProcResult op sf rn rd o md s =
    .next (advance s.params.nextFetchKind.dataProcessing (s.withCpsr (s.cpsr.withAlu (dpAlu op rn o md s)))) :=
  if_pos hop

/-- A register written, and CPSR with the flags of the ALU or as it was. -/
theorem dataProcResult_register (hop : op.isCompare = false) (hrd : rd ≠ 15) : dataProcResult op sf rn rd o md s =
    .next (advance s.params.nextFetchKind.dataProcessing ((writeReg md rd (dpAlu op rn o md s).value s).withCpsr
      (if sf then s.cpsr.withAlu (dpAlu op rn o md s) else s.cpsr))) := by
  simp only [dataProcResult, hop, hrd, Bool.false_eq_true, if_false]
  cases sf <;> rfl

theorem dataProcResult_pc (hop : op.isCompare = false) : dataProcResult op sf rn 15 o md s =
    if sf then returnFromException md (dpAlu op rn o md s).value s else .next (flush (dpAlu op rn o md s).value s) := by
  simp only [dataProcResult, hop, Bool.false_eq_true, if_false, if_true]
  rfl

end Handler

/-- Where no refusal applies, an operation that writes a register is the handler's result with its own S. -/
theorem exec_dataProcessing_writes {op : AluOp} {c : Cond} {sf : Bool} {rn rd : Reg} {o : Operand2} {md : Mode}
    {s : State} (hop : op.isCompare = false) (hr : Ready c md s) (hx : pcInRegisterShift op.readsRn rn o = false)
    (h2 : Allows (reservedBit7 o) s) :
    exec (Instr.dataProcessing op c sf rn rd o) s = dataProcResult op sf rn rd o md s := by
  rw [exec_dataProcessing_allowed hr hx h2 (.inl (by rw [hop, Bool.false_and])), hop, Bool.or_false]

/-! ### A register written (42_data_processing.md rules R182, R184) -/

theorem advance_writeReg_frame (rd : Reg) (md : Mode) (v : Word) (p : Psr) (k : AccessKind) (s : State) :
    Frame [phys rd md] s (advance k ((writeReg md rd v s).withCpsr p)) :=
  ⟨(((RegsKept.refl [] s).reg md rd v).of_regs rfl).advance k, rfl, rfl, rfl⟩

theorem advance_writeReg_ended {rd : Reg} (md : Mode) (v : Word) (p : Psr) (k : AccessKind) (s : State) (hrd : rd ≠ 15) :
    Ended [] k [] s (advance k ((writeReg md rd v s).withCpsr p)) :=
  ⟨by simp, congrArg (· + 4) (pc_writeReg md v s hrd), rfl, rfl, rfl⟩

/-- Settles O24: the register write, then CPSR as S says, then the advance, which writes neither. -/
theorem dataProcessingToRegister : Obligations.DataProcessingToRegister := by
  intro op c sf rn rd o md s hop hrd hr hx h2
  refine ⟨_, (exec_dataProcessing_writes hop hr hx h2).trans (dataProcResult_register hop hrd), ?value, ?kept, ?flags,
    advance_writeReg_frame rd md _ _ _ s, fun _ => rfl, rfl, advance_writeReg_ended md _ _ _ s hrd⟩
  case value =>
    rw [readReg_advance md _ _ hrd, readReg_withCpsr, readReg_writeReg, if_pos rfl]
    rfl
  case kept =>
    rintro rfl
    rfl
  case flags =>
    rintro rfl
    exact ⟨⟨rfl, rfl, rfl, rfl⟩, rfl, rfl, rfl, rfl⟩

/-- Settles O25: a comparison is a change of the four flags and the advance. -/
theorem comparisonsWriteFlagsOnly : Obligations.ComparisonsWriteFlagsOnly := by
  intro op c sf rn rd o md s hop hr hx h2 h15
  obtain ⟨hcompare, hreads⟩ := comparison_isCompare_readsRn op hop
  have hexec := exec_dataProcessing_allowed (sf := sf) (rd := rd) hr (by rw [hreads, hx]) h2
    (by rwa [hcompare, Bool.true_and])
  exact ⟨_, hexec.trans (dataProcResult_compare hcompare), ⟨rfl, rfl, rfl, rfl⟩, rfl, rfl, rfl, rfl,
    advance_frame _ (s.withCpsr _), fun _ => rfl, rfl, advance_ended _ (s.withCpsr _)⟩

/-! ### R15 written (42_data_processing.md rules R182, R183) -/

theorem flush_memKept (v : Word) (s : State) : MemKept s (flush v s) := fun a => by rw [flush_mem]

/-- Settles O26: Rd = R15 with S = 0 is the flush to the result. -/
theorem dataProcessingToPc : Obligations.DataProcessingToPc := by
  intro op c rn o md s hop hr hx h2
  have ⟨hT, _⟩ := hr
  exact ⟨_, (exec_dataProcessing_writes hop hr hx h2).trans (dataProcResult_pc hop), flush_cpsr _ s, flush_frame _ s,
    flush_memKept _ s, flush_freeCount _ hT, flush_ended _ hT⟩

section Return
variable {md : Mode} {e : ExcMode} {s : State}

theorem returnFromException_noSavedStatus (v : Word) (h : md.excMode = none) :
    returnFromException md v s = .refused .noSavedStatusRegister := by
  rw [returnFromException, h]

theorem returnFromException_invalidMode (v : Word) (h : md.excMode = some e)
    (hm : Mode.ofBits (s.spsr.get e).m = none) : returnFromException md v s = .refused .invalidMode := by
  simp only [returnFromException, h, hm]

theorem returnFromException_restores (v : Word) (h : md.excMode = some e)
    (hm : (Mode.ofBits (s.spsr.get e).m).isSome = true) :
    returnFromException md v s = .next (flush v (s.withCpsr (s.spsr.get e))) := by
  obtain ⟨m, hm⟩ := Option.isSome_iff_exists.1 hm
  simp only [returnFromException, h, hm]

end Return

/-- Settles O22: Rd = R15 with S = 1 is the return from an exception with the result as its target; the flush comes after
CPSR is restored, so the saved T decides its state. -/
theorem exceptionReturn : Obligations.ExceptionReturn := by
  intro op c rn o md s hop hr hx h2
  have hexec : exec (Instr.dataProcessing op c true rn 15 o) s =
      returnFromException md (dpAlu op rn o md s).value s :=
    (exec_dataProcessing_writes hop hr hx h2).trans (dataProcResult_pc hop)
  refine ⟨fun hnone => hexec.trans (returnFromException_noSavedStatus _ hnone), fun e he =>
    ⟨fun hinvalid => hexec.trans (returnFromException_invalidMode _ he hinvalid), fun hvalid => ?restored⟩⟩
  case restored =>
    exact ⟨_, hexec.trans (returnFromException_restores _ he hvalid), flush_cpsr _ _, flush_frame _ (s.withCpsr _),
      flush_memKept _ (s.withCpsr _), fun hT => ⟨flush_freeCount _ hT, flush_ended (s := s.withCpsr _) _ hT⟩,
      flush_thumb_fields (s := s.withCpsr _) _⟩

/-! ### The operand (42_data_processing.md rules R181, R185) -/

/-- Every operation but MOV and MVN reads Rn. -/
theorem readsRn_of_ne : ∀ op : AluOp, op ≠ .mov → op ≠ .mvn → op.readsRn = true := by
  intro op
  cases op <;> decide

theorem pcInRegisterShift_of_pc {op : AluOp} {rn rs rm : Reg} (bit7 : Bool) (ty : ShiftType)
    (h : rm = 15 ∨ rs = 15 ∨ (rn = 15 ∧ op ≠ .mov ∧ op ≠ .mvn)) :
    pcInRegisterShift op.readsRn rn (.shiftReg rs bit7 ty rm) = true := by
  obtain rfl | rfl | ⟨rfl, hmov, hmvn⟩ := h
  · simp [pcInRegisterShift]
  · simp [pcInRegisterShift]
  · simp [pcInRegisterShift, readsRn_of_ne op hmov hmvn]

/-- Settles O27: the refusal is the first test behind the gate; the three forms are the operand's definition. -/
theorem pcInRegisterShiftIsRefused : Obligations.PcInRegisterShiftIsRefused := by
  intro op c sf rn rd rs rm bit7 ty md s hr
  refine ⟨fun h => ?refused, rfl, fun _ => rfl, fun _ _ => rfl, readReg_15 md s⟩
  case refused => rw [exec_dataProcessing, gate_ready hr, dataProc, if_pos (pcInRegisterShift_of_pc bit7 ty h)]

/-- Where class U executes, bit 7 of a register-specified shift is not read. -/
theorem dataProc_bit7 (op : AluOp) (sf : Bool) (rn rd rs rm : Reg) (ty : ShiftType) (md : Mode) {s : State}
    (hs : s.params.strictUnpredictable = false) (bit7 : Bool) :
    dataProc op sf rn rd (.shiftReg rs bit7 ty rm) md s = dataProc op sf rn rd (.shiftReg rs false ty rm) md s := by
  rw [dataProc, dataProc, unlessStrict_allowed _ (.inl hs), unlessStrict_allowed (f := reservedBit7 _) _ (.inl hs)]
  rfl

/-- Settles O28: past the gate a reserved opcode is its class U test and the advance. -/
theorem reservedDataProcessingAdvances : Obligations.ReservedDataProcessingAdvances := by
  intro c md s hr hs
  refine ⟨fun op rn rd o => ⟨_, (gate_ready hr _).trans (unlessStrict_allowed _ (.inl hs)), rfl, advance_frame _ s, rfl,
    rfl, advance_ended _ s⟩, fun op sf rn rd rs rm ty => ?bit7⟩
  case bit7 =>
    rw [exec_dataProcessing, exec_dataProcessing, gate_ready hr, gate_ready hr, dataProc_bit7 _ _ _ _ _ _ _ _ hs]

end Sys2Proof.Machine
end

section
/-!
PROOFS. Branches (43_branch.md): what each of the three instructions answers, as one flush, and from it where it goes and
what it leaves unchanged.
-/

namespace Sys2Proof.Machine

section Branch
variable {c : Cond} {md : Mode} {s : State}

/-! ### B and BL (43_branch.md rules R210 to R212) -/

theorem exec_b (off : BitVec 24) (hr : Ready c md s) :
    exec (.b c off) s = .next (flush (BitVec.ofInt 32 (s.pc.toInt + 4 * off.toInt)) s) := by
  rw [← branchTarget_eq]
  exact gate_ready hr _

theorem exec_bl (off : BitVec 24) (hr : Ready c md s) :
    exec (.bl c off) s =
      .next (flush (BitVec.ofInt 32 (s.pc.toInt + 4 * off.toInt)) (writeReg md 14 (s.pc - 4) s)) := by
  rw [← branchTarget_eq]
  exact gate_ready hr _

theorem flush_writeReg_frame (md : Mode) (i : Reg) (v w : Word) (s : State) :
    Frame [phys i md] s (flush v (writeReg md i w s)) :=
  ⟨((RegsKept.refl [] s).reg md i w).flush v, flush_spsr v _, flush_params v _, flush_inputs v _⟩

theorem readReg_flush_writeReg {i : Reg} (md : Mode) (v w : Word) (s : State) (h : i ≠ 15) :
    readReg md i (flush v (writeReg md i w s)) = w := by
  rw [readReg_flush _ _ _ h, readReg_writeReg, if_pos rfl]

/-! ### BX (43_branch.md rule R213) -/

/-- Clearing bit 0 of the target beforehand changes nothing: a flush clears it in either state. -/
theorem flush_clearBit0 (v : Word) (s : State) : flush (v &&& 0xFFFFFFFE) s = flush v s := by
  cases hT : s.cpsr.t with
  | false =>
    have hword : wordAddr (v &&& 0xFFFFFFFE) = wordAddr v := BitVec.and_assoc v _ _
    rw [flush_arm _ hT, flush_arm _ hT, hword]
  | true =>
    have hhalf : v &&& 0xFFFFFFFE &&& 0xFFFFFFFE = v &&& 0xFFFFFFFE := by rw [BitVec.and_assoc, BitVec.and_self]
    rw [flush_thumb _ hT, flush_thumb _ hT, thumbFlush, thumbFlush, hhalf]

theorem exec_bx (rn : Reg) (hr : Ready c md s)
    (ha : Allows (rn == 15 || (readReg md rn s).extractLsb' 0 2 == 0b10#2) s) :
    exec (.bx c rn) s =
      .next (flush (readReg md rn s) (s.withCpsr { s.cpsr with t := (readReg md rn s).getLsbD 0 })) := by
  rw [← flush_clearBit0]
  exact (gate_ready hr _).trans (unlessStrict_allows ha)

end Branch

/-- Settles O29: both are one flush to the target, which makes no data call; BL writes R14 before it, and a flush leaves
R14 alone. -/
theorem branchesReachTheirTarget : Obligations.BranchesReachTheirTarget := by
  intro c off md s hr
  have ⟨hT, _⟩ := hr
  constructor
  · exact ⟨_, exec_b off hr, flush_frame _ s, flush_cpsr _ s, flush_memKept _ s, flush_freeCount _ hT, flush_ended _ hT⟩
  · exact ⟨_, exec_bl off hr, readReg_flush_writeReg md _ _ s (by decide), flush_writeReg_frame md 14 _ _ s,
      flush_cpsr _ _, flush_memKept _ (writeReg md 14 _ s), flush_freeCount _ hT,
      flush_ended (s := writeReg md 14 _ s) _ hT⟩

/-- Settles O30: the flush comes after T is written, so bit 0 of the register decides its state, and it clears that bit
itself. -/
theorem branchAndExchange : Obligations.BranchAndExchange := by
  intro c rn md s hr ha
  exact ⟨_, exec_bx rn hr ha, flush_cpsr _ _, flush_frame _ (s.withCpsr _), flush_memKept _ (s.withCpsr _),
    fun hARM => ⟨flush_freeCount _ hARM, flush_ended (s := s.withCpsr _) _ hARM⟩,
    flush_thumb_fields (s := s.withCpsr { s.cpsr with t := (readReg md rn s).getLsbD 0 }) _⟩

end Sys2Proof.Machine
end

section
/-!
PROOFS. Multiplies (44_multiply.md): the model's words are the exact numbers of the obligations modulo 2^32 and 2^64, and
past the gate and the class U tests an instruction is `mulResult` or `mullResult`, whose effect Laws/Instructions.lean has.
-/

namespace Sys2Proof.Machine

/-! ### The results as exact numbers (44_multiply.md rules R222, R223, R226, R228) -/

theorem mul_eq_ofNat (x y : Word) : x * y = BitVec.ofNat 32 (x.toNat * y.toNat) := by
  rw [BitVec.ofNat_mul, BitVec.ofNat_toNat, BitVec.ofNat_toNat, BitVec.setWidth_eq, BitVec.setWidth_eq]

theorem mul_add_eq_ofNat (x y z : Word) : x * y + z = BitVec.ofNat 32 (x.toNat * y.toNat + z.toNat) := by
  rw [BitVec.ofNat_add, ← mul_eq_ofNat, BitVec.ofNat_toNat, BitVec.setWidth_eq]

theorem unsignedProduct_add_accumulator (rdHi rdLo rs rm : Reg) (md : Mode) (s : State) :
    unsignedProduct rs rm md s + accumulator rdHi rdLo md s =
      BitVec.ofNat 64 ((readReg md rm s).toNat * (readReg md rs s).toNat +
        ((readReg md rdHi s).toNat * 2 ^ 32 + (readReg md rdLo s).toNat)) := by
  rw [BitVec.ofNat_add, unsignedProduct_eq, accumulator_eq]

theorem signedProduct_add_accumulator (rdHi rdLo rs rm : Reg) (md : Mode) (s : State) :
    signedProduct rs rm md s + accumulator rdHi rdLo md s =
      BitVec.ofInt 64 ((readReg md rm s).toInt * (readReg md rs s).toInt +
        ((readReg md rdHi s).toNat * 2 ^ 32 + (readReg md rdLo s).toNat : Nat)) := by
  rw [BitVec.ofInt_add, BitVec.ofInt_natCast, signedProduct_eq, accumulator_eq]

/-! ### The effect of an instruction from the shape of its meaning (44_multiply.md rules R220, R221, R224) -/

section Effect
variable {c : Cond} {md : Mode} {s : State} {i : Instr} {sf : Bool}

theorem multiply_effect {bit22 accumulates : Bool} {rd rn rs rm : Reg} {r : Word} (result : Mode → Word)
    (hi : exec i s = gate c s fun m => unlessStrict .u1 bit22 s <|
      unlessStrict .u11 (mulUnpredictable accumulates rd rn rs rm) s <| mulResult sf rd (result m) m s)
    (hr : Ready c md s) (h1 : Allows bit22 s) (h11 : Allows (mulUnpredictable accumulates rd rn rs rm) s)
    (hresult : result md = r) : ∃ t, exec i s = .next t ∧ MulEffect sf rd r md s t := by
  have ⟨hT, _⟩ := hr
  rw [hi, gate_ready hr, unlessStrict_allows h1, unlessStrict_allows h11, hresult]
  exact mulResult_effect hT

theorem longMultiply_effect {rdHi rdLo rs rm : Reg} {r : BitVec 64} (result : Mode → BitVec 64)
    (hi : exec i s = gate c s fun m => unlessStrict .u11 (mullUnpredictable rdHi rdLo rs rm) s <|
      mullResult sf rdHi rdLo (result m) m s)
    (hr : Ready c md s) (h11 : Allows (mullUnpredictable rdHi rdLo rs rm) s) (hresult : result md = r) :
    ∃ t, exec i s = .next t ∧ MullEffect sf rdHi rdLo r md s t := by
  have ⟨hT, _⟩ := hr
  rw [hi, gate_ready hr, unlessStrict_allows h11, hresult]
  exact mullResult_effect hT

end Effect

/-- Settles O31: MUL and MLA are the same tests and the same write; they differ in the word written and in whether Rn is
among the registers that must not be R15. -/
theorem multiplyAndAccumulate : Obligations.MultiplyAndAccumulate := by
  intro c bit22 sf rd rn rs rm md s hr h1
  constructor
  · intro hforms
    have h11 : Allows (mulUnpredictable false rd rn rs rm) s := by
      rwa [mulUnpredictable, Bool.false_and, Bool.or_false]
    exact multiply_effect (fun m => readReg m rm s * readReg m rs s) rfl hr h1 h11 (mul_eq_ofNat _ _)
  · intro (h11 : Allows (mulUnpredictable true rd rn rs rm) s)
    exact multiply_effect (fun m => readReg m rm s * readReg m rs s + readReg m rn s) rfl hr h1 h11
      (mul_add_eq_ofNat _ _ _)

/-- Settles O32: the four differ only in the 64-bit word written, each of which is its exact number modulo 2^64. -/
theorem longMultiplies : Obligations.LongMultiplies := by
  intro c sf rdHi rdLo rs rm md s hr h11
  refine ⟨?umull, ?umlal, ?smull, ?smlal⟩
  case umull =>
    exact longMultiply_effect (fun m => unsignedProduct rs rm m s) rfl hr h11 (unsignedProduct_eq rs rm md s)
  case umlal =>
    exact longMultiply_effect (fun m => unsignedProduct rs rm m s + accumulator rdHi rdLo m s) rfl hr h11
      (unsignedProduct_add_accumulator rdHi rdLo rs rm md s)
  case smull =>
    exact longMultiply_effect (fun m => signedProduct rs rm m s) rfl hr h11 (signedProduct_eq rs rm md s)
  case smlal =>
    exact longMultiply_effect (fun m => signedProduct rs rm m s + accumulator rdHi rdLo m s) rfl hr h11
      (signedProduct_add_accumulator rdHi rdLo rs rm md s)

end Sys2Proof.Machine
end

section
/-!
PROOFS. Single data transfer (45_single_data_transfer.md): past the gate and the class U tests an instruction is
`loadTransfer` or `storeTransfer`, whose effect Laws/Effects.lean has; a word or byte access has no alignment to fail, and
the T forms are the post-indexed ones with another W.
-/

namespace Sys2Proof.Machine

/-! ### W in the post-indexed forms (45_single_data_transfer.md rules R233, R234) -/

theorem unpredictableU8_postIndexedW (rn rd : Reg) (rm : Option Reg) :
    unpredictableU8 .postIndexedW rn rd rm = unpredictableU8 .postIndexed rn rd rm := rfl

theorem loadEffect_postIndexedW (ld : LoadKind) (up : Bool) (rn rd : Reg) (off : Word) (k : AccessKind) (md : Mode)
    (s : State) : LoadEffect ld .postIndexedW up rn rd off k md s = LoadEffect ld .postIndexed up rn rd off k md s := rfl

theorem storeEffect_postIndexedW (st : StoreKind) (up : Bool) (rn rd : Reg) (off : Word) (k : AccessKind) (md : Mode)
    (s : State) : StoreEffect st .postIndexedW up rn rd off k md s = StoreEffect st .postIndexed up rn rd off k md s :=
  rfl

/-! ### The effect of an instruction from the shape of its meaning (45_single_data_transfer.md rules R231 to R241) -/

section Transfer
variable {c : Cond} {md : Mode} {s : State} {i : Instr} {isByte : Bool} {ix : Indexing} {up : Bool} {rn rd : Reg}
  {off : SdtOffset}

theorem sdtLoad_effect {ld : LoadKind} (hi : exec i s = gate c s fun m => sdtLoad ld isByte ix up rn rd off m s)
    (haligned : ∀ a, ld.misaligned a = false) (hr : Ready c md s)
    (h8 : Allows (unpredictableU8 ix rn rd (sdtOffsetReg off)) s) (h14 : Allows (isByte && rd == 15) s) :
    ∃ t, exec i s = .next t ∧
      LoadEffect ld ix up rn rd (sdtOffset off md s) s.params.nextFetchKind.singleDataTransfer md s t := by
  have ⟨hT, _⟩ := hr
  rw [hi, gate_ready hr, sdtLoad, unlessStrict_allows h8, unlessStrict_allows h14]
  exact loadTransfer_effect hT (haligned _)

theorem sdtStore_effect {st : StoreKind} (hi : exec i s = gate c s fun m => sdtStore st isByte ix up rn rd off m s)
    (haligned : ∀ a, st.misaligned a = false) (hr : Ready c md s)
    (h8 : Allows (unpredictableU8 ix rn rd (sdtOffsetReg off)) s) (h14 : Allows (isByte && rd == 15) s) :
    ∃ t, exec i s = .next t ∧
      StoreEffect st ix up rn rd (sdtOffset off md s) s.params.nextFetchKind.singleDataTransfer md s t := by
  have ⟨hT, _⟩ := hr
  rw [hi, gate_ready hr, sdtStore, unlessStrict_allows h8, unlessStrict_allows h14]
  exact storeTransfer_effect hT (haligned _)

end Transfer

/-- A word transfer is never of the class U14 form, which is a byte's (45_single_data_transfer.md rule R240). -/
theorem allows_wordTransfer (rd : Reg) (s : State) : Allows (false && rd == 15) s := .inl (Bool.false_and _)

/-- Settles O33: LDR and LDRB are the load of their kind, which no alignment stops; LDRT and LDRBT are it post-indexed, a
form in which W makes no difference. -/
theorem wordAndByteLoads : Obligations.WordAndByteLoads := by
  intro c ix up rn rd off md s hr
  simp only [← unpredictableU8_postIndexedW, ← loadEffect_postIndexedW]
  refine ⟨fun h8 => ⟨?ldr, fun h14 => ?ldrb⟩, fun h8 => ⟨?ldrt, fun h14 => ?ldrbt⟩⟩
  case ldr => exact sdtLoad_effect rfl (fun _ => rfl) hr h8 (allows_wordTransfer rd s)
  case ldrb => exact sdtLoad_effect (isByte := true) rfl (fun _ => rfl) hr h8 h14
  case ldrt => exact sdtLoad_effect rfl (fun _ => rfl) hr h8 (allows_wordTransfer rd s)
  case ldrbt => exact sdtLoad_effect (isByte := true) rfl (fun _ => rfl) hr h8 h14

/-- Settles O34: the stores likewise. -/
theorem wordAndByteStores : Obligations.WordAndByteStores := by
  intro c ix up rn rd off md s hr
  simp only [← unpredictableU8_postIndexedW, ← storeEffect_postIndexedW]
  refine ⟨fun h8 => ⟨?str, fun h14 => ?strb⟩, fun h8 => ⟨?strt, fun h14 => ?strbt⟩⟩
  case str => exact sdtStore_effect rfl (fun _ => rfl) hr h8 (allows_wordTransfer rd s)
  case strb => exact sdtStore_effect (isByte := true) rfl (fun _ => rfl) hr h8 h14
  case strt => exact sdtStore_effect rfl (fun _ => rfl) hr h8 (allows_wordTransfer rd s)
  case strbt => exact sdtStore_effect (isByte := true) rfl (fun _ => rfl) hr h8 h14

end Sys2Proof.Machine
end

section
/-!
PROOFS. Halfword and signed transfer (46_halfword_transfer.md): past the gate and the class U8 and U9 tests an instruction
is `loadTransfer` or `storeTransfer`, whose effect at an aligned address Laws/Effects.lean has, and which an odd address
refuses; the reserved forms are a refusal behind the gate.
-/

namespace Sys2Proof.Machine

/-! ### An odd address (46_halfword_transfer.md rule R258) -/

theorem loadTransfer_misaligned {ld : LoadKind} {ix : Indexing} {up : Bool} {rn : Reg} {off : Word} {md : Mode}
    {s : State} (ha : ld.misaligned (transferAddr ix up (readReg md rn s) off) = true) (rd : Reg) (k : AccessKind) :
    loadTransfer ld ix up rn rd off k md s = .refused .misalignedHalfword := if_pos ha

theorem storeTransfer_misaligned {st : StoreKind} {ix : Indexing} {up : Bool} {rn : Reg} {off : Word} {md : Mode}
    {s : State} (ha : st.misaligned (transferAddr ix up (readReg md rn s) off) = true) (rd : Reg) (k : AccessKind) :
    storeTransfer st ix up rn rd off k md s = .refused .misalignedHalfword := if_pos ha

/-! ### The shape of a meaning (46_halfword_transfer.md rules R251, R252) -/

/-- What every halfword and signed transfer is: the gate, the class U8 test with the offset register if there is one, the
class U9 test, and the transfer. -/
def halfTransfer (c : Cond) (ix : Indexing) (rn rd : Reg) (rm : Option Reg) (s : State) (transfer : Mode → Result) :
    Result :=
  gate c s fun md =>
    unlessStrict .u8 (unpredictableU8 ix rn rd rm) s <|
    unlessStrict .u9 (unpredictableU9 ix rd) s <|
    transfer md

/-- A halfword or signed load; the offset depends on the mode where it is a register's. -/
def halfLoad (ld : LoadKind) (c : Cond) (ix : Indexing) (up : Bool) (rn rd : Reg) (rm : Option Reg) (off : Mode → Word)
    (s : State) : Result :=
  halfTransfer c ix rn rd rm s fun md =>
    loadTransfer ld ix up rn rd (off md) s.params.nextFetchKind.halfwordTransfer md s

/-- A halfword store. -/
def halfStore (c : Cond) (ix : Indexing) (up : Bool) (rn rd : Reg) (rm : Option Reg) (off : Mode → Word) (s : State) :
    Result :=
  halfTransfer c ix rn rd rm s fun md =>
    storeTransfer .half ix up rn rd (off md) s.params.nextFetchKind.halfwordTransfer md s

section Transfer
variable {c : Cond} {md : Mode} {s : State} {i : Instr} {ld : LoadKind} {ix : Indexing} {up : Bool} {rn rd : Reg}
  {rm : Option Reg}

theorem halfTransfer_allowed (hr : Ready c md s) (h8 : Allows (unpredictableU8 ix rn rd rm) s)
    (h9 : Allows (unpredictableU9 ix rd) s) (transfer : Mode → Result) :
    halfTransfer c ix rn rd rm s transfer = transfer md := by
  rw [halfTransfer, gate_ready hr, unlessStrict_allows h8, unlessStrict_allows h9]

theorem halfLoad_effect (off : Mode → Word) (hi : exec i s = halfLoad ld c ix up rn rd rm off s) (hr : Ready c md s)
    (h8 : Allows (unpredictableU8 ix rn rd rm) s) (h9 : Allows (unpredictableU9 ix rd) s)
    (ha : ld.misaligned (transferAddr ix up (readReg md rn s) (off md)) = false) :
    ∃ t, exec i s = .next t ∧
      LoadEffect ld ix up rn rd (off md) s.params.nextFetchKind.halfwordTransfer md s t := by
  have ⟨hT, _⟩ := hr
  rw [hi, halfLoad, halfTransfer_allowed hr h8 h9]
  exact loadTransfer_effect hT ha

theorem halfStore_effect (off : Mode → Word) (hi : exec i s = halfStore c ix up rn rd rm off s) (hr : Ready c md s)
    (h8 : Allows (unpredictableU8 ix rn rd rm) s) (h9 : Allows (unpredictableU9 ix rd) s)
    (ha : oddAddress ix up rn (off md) md s = false) :
    ∃ t, exec i s = .next t ∧
      StoreEffect .half ix up rn rd (off md) s.params.nextFetchKind.halfwordTransfer md s t := by
  have ⟨hT, _⟩ := hr
  rw [hi, halfStore, halfTransfer_allowed hr h8 h9]
  exact storeTransfer_effect hT ha

theorem halfLoad_misaligned (off : Mode → Word) (hi : exec i s = halfLoad ld c ix up rn rd rm off s)
    (hr : Ready c md s) (h8 : Allows (unpredictableU8 ix rn rd rm) s) (h9 : Allows (unpredictableU9 ix rd) s)
    (ha : ld.misaligned (transferAddr ix up (readReg md rn s) (off md)) = true) :
    exec i s = .refused .misalignedHalfword := by
  rw [hi, halfLoad, halfTransfer_allowed hr h8 h9]
  exact loadTransfer_misaligned ha rd _

theorem halfStore_misaligned (off : Mode → Word) (hi : exec i s = halfStore c ix up rn rd rm off s) (hr : Ready c md s)
    (h8 : Allows (unpredictableU8 ix rn rd rm) s) (h9 : Allows (unpredictableU9 ix rd) s)
    (ha : oddAddress ix up rn (off md) md s = true) : exec i s = .refused .misalignedHalfword := by
  rw [hi, halfStore, halfTransfer_allowed hr h8 h9]
  exact storeTransfer_misaligned (st := .half) ha rd _

end Transfer

/-- Settles O35: the six are the load of their kind; a byte has no alignment to fail, and that of a halfword is the
address bit 0 of the premise. -/
theorem halfwordAndSignedLoads : Obligations.HalfwordAndSignedLoads := by
  intro c ix up rn rd rm imm md s hr h9
  refine ⟨fun h8 => ⟨?ldrsbReg, fun heven => ⟨?ldrhReg, ?ldrshReg⟩⟩,
    fun h8 => ⟨?ldrsbImm, fun heven => ⟨?ldrhImm, ?ldrshImm⟩⟩⟩
  case ldrsbReg => exact halfLoad_effect (fun m => readReg m rm s) rfl hr h8 h9 rfl
  case ldrhReg => exact halfLoad_effect (fun m => readReg m rm s) rfl hr h8 h9 heven
  case ldrshReg => exact halfLoad_effect (fun m => readReg m rm s) rfl hr h8 h9 heven
  case ldrsbImm => exact halfLoad_effect (fun _ => imm.setWidth 32) rfl hr h8 h9 rfl
  case ldrhImm => exact halfLoad_effect (fun _ => imm.setWidth 32) rfl hr h8 h9 heven
  case ldrshImm => exact halfLoad_effect (fun _ => imm.setWidth 32) rfl hr h8 h9 heven

/-- Settles O36: both forms are the halfword store. -/
theorem halfwordStores : Obligations.HalfwordStores := by
  intro c ix up rn rd rm imm md s hr h9
  constructor
  · intro h8 heven
    exact halfStore_effect (fun m => readReg m rm s) rfl hr h8 h9 heven
  · intro h8 heven
    exact halfStore_effect (fun _ => imm.setWidth 32) rfl hr h8 h9 heven

/-- Settles O37: the alignment is the first test of a transfer, behind the class U tests. -/
theorem oddHalfwordAddressIsRefused : Obligations.OddHalfwordAddressIsRefused := by
  intro c ix up rn rd rm imm md s hr h9
  refine ⟨fun h8 hodd => ⟨?ldrhReg, ?ldrshReg, ?strhReg⟩, fun h8 hodd => ⟨?ldrhImm, ?ldrshImm, ?strhImm⟩⟩
  case ldrhReg => exact halfLoad_misaligned (ld := .half) (fun m => readReg m rm s) rfl hr h8 h9 hodd
  case ldrshReg => exact halfLoad_misaligned (ld := .signedHalf) (fun m => readReg m rm s) rfl hr h8 h9 hodd
  case strhReg => exact halfStore_misaligned (fun m => readReg m rm s) rfl hr h8 h9 hodd
  case ldrhImm => exact halfLoad_misaligned (ld := .half) (fun _ => imm.setWidth 32) rfl hr h8 h9 hodd
  case ldrshImm => exact halfLoad_misaligned (ld := .signedHalf) (fun _ => imm.setWidth 32) rfl hr h8 h9 hodd
  case strhImm => exact halfStore_misaligned (fun _ => imm.setWidth 32) rfl hr h8 h9 hodd

/-- Settles O38: the six have one meaning, the refusal straight behind the gate with no class U test before it. -/
theorem reservedHalfwordFormsAreRefused : Obligations.ReservedHalfwordFormsAreRefused := by
  intro c ix up load rn rd rm imm md s hr
  have hrefused := gate_ready hr fun _ => .refused .reservedHalfwordForm
  exact ⟨hrefused, hrefused, hrefused, hrefused, hrefused, hrefused⟩

end Sys2Proof.Machine
end

section
/-!
PROOFS. Exceptions (60_exceptions.md) and the reset operation (70_reset_and_hazards.md): entry and the traps that make it,
the sampling of the interrupt inputs, how User mode is left, the return of a handler.  What entry does field by field is
`takeException_entered` of Laws/Moves.lean.
-/

namespace Sys2Proof.Machine

/-! ### Entry and the traps (60_exceptions.md rules R310, R316; 48_swap_swi_undefined.md rules R282 to R284) -/

/-- Settles O20: entry is `Entered`, and the seven rows of the table are those of the model. -/
theorem exceptionEntry : Obligations.ExceptionEntry :=
  ⟨takeException_entered, rfl, rfl, rfl, rfl, rfl, rfl, rfl⟩

/-- Settles O21: behind the gate each of the four words is the entry of its exception and reads no other bit. -/
theorem trapsEnterTheirHandler : Obligations.TrapsEnterTheirHandler := by
  intro c md s hr
  have htrap (x : Exc) : ∃ t, gate c s (fun _ => .next (takeException x (s.pc - 4) s)) = .next t ∧
      Entered x.mode x.vector (s.pc - 4) x.setsF s t :=
    ⟨_, gate_ready hr _, takeException_entered x (s.pc - 4) s⟩
  exact ⟨fun _ => htrap .swi, fun _ _ => htrap .undefined, fun _ => htrap .undefined, fun _ => htrap .undefined⟩

/-! ### The interrupt inputs (60_exceptions.md rules R315, R322) -/

theorem sampleInterrupts_fiq {i : StepInput} {p : Psr} (h : i.fiq = true ∧ p.f = false) :
    sampleInterrupts i p = some .fiq := by
  simp [sampleInterrupts, h]

theorem sampleInterrupts_irq {i : StepInput} {p : Psr} (hfiq : ¬(i.fiq = true ∧ p.f = false))
    (hirq : i.irq = true ∧ p.i = false) : sampleInterrupts i p = some .irq := by
  simp [sampleInterrupts, hfiq, hirq]

theorem sampleInterrupts_none {i : StepInput} {p : Psr} (hfiq : ¬(i.fiq = true ∧ p.f = false))
    (hirq : ¬(i.irq = true ∧ p.i = false)) : sampleInterrupts i p = none := by
  simp [sampleInterrupts, hfiq, hirq]

/-- A step that takes an interrupt is its entry and no more. -/
theorem step_interrupted {s : State} {md : Mode} {x : Exc} (hr : s.nextInput.reset = false)
    (hm : Mode.ofBits s.cpsr.m = some md) (hT : s.cpsr.t = false) (hx : sampleInterrupts s.nextInput s.cpsr = some x) :
    ∃ t, step s = .next t ∧ Entered x.mode x.vector (s.pc - 4) x.setsF (beginStep s) t :=
  ⟨_, by simp [step, hr, hm, hT, hx], takeException_entered x (s.pc - 4) (beginStep s)⟩

/-- Settles O17: the three premises are the three answers of the sampling. -/
theorem interruptSampling : Obligations.InterruptSampling := by
  intro s md hr hm hT
  refine ⟨fun hfiq => ?fiq, fun hfiq hirq => ?irq, fun hfiq hirq => ?none⟩
  case fiq => exact step_interrupted hr hm hT (sampleInterrupts_fiq hfiq)
  case irq => exact step_interrupted hr hm hT (sampleInterrupts_irq hfiq hirq)
  case none => exact step_eq_exec hr hm hT (sampleInterrupts_none hfiq hirq)

/-! ### Reset (70_reset_and_hazards.md rule R350) -/

theorem step_reset {s : State} (h : s.nextInput.reset = true) : step s = .next (resetCore (beginStep s)) := by
  simp [step, h]

/-- The reset writes no general register but R14_svc and R15. -/
theorem resetCore_regsKept (s : State) : RegsKept [.r14Svc] s (resetCore s) := by
  intro p h15 hp
  have hlink : p ≠ .r14Svc := fun e => hp (List.mem_singleton.2 e)
  exact (flush_get _ _ h15).trans (RegFile.get_set_ne _ _ hlink)

/-- The reset writes no SPSR but SPSR_svc. -/
theorem resetCore_spsr (s : State) {e : ExcMode} (h : e ≠ .svc) : (resetCore s).spsr.get e = s.spsr.get e :=
  (SpsrFile.get_set s.spsr .svc e _).trans (if_neg h)

/-- The reset ends as an instruction that wrote the program counter with the vector 0. -/
theorem resetCore_ended (s : State) : Ended [0] .sequential [] s (resetCore s) := by
  obtain ⟨-, -, -, -, -, hmem, -, -, hcalls, -⟩ := resetCore_fields s
  exact ⟨by simpa [hmem] using hcalls, rfl, rfl, rfl, rfl⟩

/-- Settles O18: the reset comes before every check of a step, and its fields are those of `resetCore`. -/
theorem resetOperation : Obligations.ResetOperation := by
  refine ⟨fun s => step_reset, fun s => ?_⟩
  obtain ⟨hm, hi, hf, hT, hpc, hmem, hparams, hinputs, -, -⟩ := resetCore_fields s
  exact ⟨resetCore s, rfl, hm, hi, hf, hT, hpc, resetCore_ended s, resetCore_regsKept s, hmem, hparams, hinputs,
    fun _ => resetCore_spsr s⟩

/-! ### How User mode is left (60_exceptions.md rule R332) -/

/-- The state is that of an exception entry other than an abort: the mode of the exception, ARM state, IRQ masked and FIQ
where the exception says so, the pipeline filled from the vector. -/
def AtHandler (t : State) : Prop :=
  ∃ x : Exc, x ≠ .prefetchAbort ∧ x ≠ .dataAbort ∧ t.cpsr.m = x.mode.mode.bits ∧ t.cpsr.t = false ∧
    t.cpsr.i = true ∧ (x.setsF = true → t.cpsr.f = true) ∧ t.pc = x.vector + 8 ∧ t.pipe0 = t.mem.read32 x.vector

theorem resetCore_atHandler (s : State) : AtHandler (resetCore s) :=
  ⟨.reset, by decide, by decide, rfl, rfl, rfl, fun _ => rfl, rfl, rfl⟩

theorem takeException_atHandler {x : Exc} (hp : x ≠ .prefetchAbort) (hd : x ≠ .dataAbort) (lr : Word) (s : State) :
    AtHandler (takeException x lr s) := by
  obtain ⟨-, -, hcpsr, -, -, -, -, -, -, -, hpc, -, h0, -⟩ := takeException_entered x lr s
  exact ⟨x, hp, hd, by rw [hcpsr], by rw [hcpsr], by rw [hcpsr], fun hf => by simp [hcpsr, hf],
    hpc.trans (congrArg (· + 8) x.wordAddr_vector), h0.trans (congrArg _ x.wordAddr_vector)⟩

/-- From User mode an instruction keeps the mode or traps: it has no SPSR to return to or to write, and an MSR may not
select the control byte. -/
theorem exec_user {i : Instr} {s t : State} (h : exec i s = .next t) (hu : Mode.ofBits s.cpsr.m = some .user) :
    t.cpsr.m = s.cpsr.m ∨ AtHandler t := by
  have isUser {md : Mode} (hm : Mode.ofBits s.cpsr.m = some md) : md = .user := Option.some.inj (hm.symm.trans hu)
  cases exec_shape h with
  | failed => exact .inl rfl
  | built _ _ hf =>
    obtain ⟨-, -, -, hm⟩ := hf.control
    exact .inl hm
  | exchanged => exact .inl (by simp)
  | trapped _ _ hx =>
    right
    rcases hx with rfl | rfl <;> exact takeException_atHandler (by decide) (by decide) _ s
  | returned _ _ _ hm he =>
    rw [isUser hm] at he
    cases he
  | wroteSpsr => exact .inl rfl
  | wroteCpsr fmask w _ _ _ hm hcontrol =>
    obtain ⟨-, -, -, hkept⟩ := Psr.merged_control s.cpsr fmask w (hcontrol (isUser hm))
    exact .inl hkept

/-- Settles O47: the reset and an interrupt are entries of their exceptions, and `exec_user` says it of an
instruction. -/
theorem userModeIsLeftOnlyByExceptions : Obligations.UserModeIsLeftOnlyByExceptions := by
  intro s t h hu
  rcases step_cases h with ⟨_, rfl⟩ | ⟨_, _, _, ⟨x, hx, rfl⟩ | ⟨_, he⟩⟩
  · exact .inr (resetCore_atHandler _)
  · right
    rcases sampleInterrupts_some hx with rfl | rfl <;> exact takeException_atHandler (by decide) (by decide) _ _
  · exact (exec_user he hu).imp_left fun hm => by rw [hm]; exact hu

/-! ### The return of a handler (60_exceptions.md rules R317, R319) -/

theorem decode_movsPcR14 : decode 0xE1B0F00E = Instr.dataProcessing .mov .al true 0 15 (.shiftImm 0 .lsl 14) := by decide

theorem decode_subsPcR14 : decode 0xE25EF004 = Instr.dataProcessing .sub .al true 14 15 (.imm 0 4) := by decide

/-- The state `v` is one of the handler of `x` in ARM state, entered from `s`, with the SPSR and R14 of its mode as entry
left them. -/
structure InHandler (x : Exc) (s v : State) : Prop where
  mode : v.cpsr.m = x.mode.mode.bits
  arm : v.cpsr.t = false
  saved : v.spsr.get x.mode = s.cpsr
  link : readReg x.mode.mode 14 v = s.pc - 4

theorem InHandler.ready {x : Exc} {s v : State} (h : InHandler x s v) : Ready .al x.mode.mode v :=
  ⟨h.arm, by rw [h.mode, Mode.ofBits_bits], rfl⟩

theorem MemKept.read32 {s t : State} (h : MemKept s t) (a : Word) : t.mem.read32 a = s.mem.read32 a := by
  rw [Memory.read32, h, h, h, h, Memory.read32]

/-- A word address stays as it is when bits 1:0 are cleared. -/
theorem wordAddr_of_aligned {a : Word} (h : a.extractLsb' 0 2 = 0) : wordAddr a = a := by
  have hlow : a.toNat % 4 = 0 := by rw [← toNat_low2, h]; rfl
  have ha := wordAddr_add_low2 a
  rwa [hlow, BitVec.add_zero] at ha

theorem wordAligned_sub {a : Word} (h : a.extractLsb' 0 2 = 0) {n : Word} (hn : n.toNat % 4 = 0) :
    (a - n).extractLsb' 0 2 = 0 := by
  have hlow : a.toNat % 4 = 0 := by rw [← toNat_low2, h]; rfl
  apply BitVec.eq_of_toNat_eq
  rw [toNat_low2, BitVec.toNat_sub, show (0 : BitVec 2).toNat = 0 from rfl]
  omega

/-- A restoring instruction whose result is the word address `a`, in a handler: the interrupted CPSR, and the pipeline
filled from `a`. -/
theorem InHandler.returns {x : Exc} {md : Mode} {s v : State} {op : AluOp} {rn : Reg} {o : Operand2} {a : Word}
    (h : InHandler x s v) (hm : Mode.ofBits s.cpsr.m = some md) (hT : s.cpsr.t = false) (hop : op.isCompare = false)
    (hx : pcInRegisterShift op.readsRn rn o = false) (h2 : reservedBit7 o = false)
    (hresult : (dpAlu op rn o x.mode.mode v).value = a) (ha : wordAddr a = a) :
    ∃ t, exec (Instr.dataProcessing op .al true rn 15 o) v = .next t ∧ t.cpsr = s.cpsr ∧ t.pc = a + 8 ∧
      t.pipe0 = v.mem.read32 a := by
  obtain ⟨-, hreturn⟩ := exceptionReturn op .al rn o x.mode.mode v hop h.ready hx (.inl h2)
  obtain ⟨-, hrestored⟩ := hreturn x.mode (ExcMode.excMode_mode _)
  rw [h.saved] at hrestored
  obtain ⟨t, hexec, hcpsr, -, hmem, harm, -⟩ := hrestored (by rw [hm]; rfl)
  obtain ⟨-, -, hpc, -, h0, -⟩ := harm hT
  have htarget : wordAddr (dpAlu op rn o x.mode.mode v).value = a := by rw [hresult, ha]
  exact ⟨t, hexec, hcpsr, hpc.trans (congrArg (· + 8) htarget),
    (h0.trans (congrArg _ htarget)).trans (hmem.read32 a)⟩

/-- Settles O23: the two words are data-processing instructions with S = 1 and Rd = R15 whose results are R14 and
R14 - 4. -/
theorem handlersReturn : Obligations.HandlersReturn := by
  intro x md s v hm hT haligned hmode harm hsaved hlink
  obtain ⟨hspsr, -, hcpsr, hr14, -⟩ := takeException_entered x (s.pc - 4) s
  have hv : InHandler x s v := ⟨hmode.trans (by rw [hcpsr]), harm, hsaved.trans hspsr, hlink.trans hr14⟩
  constructor
  · rw [decode_movsPcR14]
    intro _
    have hresult : (dpAlu .mov 0 (.shiftImm 0 .lsl 14) x.mode.mode v).value = s.pc - 4 := hv.link
    obtain ⟨t, hexec, hcpsr, hpc, h0⟩ :=
      hv.returns hm hT rfl rfl rfl hresult (wordAddr_of_aligned (wordAligned_sub haligned rfl))
    exact ⟨t, hexec, hcpsr, hpc.trans (by bv_omega), h0⟩
  · rw [decode_subsPcR14]
    intro _
    have hresult : (dpAlu .sub 14 (.imm 0 4) x.mode.mode v).value = s.pc - 8 := by
      refine (addWithCarry_not_value _ _ true).trans ?_
      rw [hv.link]
      show s.pc - 4 - 4 - 0 = s.pc - 8
      bv_omega
    obtain ⟨t, hexec, hcpsr, hpc, h0⟩ :=
      hv.returns hm hT rfl rfl rfl hresult (wordAddr_of_aligned (wordAligned_sub haligned rfl))
    exact ⟨t, hexec, hcpsr, hpc.trans (by bv_omega), h0⟩

end Sys2Proof.Machine
end

section
/-!
PROOFS. What is left of the registers (10_state.md, 70_reset_and_hazards.md rule R358) and of the encoding
(30_encoding.md): writes through one mode read through another, and example words of every family.
-/

namespace Sys2Proof.Machine

/-- Read after write through any two modes. -/
theorem readReg_writeReg_modes (i j : Reg) (md md' : Mode) (v : Word) (s : State) :
    readReg md' j (writeReg md i v s) = if phys j md' = phys i md then v else readReg md' j s :=
  RegFile.get_set s.regs (phys i md) (phys j md') v

/-- No name reaches in Fiq mode a register that User mode names R8 to R14. -/
theorem phys_user_ne_fiq {i : Reg} (h8 : 8 ≤ i.toNat) (h14 : i.toNat ≤ 14) (j : Reg) :
    phys i .user ≠ phys j .fiq := by
  intro h
  rcases (registerBanks i j .user .fiq).1 h with ⟨-, hlow | hpc | ⟨-, -, hbank⟩ | ⟨-, -, hbank⟩⟩
  · omega
  · omega
  · exact absurd (hbank.2 rfl) (by decide)
  · exact absurd hbank (by decide)

/-- A list of writes made in Fiq mode leaves the User bank of R8 to R14 as it was. -/
theorem readReg_user_fiqWrites {i : Reg} (h8 : 8 ≤ i.toNat) (h14 : i.toNat ≤ 14) (writes : List (Reg × Word))
    (s : State) : readReg .user i (writes.foldl (fun u w => writeReg .fiq w.1 w.2 u) s) = readReg .user i s := by
  induction writes generalizing s with
  | nil => rfl
  | cons w ws ih => rw [List.foldl_cons, ih, readReg_writeReg_modes, if_neg (phys_user_ne_fiq h8 h14 w.1)]

/-- Settles O7: a read looks at one physical register, and Fiq mode reaches none of the User bank's R8 to R14; CPSR holds
no register. -/
theorem banksDoNotMix : Obligations.BanksDoNotMix :=
  ⟨readReg_writeReg_modes, fun writes p _ s _ h8 h14 => readReg_user_fiqWrites h8 h14 writes (s.withCpsr p)⟩

/-- Settles O60: each word is a closed term that the decoder evaluates. -/
theorem decodedWords : Obligations.DecodedWords := by
  unfold Obligations.DecodedWords
  decide

end Sys2Proof.Machine
end

section
/-!
PROOFS. Status-register transfer (49_psr_transfer.md) and swap (48_swap_swi_undefined.md): MSR case by case, and the
instructions that end with one register write, which may be a program-counter write.
-/

namespace Sys2Proof.Machine

/-! ### MSR (49_psr_transfer.md rules R295, R297 to R301) -/

section Msr
variable {fmask : BitVec 4} {w : Word} {md : Mode} {s : State}

theorem msrToCpsr_userControl (hu : md = .user) (hc : fmask.getLsbD 0 = true) :
    msrToCpsr fmask w md s = .refused .userModePrivilegedWrite :=
  if_pos ⟨hu, hc⟩

theorem msrToCpsr_stateBit (hu : ¬(md = .user ∧ fmask.getLsbD 0 = true))
    (ht : (s.cpsr.merged (msrMask fmask) w).t ≠ s.cpsr.t) :
    msrToCpsr fmask w md s = .refused .stateBitChangeByMsr := by
  rw [msrToCpsr, if_neg hu, if_pos ht]

theorem msrToCpsr_invalidMode (hu : ¬(md = .user ∧ fmask.getLsbD 0 = true))
    (ht : (s.cpsr.merged (msrMask fmask) w).t = s.cpsr.t)
    (hm : Mode.ofBits (s.cpsr.merged (msrMask fmask) w).m = none) :
    msrToCpsr fmask w md s = .refused .invalidMode := by
  simp only [msrToCpsr, if_neg hu, ht, hm, ne_eq, not_true_eq_false, if_false]

theorem msrToCpsr_writes (hu : ¬(md = .user ∧ fmask.getLsbD 0 = true))
    (ht : (s.cpsr.merged (msrMask fmask) w).t = s.cpsr.t)
    (hm : (Mode.ofBits (s.cpsr.merged (msrMask fmask) w).m).isSome = true) :
    msrToCpsr fmask w md s =
      .next (advance s.params.nextFetchKind.registerToPsr (s.withCpsr (s.cpsr.merged (msrMask fmask) w))) := by
  obtain ⟨m, hm⟩ := Option.isSome_iff_exists.1 hm
  simp only [msrToCpsr, if_neg hu, ht, hm, ne_eq, not_true_eq_false, if_false]

/-- The write to CPSR in ARM state, in the cases of rule R298. -/
theorem msrToCpsr_outcome (hT : s.cpsr.t = false) (hm : Mode.ofBits s.cpsr.m = some md) :
    MsrCpsrOutcome fmask w md s (msrToCpsr fmask w md s) := by
  have hmerged := Psr.merged_fields s.cpsr fmask w
  have ht : (s.cpsr.merged (msrMask fmask) w).t = if fmask.getLsbD 0 then w.getLsbD 5 else s.cpsr.t := by rw [hmerged]
  have hmode : (s.cpsr.merged (msrMask fmask) w).m = if fmask.getLsbD 0 then w.extractLsb' 0 5 else s.cpsr.m := by
    rw [hmerged]
  refine ⟨fun hc hu => msrToCpsr_userControl hu hc, fun hc hu h5 => ?stateBit, fun hc hu h5 hnone => ?invalid,
    fun hlegal => ?written⟩
  case stateBit => exact msrToCpsr_stateBit (fun h => hu h.1) (by rw [ht, hc, h5, hT]; decide)
  case invalid =>
    exact msrToCpsr_invalidMode (fun h => hu h.1) (by rw [ht, hc, h5, hT]; rfl) (by rw [hmode, hc]; exact hnone)
  case written =>
    have hkept : (s.cpsr.merged (msrMask fmask) w).t = s.cpsr.t := by
      cases hc : fmask.getLsbD 0 with
      | false => rw [ht, hc]; rfl
      | true =>
        obtain ⟨-, h5, -⟩ := hlegal hc
        rw [ht, hc, h5, hT]; rfl
    have hvalid : (Mode.ofBits (s.cpsr.merged (msrMask fmask) w).m).isSome = true := by
      cases hc : fmask.getLsbD 0 with
      | false => rw [hmode, hc]; exact Option.isSome_iff_exists.2 ⟨md, hm⟩
      | true =>
        obtain ⟨-, -, hsome⟩ := hlegal hc
        rw [hmode, hc]; exact hsome
    refine ⟨_, msrToCpsr_writes (fun ⟨hu, hc⟩ => (hlegal hc).1 hu) hkept hvalid, ?_, advance_frame _ (s.withCpsr _),
      fun _ => rfl, rfl, advance_ended _ (s.withCpsr _)⟩
    exact hmerged.trans (by rw [← ht, hkept])

/-- The write to the SPSR of the mode (rules R295, R298). -/
theorem msrToSpsr_outcome : MsrSpsrOutcome fmask w md s (msrToSpsr fmask w md s) := by
  refine ⟨fun hnone => ?refused, fun e he => ?written⟩
  case refused => rw [msrToSpsr, hnone]
  case written =>
    have hwrites : msrToSpsr fmask w md s = .next (advance s.params.nextFetchKind.registerToPsr
        (s.withSpsr e ((s.spsr.get e).merged (msrMask fmask) w))) := by rw [msrToSpsr, he]
    obtain ⟨hkept, -⟩ := advance_frame s.params.nextFetchKind.registerToPsr
      (s.withSpsr e ((s.spsr.get e).merged (msrMask fmask) w))
    exact ⟨_, hwrites, (SpsrFile.get_set_self s.spsr e _).trans (Psr.merged_fields (s.spsr.get e) fmask w),
      fun d hd => (SpsrFile.get_set s.spsr e d _).trans (if_neg hd), hkept, rfl, fun _ => rfl, rfl, rfl, rfl,
      advance_ended _ (s.withSpsr e _)⟩

end Msr

/-- Settles O44: both forms are, behind the gate, the write to CPSR with the operand of the form. -/
theorem msrWritesCpsr : Obligations.MsrWritesCpsr := by
  intro c fmask rot sbz imm8 rm md s hr
  have ⟨hT, hm, _⟩ := hr
  refine ⟨fun h13 => ?reg, ?imm⟩
  case reg =>
    have hexec : exec (.msrReg c false fmask sbz rm) s = msrToCpsr fmask (readReg md rm s) md s :=
      (gate_ready hr _).trans (unlessStrict_allows h13)
    rw [hexec]
    exact msrToCpsr_outcome hT hm
  case imm =>
    have hexec : exec (.msrImm c false fmask rot imm8) s = msrToCpsr fmask (rotatedImm rot imm8) md s := gate_ready hr _
    rw [hexec]
    exact msrToCpsr_outcome hT hm

/-- Settles O45: both forms are, behind the gate, the write to the SPSR of the mode. -/
theorem msrWritesSpsr : Obligations.MsrWritesSpsr := by
  intro c fmask rot sbz imm8 rm md s hr
  refine ⟨fun h13 => ?reg, ?imm⟩
  case reg =>
    have hexec : exec (.msrReg c true fmask sbz rm) s = msrToSpsr fmask (readReg md rm s) md s :=
      (gate_ready hr _).trans (unlessStrict_allows h13)
    rw [hexec]
    exact msrToSpsr_outcome
  case imm =>
    have hexec : exec (.msrImm c true fmask rot imm8) s = msrToSpsr fmask (rotatedImm rot imm8) md s := gate_ready hr _
    rw [hexec]
    exact msrToSpsr_outcome

/-! ### The last register write of an instruction -/

/-- All that the last register write `rd <- v` of an instruction, made if `wb`, and the end of the instruction do to a
state, but for R15, the slots, the fetch kind and the calls, of which `Ended` speaks. -/
structure WroteLast (wb : Bool) (md : Mode) (rd : Reg) (v : Word) (u t : State) : Prop where
  written : wb = true → rd ≠ 15 → readReg md rd t = v
  regs : ∀ p, p ≠ .r15 → (wb = true → p ≠ phys rd md) → t.regs.get p = u.regs.get p
  cpsr : t.cpsr = u.cpsr
  spsr : t.spsr = u.spsr
  params : t.params = u.params
  inputs : t.inputs = u.inputs
  mem : t.mem = u.mem
  freeCount : t.freeCount = u.freeCount

section Last
variable {targets : List Word} {data : List BusCall} {s u t : State} {wb : Bool} {md : Mode} {rd : Reg} {v : Word}

theorem Track.blockWriteBack (h : Track targets data s u) (wb : Bool) (md : Mode) (rd : Reg) (v : Word) :
    Track (targets ++ if wb then pcTarget rd v else []) data s (blockWriteBack wb md rd v u) := by
  cases wb
  · exact (List.append_nil targets).symm ▸ h
  · exact h.setReg md rd v

/-- An instruction under way that makes one last register write, or none, and ends. -/
theorem Track.finish_blockWriteBack {f : Bool} {k : AccessKind} (h : Track targets data s u)
    (hf : f = !(targets ++ if wb then pcTarget rd v else []).isEmpty) :
    ∃ t, Machine.finish f k (Machine.blockWriteBack wb md rd v u) = .next t ∧
      Ended (targets ++ if wb then pcTarget rd v else []) k data s t ∧ WroteLast wb md rd v u t := by
  obtain ⟨t, hexec, hended, hend⟩ := (h.blockWriteBack wb md rd v).finish hf
  obtain ⟨hcpsr, hspsr, hparams, hinputs, hmem, hfree, hregs⟩ := ending_fields hend
  refine ⟨t, hexec, hended, ?_⟩
  cases wb with
  | false =>
    exact ⟨fun hw => absurd hw (by decide), fun p h15 _ => hregs p h15, hcpsr, hspsr, hparams, hinputs, hmem, hfree⟩
  | true =>
    refine ⟨fun _ hrd => ?_, fun p h15 hp => (hregs p h15).trans ?_, hcpsr.trans (setReg_cpsr ..),
      hspsr.trans (setReg_spsr ..), hparams.trans (setReg_params ..), hinputs.trans (setReg_inputs ..),
      hmem.trans (setReg_mem ..), hfree.trans (setReg_freeCount md rd v h.arm)⟩
    · exact (ending_readReg hend md hrd).trans (readReg_setReg_self md v u hrd)
    · exact (RegsKept.refl [] u).setReg md rd v p h15 (by simpa using hp rfl)

/-- The same of a register write that is always made and is the only one. -/
theorem Track.finish_setReg (h : Track [] data s u) (md : Mode) (rd : Reg) (v : Word) (k : AccessKind) :
    ∃ t, Machine.finish (rd == 15) k (Machine.setReg md rd v u) = .next t ∧ Ended (pcTarget rd v) k data s t ∧
      WroteLast true md rd v u t :=
  h.finish_blockWriteBack (wb := true) (by simp [pcTarget_isEmpty])

theorem WroteLast.frame (h : WroteLast wb md rd v u t) (hu : Frame [] s u) :
    Frame (if wb then [phys rd md] else []) s t := by
  obtain ⟨hregs, hspsr, hparams, hinputs⟩ := hu
  refine ⟨fun p h15 hp => ?_, h.spsr.trans hspsr, h.params.trans hparams, h.inputs.trans hinputs⟩
  refine (h.regs p h15 ?_).trans (hregs p h15 (by simp))
  rintro rfl
  simpa using hp

end Last

/-! ### MRS (49_psr_transfer.md rules R295, R296) -/

section Mrs
variable {c : Cond} {spsr : Bool} {rd : Reg} {sbz : BitVec 12} {md : Mode} {s : State}

theorem exec_mrs_refused (hr : Ready c md s) (h12 : Allows (rd == 15 || sbz != 0) s) (hp : selectedPsr spsr md s = none) :
    exec (.mrs c spsr rd sbz) s = .refused .noSavedStatusRegister :=
  (gate_ready hr _).trans ((unlessStrict_allows h12).trans (by rw [hp]))

/-- The selected status register copied into Rd. -/
theorem exec_mrs_effect {p : Psr} (hr : Ready c md s) (h12 : Allows (rd == 15 || sbz != 0) s)
    (hp : selectedPsr spsr md s = some p) :
    ∃ t, exec (.mrs c spsr rd sbz) s = .next t ∧ (rd ≠ 15 → readReg md rd t = p.toWord) ∧ Frame [phys rd md] s t ∧
      t.cpsr = s.cpsr ∧ MemKept s t ∧ t.freeCount = s.freeCount ∧
      Ended (pcTarget rd p.toWord) s.params.nextFetchKind.psrToRegister [] s t := by
  have ⟨hT, _⟩ := hr
  obtain ⟨t, hfinish, hended, hlast⟩ :=
    (Track.refl hT).finish_setReg md rd p.toWord s.params.nextFetchKind.psrToRegister
  have hexec : exec (.mrs c spsr rd sbz) s = .next t :=
    (gate_ready hr _).trans ((unlessStrict_allows h12).trans (by rw [hp]; exact hfinish))
  exact ⟨t, hexec, hlast.written rfl, hlast.frame ⟨RegsKept.refl [] s, rfl, rfl, rfl⟩, hlast.cpsr,
    fun a => by rw [hlast.mem], hlast.freeCount, hended⟩

end Mrs

/-- Settles O43: bit 22 selects CPSR, or the SPSR of the mode if it has one. -/
theorem mrsCopiesTheStatusRegister : Obligations.MrsCopiesTheStatusRegister := by
  intro c rd sbz md s hr h12
  refine ⟨exec_mrs_effect hr h12 rfl, fun hnone => ?refused, fun e he => ?copied⟩
  case refused => exact exec_mrs_refused hr h12 (by rw [selectedPsr, if_pos rfl, hnone, Option.map_none])
  case copied => exact exec_mrs_effect hr h12 (by rw [selectedPsr, if_pos rfl, he, Option.map_some])

/-! ### SWP and SWPB (48_swap_swi_undefined.md rules R280, R281) -/

/-- Two words with the same four bytes are one. -/
theorem word_eq_of_bytes {x y : Word}
    (h : ∀ j : Nat, j < 4 → x.extractLsb' (8 * j) 8 = y.extractLsb' (8 * j) 8) : x = y := by
  apply BitVec.eq_of_getLsbD_eq
  intro i hi
  have hbit := congrArg (BitVec.getLsbD · (i % 8)) (h (i / 8) (by omega))
  simpa only [BitVec.getLsbD_extractLsb', Nat.div_add_mod, Nat.mod_lt i (by decide : 8 > 0), decide_true, Bool.true_and]
    using hbit

/-- The read, the write of the source and then the write of Rd, for either width. -/
theorem swap_effect (ld : LoadKind) (st : StoreKind) {md : Mode} {s : State} (hT : s.cpsr.t = false) (a src : Word)
    (rd : Reg) (k : AccessKind) :
    ∃ t, finish (rd == 15) k (setReg md rd (loadValue ld a s).1 (storeValue st a src (loadValue ld a s).2)) = .next t ∧
      (rd ≠ 15 → readReg md rd t = loadedWord ld a s.mem) ∧
      (∀ i : Nat, i < st.bytes → t.mem.read8 (st.address a + BitVec.ofNat 32 i) = src.extractLsb' (8 * i) 8) ∧
      MemKeptOutside (st.address a) st.bytes s t ∧ Frame [phys rd md] s t ∧ t.cpsr = s.cpsr ∧
      t.freeCount = s.freeCount ∧
      Ended (pcTarget rd (loadedWord ld a s.mem)) k [loadCall ld a s.mem, storeCall st a src] s t := by
  rw [loadValue_fst, loadValue_snd]
  have hload : Track [] [loadCall ld a s.mem] s (s.record (loadCall ld a s.mem)) :=
    (Track.refl hT).call _ rfl rfl rfl rfl rfl
  obtain ⟨hregs, hcpsr, hspsr, hparams, hinputs, hfree, h0, h1, hcalls⟩ :=
    storeValue_regs st a src (s.record (loadCall ld a s.mem))
  obtain ⟨hbytes, hothers⟩ := storeValue_mem st a src (s.record (loadCall ld a s.mem))
  generalize storeValue st a src (s.record (loadCall ld a s.mem)) = u at *
  have hstore : Track [] [loadCall ld a s.mem, storeCall st a src] s u :=
    hload.call _ (by rw [hcpsr]) hcalls (by rw [State.pc, hregs]; rfl) h0 h1
  obtain ⟨t, hexec, hended, hlast⟩ := hstore.finish_setReg md rd (loadedWord ld a s.mem) k
  refine ⟨t, hexec, hlast.written rfl, fun i hi => ?_, fun b hb => ?_,
    hlast.frame ⟨(RegsKept.refl [] s).of_regs hregs, hspsr, hparams, hinputs⟩, hlast.cpsr.trans hcpsr,
    hlast.freeCount.trans hfree, hended⟩
  · rw [hlast.mem]; exact hbytes i hi
  · rw [hlast.mem]; exact hothers b hb

/-- Settles O42: past the gate and the class U10 test both are the swap of their width. -/
theorem swapsReadThenWrite : Obligations.SwapsReadThenWrite := by
  intro c rn rd rm md s hr h10
  have ⟨hT, _⟩ := hr
  have hexec (i : Instr) {k : Mode → Result}
      (hi : exec i s = gate c s fun m => unlessStrict .u10 (swapUnpredictable rn rd rm) s (k m)) : exec i s = k md :=
    hi.trans ((gate_ready hr _).trans (unlessStrict_allows h10))
  refine ⟨?word, ?byte⟩
  case word =>
    obtain ⟨t, hfinish, hrd, hbytes, hothers, hend⟩ :=
      swap_effect .word .word hT (readReg md rn s) (readReg md rm s) rd s.params.nextFetchKind.singleDataSwap
    exact ⟨t, (hexec (.swp c rn rd rm) rfl).trans hfinish, hrd,
      word_eq_of_bytes fun j hj => (Memory.read32_byte _ _ hj).trans (hbytes j hj), hothers, hend⟩
  case byte =>
    obtain ⟨t, hfinish, hrd, hbytes, hothers, hend⟩ :=
      swap_effect .byte .byte hT (readReg md rn s) (readReg md rm s) rd s.params.nextFetchKind.singleDataSwap
    have hbyte := hbytes 0 (by decide)
    rw [BitVec.add_zero] at hbyte
    exact ⟨t, (hexec (.swpb c rn rd rm) rfl).trans hfinish, hrd, hbyte, hothers, hend⟩

end Sys2Proof.Machine
end

section
/-!
PROOFS. Block data transfer (47_block_data_transfer.md): past the gate and the class U tests LDM and STM are the transfers
of Laws/Block.lean, the word of R15, and the write-back as the last register write.
-/

namespace Sys2Proof.Machine

/-- Settles O41: S = 1 is the first test behind the gate. -/
theorem forceUserBitIsRefused : Obligations.ForceUserBitIsRefused :=
  fun _ _ _ _ _ _ _ hr => ⟨gate_ready hr _, gate_ready hr _⟩

theorem unlessBlockStrict_allows {wb : Bool} {rn : Reg} {list : BitVec 16} {s : State} {k : Result}
    (h5 : Allows (list == 0) s) (h6 : Allows (wb && list.getLsbD rn.toNat) s) (h7 : Allows (rn == 15) s) :
    unlessBlockStrict wb rn list s k = k := by
  rw [unlessBlockStrict, unlessStrict_allows h5, unlessStrict_allows h6, unlessStrict_allows h7]

theorem writeBackTargets_isEmpty (wb : Bool) (rn : Reg) (v : Word) :
    (if wb then pcTarget rn v else []).isEmpty = !(wb && rn == 15) := by
  cases wb
  · rfl
  · exact pcTarget_isEmpty rn v

/-- A block transfer flushes exactly when it writes the program counter, with a word loaded or with the base. -/
theorem blockTransfer_flushes (o : Option Word) (wb : Bool) (rn : Reg) (v : Word) :
    (o.isSome || (wb && rn == 15)) = !(o.toList ++ if wb then pcTarget rn v else []).isEmpty := by
  cases o with
  | some w => rfl
  | none => exact ((congrArg (! ·) (writeBackTargets_isEmpty wb rn v)).trans (Bool.not_not _)).symm

/-! ### The places of the registers of a list (47_block_data_transfer.md rules R265 to R267) -/

/-- The place of a register in the list is the number of registers below it. -/
theorem listRegs_place {list : BitVec 16} {j : Nat} {r : Reg} (h : (listRegs list)[j]? = some r) :
    list.getLsbD r.toNat = true ∧ j = slotOf list r.toNat := by
  have hin := (mem_listRegs list r).1 (List.mem_of_getElem? h)
  have hj := (List.getElem?_eq_some_iff.1 h).1
  exact ⟨hin, (List.getElem?_inj hj (listRegs_nodup list)).1 (h.trans (listRegs_slot list r hin).symm)⟩

theorem listRegs_idxOf (list : BitVec 16) (r : Reg) :
    (listRegs list).idxOf? r = if list.getLsbD r.toNat then some (slotOf list r.toNat) else none := by
  cases h : (listRegs list).idxOf? r with
  | none =>
    have hout := List.idxOf?_eq_none_iff.1 h
    rw [mem_listRegs] at hout
    rw [if_neg hout]
  | some j =>
    obtain ⟨hj, hr, -⟩ := List.idxOf?_eq_some_iff.1 h
    obtain ⟨hin, hplace⟩ := listRegs_place ((List.getElem?_eq_getElem hj).trans (congrArg some hr))
    rw [if_pos hin, hplace]

/-- A list made from the registers and their places is made from the registers. -/
theorem listRegs_zipIdx_map {α : Type} (list : BitVec 16) (f : Reg → Nat → α) :
    ((listRegs list).zipIdx.map fun x => f x.1 x.2) = (listRegs list).map fun r => f r (slotOf list r.toNat) := by
  have hplace : ∀ x ∈ (listRegs list).zipIdx, f x.1 x.2 = f x.1 (slotOf list x.1.toNat) := by
    intro x hx
    rw [← (listRegs_place (List.mem_zipIdx_iff_getElem?.1 hx)).2]
  rw [List.map_congr_left hplace]
  conv_rhs => rw [← List.zipIdx_map_fst 0 (listRegs list), List.map_map]
  rfl

/-! ### LDM (47_block_data_transfer.md rule R271) -/

/-- The word of register `n` of the list, in memory as it was. -/
def listWord (m : BlockMode) (list : BitVec 16) (rn : Reg) (md : Mode) (s : State) (n : Nat) : Word :=
  s.mem.read32 (slotAddr m (readReg md rn s) list (slotOf list n))

/-- The word LDM loads for R15, if the list names it. -/
def listPcWord (m : BlockMode) (list : BitVec 16) (rn : Reg) (md : Mode) (s : State) : Option Word :=
  if list.getLsbD 15 then some (listWord m list rn md s 15) else none

/-- The calls of LDM. -/
def ldmCalls (m : BlockMode) (list : BitVec 16) (rn : Reg) (md : Mode) (s : State) : List BusCall :=
  (List.range (slotOf list 16)).map fun j =>
    .load .word (slotAddr m (readReg md rn s) list j) (slotKind j) (s.mem.read32 (slotAddr m (readReg md rn s) list j))

/-- What the transfers of LDM, and then the program-counter write of R15, do to a state, but for R15, the slots, the fetch
kind and the calls. -/
structure Loaded (m : BlockMode) (list : BitVec 16) (rn : Reg) (md : Mode) (s u : State) : Prop where
  words : ∀ r : Reg, r ≠ 15 → list.getLsbD r.toNat = true → readReg md r u = listWord m list rn md s r.toNat
  regs : ∀ p, p ≠ .r15 → (∀ r : Reg, list.getLsbD r.toNat = true → p ≠ phys r md) → u.regs.get p = s.regs.get p
  cpsr : u.cpsr = s.cpsr
  spsr : u.spsr = s.spsr
  params : u.params = s.params
  inputs : u.inputs = s.inputs
  mem : u.mem = s.mem
  freeCount : u.freeCount = s.freeCount

section Ldm
variable {m : BlockMode} {list : BitVec 16} {rn : Reg} {md : Mode} {s u : State}

theorem loadRegs_loaded (m : BlockMode) (list : BitVec 16) (rn : Reg) (md : Mode) {s : State} (hT : s.cpsr.t = false) :
    ∃ u, loadRegs md (listRegs list) (blockStart m (readReg md rn s) (blockBytes list)) .nonSequential none s =
        (listPcWord m list rn md s, u) ∧ Loaded m list rn md s u ∧ Track [] (ldmCalls m list rn md s) s u := by
  obtain ⟨hpcWord, hwords, hkept, hcalls, hmem, hcpsr, hspsr, hparams, hinputs, hfree, h0, h1⟩ :=
    loadRegs_effect md (listRegs list) (blockStart m (readReg md rn s) (blockBytes list)) .nonSequential none s
      (listRegs_nodup list)
  simp only [blockWord, blockLoadCalls, blockStart_slot, listRegs_length] at hpcWord hwords hcalls
  refine ⟨_, Prod.ext (hpcWord.trans ?pcWord) rfl, ⟨fun r h15 hin => hwords _ r (listRegs_slot list r hin) h15,
    fun p _ hp => hkept p (.inl fun r hr => hp r ((mem_listRegs list r).1 hr)), hcpsr, hspsr, hparams, hinputs, hmem,
    hfree⟩, ⟨by rw [hcpsr, hT], ?calls, hkept .r15 (.inr rfl), h0, h1⟩⟩
  case pcWord =>
    rw [listRegs_idxOf, listPcWord, show (15 : Reg).toNat = 15 from rfl]
    cases list.getLsbD 15 <;> rfl
  case calls => exact hcalls.trans (List.append_nil _).symm

theorem Loaded.writeLoadedPc (h : Loaded m list rn md s u) (hT : s.cpsr.t = false) (o : Option Word) :
    Loaded m list rn md s (writeLoadedPc o u) := by
  cases o with
  | none => exact h
  | some v =>
    exact ⟨fun r h15 hin => (readReg_flush md v u h15).trans (h.words r h15 hin),
      fun p h15 hp => (flush_get v u h15).trans (h.regs p h15 hp), (flush_cpsr v u).trans h.cpsr,
      (flush_spsr v u).trans h.spsr, (flush_params v u).trans h.params, (flush_inputs v u).trans h.inputs,
      (flush_mem v u).trans h.mem, (flush_freeCount v (by rw [h.cpsr, hT])).trans h.freeCount⟩

theorem Track.writeLoadedPc {data : List BusCall} (h : Track [] data s u) (o : Option Word) :
    Track o.toList data s (writeLoadedPc o u) := by
  cases o with
  | none => exact h
  | some v => exact h.flush v

theorem exec_ldm {c : Cond} {wb : Bool} (hr : Ready c md s) (h5 : Allows (list == 0) s)
    (h6 : Allows (wb && list.getLsbD rn.toNat) s) (h7 : Allows (rn == 15) s) {o : Option Word}
    (hload : loadRegs md (listRegs list) (blockStart m (readReg md rn s) (blockBytes list)) .nonSequential none s =
      (o, u)) :
    exec (.ldm c m false wb rn list) s =
      finish (o.isSome || (wb && rn == 15)) s.params.nextFetchKind.blockDataTransfer
        (blockWriteBack wb md rn (blockBase m (readReg md rn s) list) (writeLoadedPc o u)) := by
  rw [← ldmWrites_eq, ← blockBase_eq]
  refine (gate_ready hr _).trans ((unlessBlockStrict_allows h5 h6 h7).trans ?_)
  simp only [hload]

end Ldm

/-- Settles O39: the transfers write the listed registers, the word of R15 is the first program-counter write, and the
write-back is the last register write. -/
theorem loadMultiple : Obligations.LoadMultiple := by
  intro c m wb rn list md s hr h5 h6 h7
  have ⟨hT, _⟩ := hr
  obtain ⟨u, hload, hloaded, htrack⟩ := loadRegs_loaded m list rn md hT
  have hpc := hloaded.writeLoadedPc hT (listPcWord m list rn md s)
  obtain ⟨t, hfinish, hended, hlast⟩ := (htrack.writeLoadedPc (listPcWord m list rn md s)).finish_blockWriteBack
    (md := md) (k := s.params.nextFetchKind.blockDataTransfer)
    (blockTransfer_flushes _ wb rn (blockBase m (readReg md rn s) list))
  refine ⟨t, (exec_ldm hr h5 h6 h7 hload).trans hfinish, fun r h15 hin hbase => ?word, hlast.written,
    fun p h15 hp => ?kept, hlast.spsr.trans hpc.spsr, hlast.params.trans hpc.params, hlast.inputs.trans hpc.inputs,
    hlast.cpsr.trans hpc.cpsr, fun a => by rw [hlast.mem, hpc.mem], hlast.freeCount.trans hpc.freeCount, ?ended⟩
  case word =>
    have hother : wb = true → phys r md ≠ phys rn md := fun hw e => hbase ⟨hw, phys_inj md r rn e⟩
    exact (hlast.regs _ (phys_ne_r15 md h15) hother).trans (hpc.words r h15 hin)
  case kept =>
    exact (hlast.regs p h15 fun hw => hp rn (.inr ⟨hw, rfl⟩)).trans (hpc.regs p h15 fun r hin => hp r (.inl hin))
  case ended =>
    have htargets : (listPcWord m list rn md s).toList =
        if list.getLsbD 15 then [listWord m list rn md s 15] else [] := by
      rw [listPcWord]; split <;> rfl
    rw [htargets] at hended
    exact hended

/-! ### STM (47_block_data_transfer.md rule R272) -/

section Stm
variable {m : BlockMode} {list : BitVec 16} {rn : Reg} {md : Mode} {s : State}

/-- The calls of STM. -/
def stmCalls (m : BlockMode) (list : BitVec 16) (rn : Reg) (md : Mode) (s : State) : List BusCall :=
  (listRegs list).map fun r => .store .word (slotAddr m (readReg md rn s) list (slotOf list r.toNat))
    (slotKind (slotOf list r.toNat)) (storeSource md r s)

/-- The state after the transfers of STM. -/
def stored (m : BlockMode) (list : BitVec 16) (rn : Reg) (md : Mode) (s : State) : State :=
  storeRegs md (listRegs list) (blockStart m (readReg md rn s) (blockBytes list)) .nonSequential s

/-- The transfers of STM write memory and the calls alone: each register at its place, and no byte outside the places. -/
theorem stored_effect (m : BlockMode) (list : BitVec 16) (rn : Reg) (md : Mode) {s : State} (hT : s.cpsr.t = false) :
    (∀ r : Reg, list.getLsbD r.toNat = true →
      (stored m list rn md s).mem.read32 (slotAddr m (readReg md rn s) list (slotOf list r.toNat)) =
        storeSource md r s) ∧
    (∀ b : Word, (∀ j i : Nat, j < slotOf list 16 → i < 4 →
        b ≠ slotAddr m (readReg md rn s) list j + BitVec.ofNat 32 i) →
      (stored m list rn md s).mem.read8 b = s.mem.read8 b) ∧
    Frame [] s (stored m list rn md s) ∧ (stored m list rn md s).cpsr = s.cpsr ∧
    (stored m list rn md s).freeCount = s.freeCount ∧ Track [] (stmCalls m list rn md s) s (stored m list rn md s) := by
  obtain ⟨hwords, hothers, hcalls, hregs, hcpsr, hspsr, hparams, hinputs, hfree, h0, h1⟩ :=
    storeRegs_effect md (listRegs list) (blockStart m (readReg md rn s) (blockBytes list)) .nonSequential s
      ((listRegs_length list).trans_le (slotOf_le list))
  simp only [blockStart_slot, listRegs_length] at hwords hothers hcalls
  rw [listRegs_zipIdx_map list fun r j => BusCall.store .word (slotAddr m (readReg md rn s) list j)
    (if j = 0 then .nonSequential else .sequential) (storeSource md r s)] at hcalls
  exact ⟨fun r hin => hwords _ r (listRegs_slot list r hin), hothers,
    ⟨(RegsKept.refl [] s).of_regs hregs, hspsr, hparams, hinputs⟩, hcpsr, hfree, (congrArg Psr.t hcpsr).trans hT,
    hcalls.trans (List.append_nil _).symm, congrArg RegFile.r15 hregs, h0, h1⟩

theorem exec_stm {c : Cond} {wb : Bool} (hr : Ready c md s) (h5 : Allows (list == 0) s)
    (h6 : Allows (wb && list.getLsbD rn.toNat) s) (h7 : Allows (rn == 15) s) :
    exec (.stm c m false wb rn list) s = finish (wb && rn == 15) s.params.nextFetchKind.blockDataTransfer
      (blockWriteBack wb md rn (blockBase m (readReg md rn s) list) (stored m list rn md s)) := by
  rw [← blockBase_eq]
  exact (gate_ready hr _).trans (unlessBlockStrict_allows h5 h6 h7)

end Stm

/-- Settles O40: the transfers write memory alone, each register at its place, and the write-back is the last register
write. -/
theorem storeMultiple : Obligations.StoreMultiple := by
  intro c m wb rn list md s hr h5 h6 h7
  have ⟨hT, _⟩ := hr
  obtain ⟨hwords, hothers, hframe, hcpsr, hfree, htrack⟩ := stored_effect m list rn md hT
  obtain ⟨t, hfinish, hended, hlast⟩ := htrack.finish_blockWriteBack
    (md := md) (k := s.params.nextFetchKind.blockDataTransfer)
    (blockTransfer_flushes none wb rn (blockBase m (readReg md rn s) list))
  refine ⟨t, (exec_stm hr h5 h6 h7).trans hfinish, fun r hin => ?word, fun b hb => ?kept, hlast.written,
    hlast.frame hframe, hlast.cpsr.trans hcpsr, hlast.freeCount.trans hfree, hended⟩
  case word => rw [hlast.mem]; exact hwords r hin
  case kept => rw [hlast.mem]; exact hothers b hb

end Sys2Proof.Machine
end
